-- ==== Sys2Proof/Word.lean ====
section
/-! DEFINITION. The widths the spec gives its words (spec/30_encoding.md R61 to R64, R78) and nothing else. -/

namespace Sys2Proof

/-- A byte of `BUF` or of the host's memory. -/
abbrev Byte := BitVec 8

/-- The 5-bit count field `n = cmd_op[4:0]` of a command word (R64). -/
abbrev Count5 := BitVec 5

/-- The operand `cmd_arg`, a status output or a 32-bit response field (R61 to R63). -/
abbrev Word32 := BitVec 32

/-- The varint accumulator and every 64-bit value field (R8, R62). -/
abbrev Word64 := BitVec 64

/-- An event record on the event port (R63, R78). -/
abbrev EventWord := BitVec 104

end Sys2Proof
end

