-- ==== Sys2Proof/Syntax.lean ====
section
/-! DEFINITION. The rows of spec/opcode_table.json, one constructor each. -/

namespace Sys2Proof

/-- One row of the opcode table. Commands and reserved command words (spec/30_encoding.md R65, R67), the assembler's
pseudo-instructions (R81), the stream formats the packet engine parses (R70 to R76) and the event records it emits (R78).
`cmd_arg` is an operand of LOAD alone (R64). -/
inductive Instr where
  /-- `LOAD`, `cmd_op = 0x20`, with `cmd_arg` the byte count (R91). -/
  | load (arg : Word32)
  /-- `CONSUME8 n`, `cmd_op = 0x40 + n` (R102). -/
  | consume8 (n : Count5)
  /-- `CONSUME16 n`, `cmd_op = 0x60 + n` (R103). -/
  | consume16 (n : Count5)
  /-- `VARINT`, `cmd_op = 0x80` (R120). -/
  | varint
  /-- `PACKET`, `cmd_op = 0xA0` (R156). -/
  | packet
  /-- `STREAM`, `cmd_op = 0xC0` (R158). -/
  | stream
  /-- A reserved word with `op = 0b000`; `x` is `cmd_op[4:0]` (R67). -/
  | reservedOp0 (x : Count5)
  /-- A reserved word with `op = 0b111`; `x` is `cmd_op[4:0]` (R67). -/
  | reservedOp7 (x : Count5)
  /-- `VERSION` = `CONSUME8 3` (R81). -/
  | version
  /-- `TYPEID` = `CONSUME8 3` (R81). -/
  | typeid
  /-- `LTYPE` = `CONSUME8 1` (R81). -/
  | ltype
  /-- `GROUP` = `CONSUME8 5` (R81). -/
  | group
  /-- `TOTALBITS` = `CONSUME16 15` (R81). -/
  | totalbits
  /-- `NPACKETS` = `CONSUME16 11` (R81). -/
  | npackets
  /-- `READ n` = `CONSUME8 n` for `n <= 8`, `CONSUME16 n` for `9 <= n <= 16` (R81). -/
  | read (n : Count5)
  /-- A varint group `cpppp`: continuation flag and payload (R70). -/
  | varintGroup (c : Bool) (p : BitVec 4)
  /-- The 6-bit header `vvvttt` of every packet (R72). -/
  | pktHeader (v t : BitVec 3)
  /-- A literal packet: header `vvv100` and the payloads of its groups, first group first (R71, R73). -/
  | pktLiteral (v : BitVec 3) (ps : List (BitVec 4))
  /-- `Sum` operator header, length mode 0, `total_bits = l` (R74, R76). -/
  | pktSumM0 (v : BitVec 3) (l : BitVec 15)
  /-- `Sum` operator header, length mode 1, `packet_count = c` (R75, R76). -/
  | pktSumM1 (v : BitVec 3) (c : BitVec 11)
  /-- `Product` operator header, length mode 0, `total_bits = l` (R74, R76). -/
  | pktProductM0 (v : BitVec 3) (l : BitVec 15)
  /-- `Product` operator header, length mode 1, `packet_count = c` (R75, R76). -/
  | pktProductM1 (v : BitVec 3) (c : BitVec 11)
  /-- `Minimum` operator header, length mode 0, `total_bits = l` (R74, R76). -/
  | pktMinimumM0 (v : BitVec 3) (l : BitVec 15)
  /-- `Minimum` operator header, length mode 1, `packet_count = c` (R75, R76). -/
  | pktMinimumM1 (v : BitVec 3) (c : BitVec 11)
  /-- `Maximum` operator header, length mode 0, `total_bits = l` (R74, R76). -/
  | pktMaximumM0 (v : BitVec 3) (l : BitVec 15)
  /-- `Maximum` operator header, length mode 1, `packet_count = c` (R75, R76). -/
  | pktMaximumM1 (v : BitVec 3) (c : BitVec 11)
  /-- `Greater` operator header, length mode 0, `total_bits = l` (R74, R76). -/
  | pktGreaterM0 (v : BitVec 3) (l : BitVec 15)
  /-- `Greater` operator header, length mode 1, `packet_count = c` (R75, R76). -/
  | pktGreaterM1 (v : BitVec 3) (c : BitVec 11)
  /-- `Less` operator header, length mode 0, `total_bits = l` (R74, R76). -/
  | pktLessM0 (v : BitVec 3) (l : BitVec 15)
  /-- `Less` operator header, length mode 1, `packet_count = c` (R75, R76). -/
  | pktLessM1 (v : BitVec 3) (c : BitVec 11)
  /-- `Equal` operator header, length mode 0, `total_bits = l` (R74, R76). -/
  | pktEqualM0 (v : BitVec 3) (l : BitVec 15)
  /-- `Equal` operator header, length mode 1, `packet_count = c` (R75, R76). -/
  | pktEqualM1 (v : BitVec 3) (c : BitVec 11)
  /-- `LITERAL` event: version, group count `a`, value `d` (R78). -/
  | evLiteral (v : BitVec 3) (a : Word32) (d : Word64)
  /-- `OP_BEGIN` event: version, type id, length mode bit `m`, length field `l` (R78). -/
  | evOpBegin (v t : BitVec 3) (m : Bool) (l : BitVec 15)
  /-- `OP_END` event: number of children `a` (R78). -/
  | evOpEnd (a : Word32)
deriving DecidableEq, Repr

end Sys2Proof
end

