-- ==== Sys2Proof/WellFormed.lean ====
section
/-! DEFINITION. Which terms of Instr are instructions of the spec. -/

namespace Sys2Proof

/-- The checks the field types do not make: `READ n` is defined for `n <= 16` only (spec/30_encoding.md R81), a varint has
at least one group (R71), an `OP_BEGIN` event never carries type id 4, and in length mode 1 its length field is an 11-bit
`packet_count` (R78). -/
def Instr.wellFormed : Instr → Bool
  | .read n => n.toNat ≤ 16
  | .pktLiteral _ ps => ps ≠ []
  | .evOpBegin _ t m l => t ≠ 4#3 ∧ (m = true → l.toNat < 2 ^ 11)
  | .load _ | .consume8 _ | .consume16 _ | .varint | .packet | .stream | .reservedOp0 _ | .reservedOp7 _ => true
  | .version | .typeid | .ltype | .group | .totalbits | .npackets => true
  | .varintGroup _ _ | .pktHeader _ _ => true
  | .pktSumM0 _ _ | .pktSumM1 _ _ | .pktProductM0 _ _ | .pktProductM1 _ _ => true
  | .pktMinimumM0 _ _ | .pktMinimumM1 _ _ | .pktMaximumM0 _ _ | .pktMaximumM1 _ _ => true
  | .pktGreaterM0 _ _ | .pktGreaterM1 _ _ | .pktLessM0 _ _ | .pktLessM1 _ _ => true
  | .pktEqualM0 _ _ | .pktEqualM1 _ _ => true
  | .evLiteral _ _ _ | .evOpEnd _ => true

/-- `i` is an instruction of the spec. -/
abbrev Instr.WellFormed (i : Instr) : Prop := i.wellFormed = true

end Sys2Proof
end

