-- ==== Sys2Proof/Decode.lean ====
section
/-! DEFINITION. The encodings of spec/30_encoding.md in both directions: the decoder, total on every word and rejecting by
name, and after it the encoder, written from the same tables. -/

namespace Sys2Proof

/-! ### Bit strings, first stream bit on the left (R11, R44) -/

/-- The unsigned number whose most significant bit is the first of `bs` (R44). -/
def natOfBits (bs : List Bool) : Nat := bs.foldl (fun a b => 2 * a + b.toNat) 0

/-- The `w` low bits of `n`, most significant first (R12, R44). -/
def bitsOfNat : (w n : Nat) → List Bool
  | 0, _ => []
  | w + 1, n => n.testBit w :: bitsOfNat w n

/-- The bits of a field in stream order. -/
def fieldBits {w : Nat} (v : BitVec w) : List Bool := bitsOfNat w v.toNat

/-- The stream bits of a byte sequence: bytes in order, each most significant bit first (R13, R41). -/
def streamBits (bytes : List Byte) : List Bool := bytes.flatMap fieldBits

/-- The bytes of a word that counts its first byte as bits 7 to 0, its second as bits 15 to 8, and so on. -/
def bytesOfWord : (k w : Nat) → List Byte
  | 0, _ => []
  | k + 1, w => BitVec.ofNat 8 w :: bytesOfWord k (w / 256)

/-! ### The decoder -/

/-- Why a word is no instruction. -/
inductive DecodeError where
  /-- A word of LOAD, VARINT, PACKET or STREAM with a non-zero `n`: reserved (R67(b)). -/
  | reservedCount (op : BitVec 3) (n : Count5)
  /-- The bits end before the format does. -/
  | truncated
  /-- Bits are left over after the format. -/
  | trailingBits
  /-- Event `kind = 3` is never emitted (R78). -/
  | reservedEventKind
  /-- A bit of an event record that R78 fixes has another value. -/
  | reservedEventBits
deriving DecidableEq, Repr

/-- Where in the packet stream the engine is: the three places at which it reads a format of its own. -/
inductive StreamPos where
  /-- inside a varint (R70) -/
  | group
  /-- at a packet's six header bits (R72) -/
  | header
  /-- at the start of a packet (R73 to R75) -/
  | packet
deriving DecidableEq, Repr

/-- The words of the three encodings. -/
inductive Code where
  /-- a command: `cmd_op` and `cmd_arg` (R64) -/
  | command (op : BitVec 8) (arg : Word32)
  /-- stream bits, first bit first, at a place of the stream (R70 to R75) -/
  | stream (pos : StreamPos) (bits : List Bool)
  /-- an event record (R78) -/
  | event (w : EventWord)
deriving DecidableEq, Repr

/-- The command map (R64, R65, R67): `op = cmd_op[7:5]`, `n = cmd_op[4:0]`. `cmd_arg` is LOAD's operand and is ignored by
every other command. -/
def decodeCommand (cmdOp : BitVec 8) (arg : Word32) : Except DecodeError Instr :=
  let op : BitVec 3 := cmdOp.extractLsb' 5 3
  let n : Count5 := cmdOp.extractLsb' 0 5
  match op.toNat with
  | 0 => .ok (.reservedOp0 n)
  | 1 => if n = 0 then .ok (.load arg) else .error (.reservedCount op n)
  | 2 => .ok (.consume8 n)
  | 3 => .ok (.consume16 n)
  | 4 => if n = 0 then .ok .varint else .error (.reservedCount op n)
  | 5 => if n = 0 then .ok .packet else .error (.reservedCount op n)
  | 6 => if n = 0 then .ok .stream else .error (.reservedCount op n)
  | _ => .ok (.reservedOp7 n)

/-- The first `w` bits as a field, and the bits after them. -/
def takeField (w : Nat) (bs : List Bool) : Except DecodeError (BitVec w × List Bool) :=
  if bs.length < w then .error .truncated else .ok (BitVec.ofNat w (natOfBits (bs.take w)), bs.drop w)

/-- The groups of one varint, up to and including the first whose continuation flag is 0 (R70, R71). -/
def decodeGroups : List Bool → Except DecodeError (List (BitVec 4) × List Bool)
  | c :: b3 :: b2 :: b1 :: b0 :: rest =>
    let p := BitVec.ofNat 4 (natOfBits [b3, b2, b1, b0])
    if c then
      match decodeGroups rest with
      | .ok (ps, r) => .ok (p :: ps, r)
      | .error e => .error e
    else .ok ([p], rest)
  | _ => .error .truncated

/-- The operator header of a type id in length mode 0 (R74, R76). Type id 4 has no such header; its bits are a literal's. -/
def operatorM0 (t v : BitVec 3) (l : BitVec 15) : Instr :=
  match t.toNat with
  | 0 => .pktSumM0 v l
  | 1 => .pktProductM0 v l
  | 2 => .pktMinimumM0 v l
  | 3 => .pktMaximumM0 v l
  | 5 => .pktGreaterM0 v l
  | 6 => .pktLessM0 v l
  | 4 => .pktHeader v t
  | _ => .pktEqualM0 v l

/-- The operator header of a type id in length mode 1 (R75, R76). -/
def operatorM1 (t v : BitVec 3) (c : BitVec 11) : Instr :=
  match t.toNat with
  | 0 => .pktSumM1 v c
  | 1 => .pktProductM1 v c
  | 2 => .pktMinimumM1 v c
  | 3 => .pktMaximumM1 v c
  | 5 => .pktGreaterM1 v c
  | 6 => .pktLessM1 v c
  | 4 => .pktHeader v t
  | _ => .pktEqualM1 v c

/-- The packet format that starts at the first bit: a literal with its varint, or an operator header (R72 to R76). -/
def decodePacket (bs : List Bool) : Except DecodeError (Instr × List Bool) := do
  let (v, r1) ← takeField 3 bs
  let (t, r2) ← takeField 3 r1
  if t = 4#3 then
    let (ps, r) ← decodeGroups r2
    pure (.pktLiteral v ps, r)
  else
    let (m, r3) ← takeField 1 r2
    if m = 0#1 then
      let (l, r) ← takeField 15 r3
      pure (operatorM0 t v l, r)
    else
      let (c, r) ← takeField 11 r3
      pure (operatorM1 t v c, r)

/-- The stream format at a place of the stream, and the bits after it. -/
def decodeStream (pos : StreamPos) (bs : List Bool) : Except DecodeError (Instr × List Bool) :=
  match pos with
  | .group => do
    let (c, r1) ← takeField 1 bs
    let (p, r) ← takeField 4 r1
    pure (.varintGroup (c = 1#1) p, r)
  | .header => do
    let (v, r1) ← takeField 3 bs
    let (t, r) ← takeField 3 r1
    pure (.pktHeader v t, r)
  | .packet => decodePacket bs

/-- An event record: `kind = ev[103:102]`, `version = ev[101:99]`, `type_id = ev[98:96]`, `aux = ev[95:64]`,
`value = ev[63:0]` (R78), with every bit the record fixes checked. -/
def decodeEvent (w : EventWord) : Except DecodeError Instr :=
  let v : BitVec 3 := w.extractLsb' 99 3
  let t : BitVec 3 := w.extractLsb' 96 3
  let aux : Word32 := w.extractLsb' 64 32
  let value : Word64 := w.extractLsb' 0 64
  let m : Bool := w.getLsbD 79
  let l : BitVec 15 := w.extractLsb' 64 15
  match (w.extractLsb' 102 2).toNat with
  | 0 => if t = 4#3 then .ok (.evLiteral v aux value) else .error .reservedEventBits
  | 1 =>
    if t ≠ 4#3 ∧ w.extractLsb' 80 16 = 0#16 ∧ value = 0#64 ∧ (m = true → l.toNat < 2 ^ 11)
    then .ok (.evOpBegin v t m l) else .error .reservedEventBits
  | 2 => if v = 0#3 ∧ t = 0#3 ∧ value = 0#64 then .ok (.evOpEnd aux) else .error .reservedEventBits
  | _ => .error .reservedEventKind

/-- The decoder: total on every word of the three encodings. -/
def decode : Code → Except DecodeError Instr
  | .command op arg => decodeCommand op arg
  | .event w => decodeEvent w
  | .stream pos bs =>
    match decodeStream pos bs with
    | .ok (i, []) => .ok i
    | .ok (_, _ :: _) => .error .trailingBits
    | .error e => .error e

/-! ### The encoder -/

/-- `cmd_op` of an operation and a count (R64). -/
def commandWord (op : BitVec 3) (n : Count5) : BitVec 8 := op ++ n

/-- One varint group (R70). -/
def groupBits (c : Bool) (p : BitVec 4) : List Bool := c :: fieldBits p

/-- A varint: all groups but the last with flag 1, the last with flag 0 (R71). -/
def varintBits : List (BitVec 4) → List Bool
  | [] => []
  | [p] => groupBits false p
  | p :: q :: ps => groupBits true p ++ varintBits (q :: ps)

/-- An operator header in length mode 0 (R74). -/
def headerM0Bits (t v : BitVec 3) (l : BitVec 15) : List Bool :=
  fieldBits v ++ fieldBits t ++ [false] ++ fieldBits l

/-- An operator header in length mode 1 (R75). -/
def headerM1Bits (t v : BitVec 3) (c : BitVec 11) : List Bool :=
  fieldBits v ++ fieldBits t ++ [true] ++ fieldBits c

/-- The five fields of an event record in order (R78). -/
def eventWord (kind : BitVec 2) (v t : BitVec 3) (aux : Word32) (value : Word64) : EventWord :=
  kind ++ v ++ t ++ aux ++ value

/-- `aux` of an `OP_BEGIN` event: bit 15 the length mode, bits 14 to 0 the length field, the rest 0 (R78). -/
def opBeginAux (m : Bool) (l : BitVec 15) : Word32 := 0#16 ++ BitVec.ofBool m ++ l

/-- The word of a well-formed instruction. `cmd_arg` of a command that ignores it is written as 0 (R64), and a
pseudo-instruction has the word of the command it stands for (R81). -/
def encode : Instr → Code
  | .load arg => .command (commandWord 0b001 0) arg
  | .consume8 n => .command (commandWord 0b010 n) 0
  | .consume16 n => .command (commandWord 0b011 n) 0
  | .varint => .command (commandWord 0b100 0) 0
  | .packet => .command (commandWord 0b101 0) 0
  | .stream => .command (commandWord 0b110 0) 0
  | .reservedOp0 x => .command (commandWord 0b000 x) 0
  | .reservedOp7 x => .command (commandWord 0b111 x) 0
  | .version => .command (commandWord 0b010 3) 0
  | .typeid => .command (commandWord 0b010 3) 0
  | .ltype => .command (commandWord 0b010 1) 0
  | .group => .command (commandWord 0b010 5) 0
  | .totalbits => .command (commandWord 0b011 15) 0
  | .npackets => .command (commandWord 0b011 11) 0
  | .read n => .command (if n.toNat ≤ 8 then commandWord 0b010 n else commandWord 0b011 n) 0
  | .varintGroup c p => .stream .group (groupBits c p)
  | .pktHeader v t => .stream .header (fieldBits v ++ fieldBits t)
  | .pktLiteral v ps => .stream .packet (fieldBits v ++ fieldBits 4#3 ++ varintBits ps)
  | .pktSumM0 v l => .stream .packet (headerM0Bits 0 v l)
  | .pktSumM1 v c => .stream .packet (headerM1Bits 0 v c)
  | .pktProductM0 v l => .stream .packet (headerM0Bits 1 v l)
  | .pktProductM1 v c => .stream .packet (headerM1Bits 1 v c)
  | .pktMinimumM0 v l => .stream .packet (headerM0Bits 2 v l)
  | .pktMinimumM1 v c => .stream .packet (headerM1Bits 2 v c)
  | .pktMaximumM0 v l => .stream .packet (headerM0Bits 3 v l)
  | .pktMaximumM1 v c => .stream .packet (headerM1Bits 3 v c)
  | .pktGreaterM0 v l => .stream .packet (headerM0Bits 5 v l)
  | .pktGreaterM1 v c => .stream .packet (headerM1Bits 5 v c)
  | .pktLessM0 v l => .stream .packet (headerM0Bits 6 v l)
  | .pktLessM1 v c => .stream .packet (headerM1Bits 6 v c)
  | .pktEqualM0 v l => .stream .packet (headerM0Bits 7 v l)
  | .pktEqualM1 v c => .stream .packet (headerM1Bits 7 v c)
  | .evLiteral v a d => .event (eventWord 0 v 4 a d)
  | .evOpBegin v t m l => .event (eventWord 1 v t (opBeginAux m l) 0)
  | .evOpEnd a => .event (eventWord 2 0 0 a 0)

/-- The core instruction whose word an instruction has: itself, but for the pseudo-instructions of R81. -/
def Instr.canonical : Instr → Instr
  | .version => .consume8 3
  | .typeid => .consume8 3
  | .ltype => .consume8 1
  | .group => .consume8 5
  | .totalbits => .consume16 15
  | .npackets => .consume16 11
  | .read n => if n.toNat ≤ 8 then .consume8 n else .consume16 n
  | i => i

/-! ### The host's words (log entry 25) -/

/-- The word of the opcode table's numbering as one of the three encodings. 8 bits: `cmd_op`, with `cmd_arg` 0. 40 bits:
`cmd_op`, then `cmd_arg`. 104 bits: an event record. Any other whole number of bytes: stream bits at the start of a packet,
the first byte first, of which the decoder takes one format from the front. -/
def decodeTableWord (nbits w : Nat) : Option Instr :=
  if nbits = 8 then (decodeCommand (BitVec.ofNat 8 w) 0).toOption
  else if nbits = 40 then (decodeCommand (BitVec.ofNat 8 w) (BitVec.ofNat 32 (w / 256))).toOption
  else if nbits = 104 then (decodeEvent (BitVec.ofNat 104 w)).toOption
  else ((decodePacket (streamBits (bytesOfWord (nbits / 8) w))).toOption).map Prod.fst

end Sys2Proof
end

