-- ==== Sys2Proof/Config.lean ====
section
/-! DEFINITION. What one implementation fixes (spec/00_scope.md R9), the parameters of the host software (spec/93 U8, U18),
and the one free value of the model (spec/93 U9). -/

namespace Sys2Proof

/-- The parameters the source leaves open (R9). `OFFSET_W` and `COUNT_REG_W` are widths of registers that hold natural
numbers with no wrap-around (R16), so they bound those registers instead of typing them. -/
structure Config where
  /-- `OFFSET_W` -/
  offsetW : Nat
  /-- `BUF_MAX_BYTES` -/
  bufMaxBytes : Nat
  /-- `STACK_DEPTH` -/
  stackDepth : Nat
  /-- `COUNT_REG_W` -/
  countRegW : Nat
deriving DecidableEq, Repr

/-- The defaults of R9. -/
def Config.default : Config :=
  { offsetW := 32, bufMaxBytes := 65536, stackDepth := 64, countRegW := 32 }

/-- The constraints every configuration must meet (R9): no cursor, end offset or counter can wrap. -/
abbrev Config.Valid (c : Config) : Prop :=
  8 * c.bufMaxBytes + 32767 < 2 ^ c.offsetW ∧ 8 * c.bufMaxBytes / 5 < 2 ^ c.countRegW ∧ 1 ≤ c.stackDepth

/-- `EVAL_DOMAIN` (spec/92 D24, `OPEN`): the numbers the host's evaluator computes in. -/
inductive EvalDomain where
  /-- the naturals, unbounded -/
  | naturals
  /-- arithmetic modulo `2^64` -/
  | modulo64
deriving DecidableEq, Repr

/-- The host evaluator's parameters (spec/93 U8, U18). -/
structure EvalConfig where
  domain : EvalDomain
  /-- `EVAL_STRICT`: a comparison must have exactly two children. -/
  strict : Bool
deriving DecidableEq, Repr

/-- FREE VALUE (spec/93 U9, log entry 11): what `SR[0]` or `SR[1]` shows while `BUSY` is 1, applied to the index of the
output and to the cursor; the reader takes its low `OFFSET_W` bits. It has no body, so nothing can be proved of its value. -/
opaque Config.statusWhileBusy : Nat → Nat → Nat

end Sys2Proof
end

