-- ==== Sys2Proof/Machine/State.lean ====
section
/-! DEFINITION. The state of the block (spec/10_state.md), the host's side of its ports (spec/30_encoding.md R61 to R63), and
the reasons a step can stop. -/

namespace Sys2Proof.Machine

/-- A byte memory: cells by rising address, none of which holds what an unlisted address reads as (`Memory.wf`). -/
structure Memory where
  cells : List Host.Cell
deriving DecidableEq, Repr

/-- The failure causes (R200). -/
inductive Cause where
  /-- a read past the end of the buffer (R202) -/
  | exhausted
  /-- a varint group whose fold would lose set bits (R203) -/
  | varintOverflow
  /-- a count above the result width (R204) -/
  | contract
  /-- a type id outside the table; no path of the block reaches it (R205, R148) -/
  | unknownType
  /-- more open operators than frames (R206) -/
  | stackOverflow
  /-- a reserved or malformed command word (R207) -/
  | illegalCmd
  /-- any command while `FAULT` is 1 (R208) -/
  | faulted
deriving DecidableEq, Repr

/-- The control states of the packet engine (R26, R152). -/
inductive PgState where
  | idle | version | type | literal | ltype | len15 | len11 | next | close | done
deriving DecidableEq, Repr

/-- The two length modes of an operator packet (R74, R75). -/
inductive LengthMode where
  /-- mode 0: sub-packets bounded by `total_bits` -/
  | totalBits
  /-- mode 1: sub-packets bounded by `packet_count` -/
  | packetCount
deriving DecidableEq, Repr

/-- A frame of `STK`, one per open operator packet (R27). -/
structure Frame where
  mode : LengthMode
  /-- mode 0: `end_offset` (R150); mode 1: the children still to be started -/
  limit : Nat
  /-- children completed so far -/
  nchild : Nat
deriving DecidableEq, Repr

/-- An event record (R78). `OP_BEGIN` holds the 15-bit length field, in mode 1 `packet_count` in its low 11 bits. -/
inductive Event where
  | literal (version : BitVec 3) (groups : Word32) (value : Word64)
  | opBegin (version typeId : BitVec 3) (mode : LengthMode) (length : BitVec 15)
  | opEnd (children : Word32)
deriving DecidableEq, Repr

/-- The response record (R62, R66). -/
structure Response where
  status : BitVec 4
  value : Word64
  count : Word32
  stopCause : BitVec 2
  stopOffset : Word32
deriving DecidableEq, Repr

/-- One transfer from the block to the host: an event or a response (R62, R63). -/
inductive Delivery where
  | event (e : Event)
  | response (r : Response)
deriving DecidableEq, Repr

/-- What the host does to the block (R246): a transfer on the command port, an assertion of `rst` between commands (R231), a
byte written in its own memory (R233). -/
inductive HostAct where
  | command (op : BitVec 8) (arg : Word32)
  | reset
  | place (addr : Word32) (byte : Byte)
deriving DecidableEq, Repr

/-- The state. Registers whose width is a parameter hold natural numbers (R9, R16; log entry 4); `Machine.Inv` bounds them. -/
structure State where
  /-- the parameters of the implementation (R9); no step changes them -/
  cfg : Config
  /-- `BUF` (R21) -/
  buf : Memory
  /-- `LEN` (R22) -/
  len : Nat
  /-- `BIT_OFFSET`, the cursor (R23) -/
  bitOffset : Nat
  /-- `FAULT`, the sticky latch (R24) -/
  fault : Bool
  /-- `ACC` (R25) -/
  acc : Word64
  /-- `GROUPS` (R25) -/
  groups : Nat
  /-- `PG_STATE` (R26) -/
  pgState : PgState
  /-- `VER` (R26) -/
  ver : BitVec 3
  /-- `TID` (R26) -/
  tid : BitVec 3
  /-- the live frames of `STK`, top frame first (R27, U2; log entry 7) -/
  stk : List Frame
  /-- `PKT_COUNT` (R28) -/
  pktCount : Nat
  /-- `ATTEMPT_START` (R28) -/
  attemptStart : Nat
  /-- `SR[2].BUSY` (R30) -/
  busy : Bool
  /-- the running command's events, whose commitment its response decides (R160) -/
  provisional : List Event
  /-- what the host does next, oldest first (R246; log entry 1) -/
  inbox : List HostAct
  /-- the host's memory in the load window (R40(b)) -/
  hostMem : Memory
  /-- the transfers made to the host, oldest first (R57; log entry 1) -/
  delivered : List Delivery
deriving DecidableEq, Repr

/-- `SP`: the number of frames in use (R27). -/
abbrev State.sp (s : State) : Nat := s.stk.length

/-- Why the machine stops. No failure of the block is one of these: a failure is a response (R201). -/
inductive Fault where
  /-- Raised by `step` in a state with `BUSY` 1: a command is in progress there, and the transaction-level step is defined
  between commands only (R7, R61). No step from a state between commands leads to one. Safe. -/
  | notBetweenCommands
deriving DecidableEq, Repr

/-- Why an instruction has no meaning. -/
inductive Refusal where
  /-- Raised by `exec` for an instruction with no meaning yet; no arm of this model raises it. Safe. -/
  | notModelled (mnemonic : String)
  /-- Raised by `READ n` with `n > 16`: "not defined for larger `n`" (R81). Safe. -/
  | readNotDefined (n : Count5)
deriving DecidableEq, Repr

/-- The state after reset (R32, R230), with the default parameters (R9) and a host that has done nothing yet. `BUF` and
`STK` are unspecified there: nothing is listed in the one (log entry 5) and no frame of the other is live (log entry 7). -/
def State.reset : State :=
  { cfg := Config.default
    buf := ⟨[]⟩
    len := 0
    bitOffset := 0
    fault := false
    acc := 0
    groups := 0
    pgState := .idle
    ver := 0
    tid := 0
    stk := []
    pktCount := 0
    attemptStart := 0
    busy := false
    provisional := []
    inbox := []
    hostMem := ⟨[]⟩
    delivered := [] }

end Sys2Proof.Machine
end

