-- ==== Sys2Proof/Machine/Flags.lean ====
section
/-! DEFINITION. The latch, the failure codes, the status outputs and the varint guard: every flag computation of the spec. -/

namespace Sys2Proof.Machine

/-- The status code of a cause (R200). -/
def Cause.code : Cause → BitVec 4
  | .exhausted => 1
  | .varintOverflow => 2
  | .contract => 3
  | .unknownType => 4
  | .stackOverflow => 5
  | .illegalCmd => 6
  | .faulted => 7

/-- The causes that set `FAULT` (R24, R200). -/
def Cause.sticky : Cause → Bool
  | .contract => true
  | .illegalCmd => true
  | .exhausted => false
  | .varintOverflow => false
  | .unknownType => false
  | .stackOverflow => false
  | .faulted => false

/-- `FAULT` after a command that ends with cause `c` (R24): set by a sticky cause, never cleared. -/
def State.latch (c : Cause) (s : State) : State := { s with fault := s.fault || c.sticky }

/-- What `SR[0]` or `SR[1]` shows while `BUSY` is 1: some value of `OFFSET_W` bits (U9; log entry 11). -/
def State.srWhileBusy (s : State) (i : Nat) : Nat := Config.statusWhileBusy i s.bitOffset % 2 ^ s.cfg.offsetW

/-- The status outputs `SR[0]`, `SR[1]`, `SR[2]` (R30), `OFFSET_W` bits each, so natural numbers like the registers they show
(log entry 4). `SR[2]` has `FAULT` in bit 0 and `BUSY` in bit 1. While `BUSY` is 1 the other two are unspecified. -/
def State.sr (s : State) (i : Fin 3) : Nat :=
  match i with
  | 0 => if s.busy then s.srWhileBusy 0 else s.bitOffset
  | 1 => if s.busy then s.srWhileBusy 1 else s.len
  | 2 => s.fault.toNat + 2 * s.busy.toNat

/-- The 32 wires `sr0`, `sr1`, `sr2` that carry the status outputs at the pins (R63; log entry 24). -/
def State.srWire (s : State) (i : Fin 3) : Word32 := BitVec.ofNat 32 (s.sr i)

/-- `clz_64` (R12). -/
def clz64 (v : Word64) : Nat := if v = 0 then 64 else 63 - Nat.log2 v.toNat

/-- The varint guard fails: fewer than 4 leading zero bits in the accumulator (R121). -/
def varintGuardFails (acc : Word64) : Bool := clz64 acc < 4

end Sys2Proof.Machine
end

