-- ==== Sys2Proof/Machine/Ops.lean ====
section
/-! DEFINITION. The shared operations: byte memories, the outcome of a micro-operation, accepting a command, responding,
failing, and committing events. -/

namespace Sys2Proof.Machine

/-! ### Byte memories (R40, R50) -/

/-- What a byte that nothing has written reads as (log entries 5 and 6). -/
def Memory.unlisted : Byte := 0

/-- The byte the cells hold at `a`. -/
def cellsRead : List Host.Cell → Nat → Byte
  | [], _ => Memory.unlisted
  | (b, v) :: rest, a => if b = a then v else cellsRead rest a

/-- The cells after the byte at `a` becomes `v`, in canonical form. -/
def cellsWrite (a : Nat) (v : Byte) : List Host.Cell → List Host.Cell
  | [] => if v = Memory.unlisted then [] else [(a, v)]
  | (b, w) :: rest =>
    if a < b then (if v = Memory.unlisted then (b, w) :: rest else (a, v) :: (b, w) :: rest)
    else if a = b then (if v = Memory.unlisted then rest else (a, v) :: rest)
    else (b, w) :: cellsWrite a v rest

/-- `MemRead(addr, 1)`, and `ExtRead(addr)` on the host's memory (R14). -/
def Memory.read (m : Memory) (a : Nat) : Byte := cellsRead m.cells a

/-- `MemWrite(addr, 1, v)` (R14). -/
def Memory.write (m : Memory) (a : Nat) (v : Byte) : Memory := ⟨cellsWrite a v m.cells⟩

/-- The canonical form: addresses strictly rising, and no cell equal to what an unlisted address reads as. -/
abbrev Memory.wf (m : Memory) : Prop :=
  m.cells.Pairwise (fun c d => c.1 < d.1) ∧ ∀ c ∈ m.cells, c.2 ≠ Memory.unlisted

/-- LOAD's copy: byte `i` of the source becomes byte `i` of the destination for every `i < k` (R91). The order is not fixed
(U4) and cannot be seen; this one ascends (log entry 18). -/
def copyBytes : (k : Nat) → (src dst : Memory) → Memory
  | 0, _, dst => dst
  | k + 1, src, dst => (copyBytes k src dst).write k (src.read k)

/-! ### Micro-operations (R15) -/

/-- How a micro-operation ends: with a value, or by `raise` with a cause. State written before a `raise` stays written. -/
inductive Micro (α : Type) where
  | ok (a : α) (s : State)
  | raise (c : Cause) (s : State)
deriving Repr

/-- One micro-operation after another; a `raise` ends both. -/
def Micro.bind {α β : Type} (m : Micro α) (f : α → State → Micro β) : Micro β :=
  match m with
  | .ok a s => f a s
  | .raise c s => .raise c s

/-- The state a micro-operation leaves. -/
def Micro.state {α : Type} : Micro α → State
  | .ok _ s => s
  | .raise _ s => s

/-! ### Responses (R62, R66) -/

/-- A successful response; fields not named for a command are 0 (R66). -/
def Response.success (value : Word64) (count : Word32) (stopCause : BitVec 2) (stopOffset : Word32) : Response :=
  { status := 0, value, count, stopCause, stopOffset }

/-- The response of a failed command: the cause code, every other field 0 (R66). -/
def Response.failure (c : Cause) : Response :=
  { status := c.code, value := 0, count := 0, stopCause := 0, stopOffset := 0 }

/-- The response transfer, which ends the command: `BUSY` becomes 0 (R30, R62). -/
def State.respond (r : Response) (s : State) : State :=
  { s with delivered := s.delivered ++ [.response r], busy := false }

/-- A command fails with cause `c`: the latch and the response. The block has no other exception entry, and nothing returns
from one (R201, R212, R214). -/
def State.fail (c : Cause) (s : State) : State := (s.latch c).respond (Response.failure c)

/-- A command is accepted: `BUSY` becomes 1 (R30, R61), and `FAULT` is looked at before anything else (R208, R210). -/
def State.accept (s : State) (body : State → State) : State :=
  let s := { s with busy := true }
  if s.fault then s.fail .faulted else body s

/-- A reserved or malformed command word (R67, R207). -/
def State.rejectCommand (s : State) : State := s.accept (State.fail .illegalCmd)

/-! ### Events (R15, R57, R160) -/

/-- `emit e` (R15): one more event of the running command. -/
def State.emit (e : Event) (s : State) : State := { s with provisional := s.provisional ++ [e] }

/-- The shortest prefix of an event sequence that holds `n` more complete top-level packets, `depth` operators being open
(R160). -/
def committedPrefix : (n depth : Nat) → List Event → List Event
  | 0, _, _ => []
  | _ + 1, _, [] => []
  | n + 1, depth, .literal v g x :: es =>
    .literal v g x :: committedPrefix (if depth = 0 then n else n + 1) depth es
  | n + 1, depth, .opBegin v t m l :: es => .opBegin v t m l :: committedPrefix (n + 1) (depth + 1) es
  | n + 1, depth, .opEnd k :: es =>
    .opEnd k :: committedPrefix (if depth ≤ 1 then n else n + 1) (depth - 1) es

/-- The events that `count = n` declares committed are delivered, before the response, and the rest are dropped (R57, R160;
log entry 12). -/
def State.commit (n : Nat) (s : State) : State :=
  { s with
    delivered := s.delivered ++ (committedPrefix n 0 s.provisional).map .event
    provisional := [] }

/-- Nothing the command emitted is committed (R160). -/
def State.discard (s : State) : State := { s with provisional := [] }

/-- A `raise` inside the packet engine first empties the stack and idles the engine (R153). -/
def State.unwind (s : State) : State := { s with stk := [], pgState := .idle }

/-- The bits of an event on `ev_data` (R78). -/
def Event.word : Event → EventWord
  | .literal v g x => eventWord 0 v 4 g x
  | .opBegin v t m l => eventWord 1 v t (opBeginAux (m = .packetCount) l) 0
  | .opEnd k => eventWord 2 0 0 k 0

end Sys2Proof.Machine
end

