-- ==== Sys2Proof/Machine/Operands.lean ====
section
/-! DEFINITION. The one addressing mode of the block: the next bits at the cursor, with post-increment (spec/41_bit_reader.md
R111), and the bit numbering it reads by (spec/00_scope.md R13). -/

namespace Sys2Proof.Machine

/-- Stream bit `k`: bit `7 - (k mod 8)` of byte `BUF[k div 8]` (R13). It names a bit of the stream for `k < 8 * LEN`. -/
def State.sbit (s : State) (k : Nat) : Bool := (s.buf.read (k / 8)).getLsbD (7 - k % 8)

/-- `field(o, c)`: the `c`-bit number whose most significant bit is stream bit `o` (R13), each further bit doubling what
stands before it; `field_eq_sum` in Laws gives R13's sum. -/
def State.field (s : State) (o : Nat) : (c : Nat) → Nat
  | 0 => 0
  | c + 1 => 2 * s.field o c + (s.sbit (o + c)).toNat

/-- The end of the buffer, `8 * LEN` (R19). -/
abbrev State.endOfBuffer (s : State) : Nat := 8 * s.len

/-- The remaining bits, `8 * LEN - BIT_OFFSET` (R19). -/
abbrev State.remaining (s : State) : Nat := 8 * s.len - s.bitOffset

/-- The loop of `consume_W` (R101) with accumulator `a` and `need` bits to go. Each round takes at least one bit, so `need`
rounds are enough (log entry 10). -/
def consumeLoop (W : Nat) : (rounds need : Nat) → BitVec W → State → Micro (BitVec W)
  | 0, _, a, s => .ok a s
  | rounds + 1, need, a, s =>
    if need = 0 then .ok a s
    else
      let idx := s.bitOffset / 8
      if s.len ≤ idx then .raise .exhausted s
      else
        let pos := s.bitOffset % 8
        let avail := 8 - pos
        let take := min avail need
        let b := s.buf.read idx
        let chunk := (b.toNat >>> (avail - take)) % 2 ^ take
        consumeLoop W rounds (need - take) ((a <<< take) ||| BitVec.ofNat W chunk)
          { s with bitOffset := s.bitOffset + take }

/-- `consume_W(count)` (R101): the contract first, with nothing touched (R100, R107), then the loop. -/
def consume (W count : Nat) (s : State) : Micro (BitVec W) :=
  if W < count then .raise .contract s else consumeLoop W count count 0 s

/-- `consume_8` (R101). -/
def consume8 (count : Nat) (s : State) : Micro (BitVec 8) := consume 8 count s

/-- `consume_16` (R101). -/
def consume16 (count : Nat) (s : State) : Micro (BitVec 16) := consume 16 count s

end Sys2Proof.Machine
end

