-- ==== Sys2Proof/Machine/BitReader.lean ====
section
/-! DEFINITION. CONSUME8, CONSUME16 (spec/41_bit_reader.md R102, R103) and the pseudo-instructions that stand for them
(spec/30_encoding.md R81). -/

namespace Sys2Proof.Machine

/-- The command body of R102 and R103 over one of the two micro-operations: the value zero-extended to the response, or the
cause. -/
def consumeCommand (W count : Nat) (s : State) : State :=
  s.accept fun s =>
    match consume W count s with
    | .ok v s => s.respond (Response.success (v.setWidth 64) 0 0 0)
    | .raise c s => s.fail c

/-- CONSUME8 n (R102). -/
def execConsume8 (n : Count5) (s : State) : Host.Outcome State Fault Refusal := .next (consumeCommand 8 n.toNat s)

/-- CONSUME16 n (R103). -/
def execConsume16 (n : Count5) (s : State) : Host.Outcome State Fault Refusal := .next (consumeCommand 16 n.toNat s)

/-- VERSION = CONSUME8 3 (R81). -/
def execVersion (s : State) : Host.Outcome State Fault Refusal := .next (consumeCommand 8 3 s)

/-- TYPEID = CONSUME8 3 (R81). -/
def execTypeid (s : State) : Host.Outcome State Fault Refusal := .next (consumeCommand 8 3 s)

/-- LTYPE = CONSUME8 1 (R81). -/
def execLtype (s : State) : Host.Outcome State Fault Refusal := .next (consumeCommand 8 1 s)

/-- GROUP = CONSUME8 5 (R81). -/
def execGroup (s : State) : Host.Outcome State Fault Refusal := .next (consumeCommand 8 5 s)

/-- TOTALBITS = CONSUME16 15 (R81). -/
def execTotalbits (s : State) : Host.Outcome State Fault Refusal := .next (consumeCommand 16 15 s)

/-- NPACKETS = CONSUME16 11 (R81). -/
def execNpackets (s : State) : Host.Outcome State Fault Refusal := .next (consumeCommand 16 11 s)

/-- READ n: CONSUME8 n for `n <= 8`, CONSUME16 n for `9 <= n <= 16`, "not defined for larger `n`" (R81; log entry 13). -/
def execRead (n : Count5) (s : State) : Host.Outcome State Fault Refusal :=
  if n.toNat ≤ 8 then .next (consumeCommand 8 n.toNat s)
  else if n.toNat ≤ 16 then .next (consumeCommand 16 n.toNat s)
  else .refused (.readNotDefined n)

end Sys2Proof.Machine
end

