-- ==== Sys2Proof/Machine/Events.lean ====
section
/-! DEFINITION. The event records as micro-operations: `emit <Event>` appends one event to the event output
(spec/00_scope.md R15, spec/30_encoding.md R78; log entry 16). -/

namespace Sys2Proof.Machine

/-- EV.LITERAL (R78). -/
def execEvLiteral (v : BitVec 3) (a : Word32) (d : Word64) (s : State) : Host.Outcome State Fault Refusal :=
  .next (s.emit (.literal v a d))

/-- EV.OP_BEGIN (R78). -/
def execEvOpBegin (v t : BitVec 3) (m : Bool) (l : BitVec 15) (s : State) : Host.Outcome State Fault Refusal :=
  .next (s.emit (.opBegin v t (if m then .packetCount else .totalBits) l))

/-- EV.OP_END (R78). -/
def execEvOpEnd (a : Word32) (s : State) : Host.Outcome State Fault Refusal :=
  .next (s.emit (.opEnd a))

end Sys2Proof.Machine
end

