-- ==== Sys2Proof/Machine/Load.lean ====
section
/-! DEFINITION. LOAD (spec/40_loader.md R91) and the reserved command words (spec/30_encoding.md R67). -/

namespace Sys2Proof.Machine

/-- LOAD (R91): the first `cmd_arg` bytes of the host's memory become the buffer, and the cursor goes to 0. -/
def execLoad (arg : Word32) (s : State) : Host.Outcome State Fault Refusal :=
  .next <| s.accept fun s =>
    if s.cfg.bufMaxBytes < arg.toNat then s.fail .illegalCmd
    else
      State.respond (Response.success 0 0 0 0)
        { s with buf := copyBytes arg.toNat s.hostMem s.buf, len := arg.toNat, bitOffset := 0 }

/-- A reserved word with `op = 0b000` (R67(a), R207). -/
def execReservedOp0 (_ : Count5) (s : State) : Host.Outcome State Fault Refusal := .next s.rejectCommand

/-- A reserved word with `op = 0b111` (R67(a), R207). -/
def execReservedOp7 (_ : Count5) (s : State) : Host.Outcome State Fault Refusal := .next s.rejectCommand

end Sys2Proof.Machine
end

