-- ==== Sys2Proof/Machine/Varint.lean ====
section
/-! DEFINITION. The varint decoder and VARINT (spec/42_varint_decoder.md). -/

namespace Sys2Proof.Machine

/-- The guard and the fold of one group already read (R121, R122): the group's payload joins `ACC` unless a set bit would be
lost. -/
def foldGroup (p : BitVec 4) (s : State) : Micro Unit :=
  if varintGuardFails s.acc then .raise .varintOverflow s
  else .ok () { s with acc := (s.acc <<< 4) ||| p.setWidth 64, groups := s.groups + 1 }

/-- The loop of `varint` (R121). Each round takes five bits or raises, so `remaining + 1` rounds are enough and the first
line is never reached (log entry 10). -/
def varintLoop : (rounds : Nat) → State → Micro (Word64 × Nat)
  | 0, s => .raise .exhausted s
  | rounds + 1, s =>
    (consume8 5 s).bind fun g s =>
      (foldGroup (g.setWidth 4) s).bind fun _ s =>
        if g.getLsbD 4 then varintLoop rounds s else .ok (s.acc, s.groups) s

/-- `varint` (R121). -/
def varint (s : State) : Micro (Word64 × Nat) := varintLoop (s.remaining + 1) { s with acc := 0, groups := 0 }

/-- VARINT (R120). -/
def execVarint (s : State) : Host.Outcome State Fault Refusal :=
  .next <| s.accept fun s =>
    match varint s with
    | .ok (v, k) s => s.respond (Response.success v (BitVec.ofNat 32 k) 0 0)
    | .raise c s => s.fail c

end Sys2Proof.Machine
end

