-- ==== Sys2Proof/Machine/Packet.lean ====
section
/-! DEFINITION. The packet grammar engine as a flat state machine, PACKET and STREAM (spec/43_packet_engine.md). -/

namespace Sys2Proof.Machine

/-- The push of `PG_LEN15` and `PG_LEN11` (R152, R154): with no frame free, `StackOverflow`; else `OP_BEGIN` is emitted and a
frame opened, its limit `BIT_OFFSET + total_bits` (R150) or `packet_count`. -/
def pushOperator (mode : LengthMode) (length : BitVec 15) (s : State) : Micro Unit :=
  if s.sp = s.cfg.stackDepth then .raise .stackOverflow s
  else
    let limit := match mode with
      | .totalBits => s.bitOffset + length.toNat
      | .packetCount => length.toNat
    .ok () { s.emit (.opBegin s.ver s.tid mode length) with
      stk := { mode, limit, nchild := 0 } :: s.stk
      pgState := .next }

/-- The end of a literal (R152, `PG_LITERAL`): its event, then `PG_DONE`. -/
def finishLiteral (v : Word64) (k : Nat) (s : State) : State :=
  { s.emit (.literal s.ver (BitVec.ofNat 32 k) v) with pgState := .done }

/-- `PG_NEXT` (R152): another child, or the end of the packet whose frame is on top. With no frame there is nothing to go on
with; no run reaches that (log entry 9). -/
def nextChild (s : State) : State :=
  match s.stk with
  | [] => { s with pgState := .idle }
  | f :: rest =>
    match f.mode with
    | .totalBits => if s.bitOffset < f.limit then { s with pgState := .version } else { s with pgState := .close }
    | .packetCount =>
      if 0 < f.limit then { s with stk := { f with limit := f.limit - 1 } :: rest, pgState := .version }
      else { s with pgState := .close }

/-- `PG_CLOSE` (R152): `OP_END` with the child count, and the frame is popped. With no frame: log entry 9. -/
def closeOperator (s : State) : State :=
  match s.stk with
  | [] => { s with pgState := .idle }
  | f :: rest => { s.emit (.opEnd (BitVec.ofNat 32 f.nchild)) with stk := rest, pgState := .done }

/-- `PG_DONE` (R152): the attempt is complete, or the frame on top has one more child. -/
def packetDone (s : State) : State :=
  match s.stk with
  | [] => { s with pgState := .idle }
  | f :: rest => { s with stk := { f with nchild := f.nchild + 1 } :: rest, pgState := .next }

/-- The action of the current control state and the move to the next (R152). -/
def pgAction (s : State) : Micro Unit :=
  match s.pgState with
  | .idle => .ok () s
  | .version => (consume8 3 s).bind fun v s => .ok () { s with ver := v.setWidth 3, pgState := .type }
  | .type => (consume8 3 s).bind fun t s =>
      let tid : BitVec 3 := t.setWidth 3
      .ok () { s with tid, pgState := if tid = 4 then .literal else .ltype }
  | .literal => (varint s).bind fun r s => .ok () (finishLiteral r.1 r.2 s)
  | .ltype => (consume8 1 s).bind fun m s => .ok () { s with pgState := if m = 0 then .len15 else .len11 }
  | .len15 => (consume16 15 s).bind fun t s => pushOperator .totalBits (t.setWidth 15) s
  | .len11 => (consume16 11 s).bind fun c s => pushOperator .packetCount (c.setWidth 15) s
  | .next => .ok () (nextChild s)
  | .close => .ok () (closeOperator s)
  | .done => .ok () (packetDone s)

/-- `PG_STATE` is visited until it is `PG_IDLE` (R153). -/
def runEngine : (visits : Nat) → State → Micro Unit
  | 0, s => .ok () s
  | visits + 1, s =>
    if s.pgState = .idle then .ok () s
    else (pgAction s).bind fun _ s => runEngine visits s

/-- How much the engine has left to do: every visit of a control state makes it smaller (log entry 10). -/
def State.engineWork (s : State) : Nat :=
  s.remaining + 3 * s.sp + (match s.pgState with | .idle => 0 | .done => 3 | .next => 2 | _ => 1)

/-- The micro-operation `packet` (R153): one attempt from `PG_VERSION`; a `raise` anywhere inside it unwinds. -/
def packet (s : State) : Micro Unit :=
  let s := { s with pgState := .version }
  match runEngine (s.engineWork + 1) s with
  | .ok u s => .ok u s
  | .raise c s => .raise c s.unwind

/-- PACKET (R156). -/
def execPacket (s : State) : Host.Outcome State Fault Refusal :=
  .next <| s.accept fun s =>
    match packet { s with pktCount := 0, attemptStart := s.bitOffset, provisional := [] } with
    | .ok _ s => ({ s with pktCount := 1 }.commit 1).respond (Response.success 0 1 0 0)
    | .raise c s => s.discard.fail c

/-- `stop_cause` (R66, R161): 1 for CLEAN, the last attempt began at the end of the buffer; 2 for TRAILING. -/
def State.stopCause (s : State) : BitVec 2 := if s.attemptStart = s.endOfBuffer then 1 else 2

/-- STREAM's answer when an attempt has run out of bits (R158, R159): the packets completed before it stand. -/
def endStream (s : State) : State :=
  (s.commit s.pktCount).respond
    (Response.success 0 (BitVec.ofNat 32 s.pktCount) s.stopCause (BitVec.ofNat 32 s.attemptStart))

/-- The loop of STREAM (R158). Each completed attempt takes bits, so `remaining + 1` attempts are enough and the first line
is never reached (log entry 10). -/
def streamLoop : (attempts : Nat) → State → State
  | 0, s => endStream s
  | attempts + 1, s =>
    match packet { s with attemptStart := s.bitOffset } with
    | .ok _ s => streamLoop attempts { s with pktCount := s.pktCount + 1 }
    | .raise .exhausted s => endStream s
    | .raise c s => s.discard.fail c

/-- STREAM (R158). -/
def execStream (s : State) : Host.Outcome State Fault Refusal :=
  .next <| s.accept fun s => streamLoop (s.remaining + 1) { s with pktCount := 0, provisional := [] }

end Sys2Proof.Machine
end

