-- ==== Sys2Proof/Machine/StreamFormats.lean ====
section
/-! DEFINITION. What the block does on meeting each stream format at the cursor (spec/30_encoding.md R70 to R76): the actions
of spec/42_varint_decoder.md R121 and spec/43_packet_engine.md R152 that read the format's bits, the operands being the
values of those bits (log entry 15). Obligations state that the engine, reading the bits, does the same. -/

namespace Sys2Proof.Machine

/-- The end of a stream format's actions. A `raise` unwinds the engine (R153) and fails the running command with nothing
committed (R120, R156, R158). -/
def endFormat : Micro Unit → Host.Outcome State Fault Refusal
  | .ok _ s => .next s
  | .raise c s => .next (s.unwind.discard.fail c)

/-- Groups already read, first group first: each moves the cursor by its five bits, then the guard, then the fold (R121,
R122). -/
def foldGroups : List (BitVec 4) → State → Micro Unit
  | [], s => .ok () s
  | p :: ps, s => (foldGroup p { s with bitOffset := s.bitOffset + 5 }).bind fun _ s => foldGroups ps s

/-- The six header bits (R72, R152 `PG_VERSION` and `PG_TYPE`). -/
def readHeader (v t : BitVec 3) (s : State) : State := { s with bitOffset := s.bitOffset + 6, ver := v, tid := t }

/-- An operator header of type id `t` in length mode 0: 22 bits, then the push (R74, R152). -/
def operatorFormatM0 (t v : BitVec 3) (l : BitVec 15) (s : State) : Micro Unit :=
  pushOperator .totalBits l { s with bitOffset := s.bitOffset + 22, ver := v, tid := t }

/-- An operator header of type id `t` in length mode 1: 18 bits, then the push (R75, R152). -/
def operatorFormatM1 (t v : BitVec 3) (c : BitVec 11) (s : State) : Micro Unit :=
  pushOperator .packetCount (c.setWidth 15) { s with bitOffset := s.bitOffset + 18, ver := v, tid := t }

/-- VARINT.GROUP (R70, R121): one round of the varint loop. The flag decides only whether another group follows. -/
def execVarintGroup (_c : Bool) (p : BitVec 4) (s : State) : Host.Outcome State Fault Refusal :=
  endFormat (foldGroup p { s with bitOffset := s.bitOffset + 5 })

/-- PKT.HEADER (R72, R152): `PG_VERSION` and `PG_TYPE`. -/
def execPktHeader (v t : BitVec 3) (s : State) : Host.Outcome State Fault Refusal :=
  .next { readHeader v t s with pgState := if t = 4 then .literal else .ltype }

/-- PKT.LITERAL (R73, R152): the header, then `PG_LITERAL` on its groups. -/
def execPktLiteral (v : BitVec 3) (ps : List (BitVec 4)) (s : State) : Host.Outcome State Fault Refusal :=
  endFormat <| (foldGroups ps { readHeader v 4 s with acc := 0, groups := 0 }).bind fun _ s =>
    .ok () (finishLiteral s.acc s.groups s)

/-- PKT.SUM.M0 (R74, R76). -/
def execPktSumM0 (v : BitVec 3) (l : BitVec 15) (s : State) : Host.Outcome State Fault Refusal :=
  endFormat (operatorFormatM0 0 v l s)

/-- PKT.SUM.M1 (R75, R76). -/
def execPktSumM1 (v : BitVec 3) (c : BitVec 11) (s : State) : Host.Outcome State Fault Refusal :=
  endFormat (operatorFormatM1 0 v c s)

/-- PKT.PRODUCT.M0 (R74, R76). -/
def execPktProductM0 (v : BitVec 3) (l : BitVec 15) (s : State) : Host.Outcome State Fault Refusal :=
  endFormat (operatorFormatM0 1 v l s)

/-- PKT.PRODUCT.M1 (R75, R76). -/
def execPktProductM1 (v : BitVec 3) (c : BitVec 11) (s : State) : Host.Outcome State Fault Refusal :=
  endFormat (operatorFormatM1 1 v c s)

/-- PKT.MINIMUM.M0 (R74, R76). -/
def execPktMinimumM0 (v : BitVec 3) (l : BitVec 15) (s : State) : Host.Outcome State Fault Refusal :=
  endFormat (operatorFormatM0 2 v l s)

/-- PKT.MINIMUM.M1 (R75, R76). -/
def execPktMinimumM1 (v : BitVec 3) (c : BitVec 11) (s : State) : Host.Outcome State Fault Refusal :=
  endFormat (operatorFormatM1 2 v c s)

/-- PKT.MAXIMUM.M0 (R74, R76). -/
def execPktMaximumM0 (v : BitVec 3) (l : BitVec 15) (s : State) : Host.Outcome State Fault Refusal :=
  endFormat (operatorFormatM0 3 v l s)

/-- PKT.MAXIMUM.M1 (R75, R76). -/
def execPktMaximumM1 (v : BitVec 3) (c : BitVec 11) (s : State) : Host.Outcome State Fault Refusal :=
  endFormat (operatorFormatM1 3 v c s)

/-- PKT.GREATER.M0 (R74, R76). -/
def execPktGreaterM0 (v : BitVec 3) (l : BitVec 15) (s : State) : Host.Outcome State Fault Refusal :=
  endFormat (operatorFormatM0 5 v l s)

/-- PKT.GREATER.M1 (R75, R76). -/
def execPktGreaterM1 (v : BitVec 3) (c : BitVec 11) (s : State) : Host.Outcome State Fault Refusal :=
  endFormat (operatorFormatM1 5 v c s)

/-- PKT.LESS.M0 (R74, R76). -/
def execPktLessM0 (v : BitVec 3) (l : BitVec 15) (s : State) : Host.Outcome State Fault Refusal :=
  endFormat (operatorFormatM0 6 v l s)

/-- PKT.LESS.M1 (R75, R76). -/
def execPktLessM1 (v : BitVec 3) (c : BitVec 11) (s : State) : Host.Outcome State Fault Refusal :=
  endFormat (operatorFormatM1 6 v c s)

/-- PKT.EQUAL.M0 (R74, R76). -/
def execPktEqualM0 (v : BitVec 3) (l : BitVec 15) (s : State) : Host.Outcome State Fault Refusal :=
  endFormat (operatorFormatM0 7 v l s)

/-- PKT.EQUAL.M1 (R75, R76). -/
def execPktEqualM1 (v : BitVec 3) (c : BitVec 11) (s : State) : Host.Outcome State Fault Refusal :=
  endFormat (operatorFormatM1 7 v c s)

end Sys2Proof.Machine
end

