-- ==== Sys2Proof/Machine/Dispatch.lean ====
section
/-! DEFINITION. exec: one arm per constructor of Instr. -/

namespace Sys2Proof.Machine

def exec (i : Instr) (s : State) : Host.Outcome State Fault Refusal :=
  match i with
  | .load arg => Sys2Proof.Machine.execLoad arg s
  | .consume8 n => Sys2Proof.Machine.execConsume8 n s
  | .consume16 n => Sys2Proof.Machine.execConsume16 n s
  | .varint => Sys2Proof.Machine.execVarint s
  | .packet => Sys2Proof.Machine.execPacket s
  | .stream => Sys2Proof.Machine.execStream s
  | .reservedOp0 x => Sys2Proof.Machine.execReservedOp0 x s
  | .reservedOp7 x => Sys2Proof.Machine.execReservedOp7 x s
  | .version => Sys2Proof.Machine.execVersion s
  | .typeid => Sys2Proof.Machine.execTypeid s
  | .ltype => Sys2Proof.Machine.execLtype s
  | .group => Sys2Proof.Machine.execGroup s
  | .totalbits => Sys2Proof.Machine.execTotalbits s
  | .npackets => Sys2Proof.Machine.execNpackets s
  | .read n => Sys2Proof.Machine.execRead n s
  | .varintGroup c p => Sys2Proof.Machine.execVarintGroup c p s
  | .pktHeader v t => Sys2Proof.Machine.execPktHeader v t s
  | .pktLiteral v ps => Sys2Proof.Machine.execPktLiteral v ps s
  | .pktSumM0 v l => Sys2Proof.Machine.execPktSumM0 v l s
  | .pktSumM1 v c => Sys2Proof.Machine.execPktSumM1 v c s
  | .pktProductM0 v l => Sys2Proof.Machine.execPktProductM0 v l s
  | .pktProductM1 v c => Sys2Proof.Machine.execPktProductM1 v c s
  | .pktMinimumM0 v l => Sys2Proof.Machine.execPktMinimumM0 v l s
  | .pktMinimumM1 v c => Sys2Proof.Machine.execPktMinimumM1 v c s
  | .pktMaximumM0 v l => Sys2Proof.Machine.execPktMaximumM0 v l s
  | .pktMaximumM1 v c => Sys2Proof.Machine.execPktMaximumM1 v c s
  | .pktGreaterM0 v l => Sys2Proof.Machine.execPktGreaterM0 v l s
  | .pktGreaterM1 v c => Sys2Proof.Machine.execPktGreaterM1 v c s
  | .pktLessM0 v l => Sys2Proof.Machine.execPktLessM0 v l s
  | .pktLessM1 v c => Sys2Proof.Machine.execPktLessM1 v c s
  | .pktEqualM0 v l => Sys2Proof.Machine.execPktEqualM0 v l s
  | .pktEqualM1 v c => Sys2Proof.Machine.execPktEqualM1 v c s
  | .evLiteral v a d => Sys2Proof.Machine.execEvLiteral v a d s
  | .evOpBegin v t m l => Sys2Proof.Machine.execEvOpBegin v t m l s
  | .evOpEnd a => Sys2Proof.Machine.execEvOpEnd a s

end Sys2Proof.Machine
end

