-- ==== Sys2Proof/Machine/HostPort.lean ====
section
/-! DEFINITION. What one action of the host does to the machine (spec/70_reset_and_hazards.md R246): a command, reset, a
byte placed in its memory. -/

namespace Sys2Proof.Machine

/-- Command decode (R65, R67): the instruction of the word runs, and a word that is no instruction is `IllegalCmd`. -/
def runCommand (op : BitVec 8) (arg : Word32) (s : State) : Host.Outcome State Fault Refusal :=
  match decode (.command op arg) with
  | .ok i => exec i s
  | .error _ => .next s.rejectCommand

/-- Reset as a step between commands (R230, R231): every register of the block at its reset value. The parameters, what the
host is still to do, its memory and what it has been handed are no state of the block (log entry 17). -/
def State.resetBlock (s : State) : State :=
  { State.reset with cfg := s.cfg, inbox := s.inbox, hostMem := s.hostMem, delivered := s.delivered }

/-- The host writes a byte of its own memory (R233, R246 row 1). -/
def State.placeByte (addr : Word32) (b : Byte) (s : State) : State :=
  { s with hostMem := s.hostMem.write addr.toNat b }

/-- One action of the host, already taken from the queue. -/
def hostAct (a : HostAct) (s : State) : Host.Outcome State Fault Refusal :=
  match a with
  | .command op arg => runCommand op arg s
  | .reset => .next s.resetBlock
  | .place addr b => .next (s.placeByte addr b)

/-- Bytes laid out from address `a`. -/
def placeBytes : (a : Nat) → List Byte → Memory → Memory
  | _, [], m => m
  | a, b :: bs, m => placeBytes (a + 1) bs (m.write a b)

end Sys2Proof.Machine
end

