-- ==== Sys2Proof/Machine/Step.lean ====
section
/-! DEFINITION. One transaction-level step (spec/00_scope.md R7), and the host's word placed where the next step fetches. -/

namespace Sys2Proof.Machine

/-- The next action of the host runs to completion (R7, R61). With none, the block waits. -/
def step (s : State) : Host.Outcome State Fault Refusal :=
  if s.busy then .fault .notBetweenCommands
  else
    match s.inbox with
    | [] => .next s
    | a :: rest => hostAct a { s with inbox := rest }

/-- A word of the opcode table as the very next thing the block runs (log entry 25). A command word comes next on the command
port. Stream bits become the buffer, with the cursor at bit 0 and PACKET on the command port, so that the engine meets them
first. An event record is an output and is fetched from nowhere. -/
def State.withFetchWord (s : State) (nbits w : Nat) : State :=
  if nbits = 8 then { s with busy := false, inbox := .command (BitVec.ofNat 8 w) 0 :: s.inbox }
  else if nbits = 40 then
    { s with busy := false, inbox := .command (BitVec.ofNat 8 w) (BitVec.ofNat 32 (w / 256)) :: s.inbox }
  else if nbits = 104 then s
  else
    { s with
      busy := false
      fault := false
      buf := placeBytes 0 (bytesOfWord (nbits / 8) w) s.buf
      len := nbits / 8
      bitOffset := 0
      inbox := .command 0xA0 0 :: s.inbox }

end Sys2Proof.Machine
end

