-- ==== Sys2Proof/Machine/Reference.lean ====
section
/-! DEFINITION. The reference algorithm of spec/43_packet_engine.md section 1, the packet tree it builds (R141), the events of
a tree (spec/30_encoding.md R79) and the bits of a tree (R72 to R75). No instruction uses these: obligations hold the engine
against them. -/

namespace Sys2Proof.Machine

/-- A decoded packet (R141): `Literal(version, value, groups)` or `Operator(version, type_id, mode, length, children)`. -/
inductive Packet where
  | literal (version : BitVec 3) (value : Word64) (groups : Word32)
  | operator (version typeId : BitVec 3) (mode : LengthMode) (length : BitVec 15) (children : List Packet)
deriving Repr

/-- The operator kinds (R76). -/
inductive Kind where
  | sum | product | minimum | maximum | greater | less | equal
deriving DecidableEq, Repr

/-- The type-id table (R76, R148): 4 is the literal's and has no operator kind. -/
def operatorKind (t : BitVec 3) : Option Kind :=
  match t.toNat with
  | 0 => some .sum
  | 1 => some .product
  | 2 => some .minimum
  | 3 => some .maximum
  | 5 => some .greater
  | 6 => some .less
  | 7 => some .equal
  | _ => none

mutual
/-- `events(p)` (R79): a pre-order walk with an explicit end. -/
def Packet.events : Packet → List Event
  | .literal v x g => [.literal v g x]
  | .operator v t m l kids => .opBegin v t m l :: (packetsEvents kids ++ [.opEnd (BitVec.ofNat 32 kids.length)])
/-- The events of a sequence of packets, one after the other (R79). -/
def packetsEvents : List Packet → List Event
  | [] => []
  | p :: ps => p.events ++ packetsEvents ps
end

mutual
/-- How many operators of a packet are open at once (R154). -/
def Packet.nesting : Packet → Nat
  | .literal _ _ _ => 0
  | .operator _ _ _ _ kids => 1 + packetsNesting kids
/-- The deepest nesting of a sequence of packets. -/
def packetsNesting : List Packet → Nat
  | [] => 0
  | p :: ps => max p.nesting (packetsNesting ps)
end

/-- The payloads of a varint of `k` groups with value `x`, first group first (R71). -/
def payloadsOf (x : Word64) (k : Nat) : List (BitVec 4) :=
  (List.range k).map fun i => BitVec.ofNat 4 (x.toNat >>> (4 * (k - 1 - i)))

mutual
/-- The stream bits of a packet (R73 to R75). -/
def Packet.bits : Packet → List Bool
  | .literal v x g => fieldBits v ++ fieldBits 4#3 ++ varintBits (payloadsOf x g.toNat)
  | .operator v t .totalBits l kids => headerM0Bits t v l ++ packetsBits kids
  | .operator v t .packetCount l kids => headerM1Bits t v (l.setWidth 11) ++ packetsBits kids
/-- The stream bits of a sequence of packets, one after the other (R49). -/
def packetsBits : List Packet → List Bool
  | [] => []
  | p :: ps => p.bits ++ packetsBits ps
end

mutual
/-- A packet whose fields say what follows them (R71, R74, R75): a literal's value fits its groups, an operator's length field
is the total length or the number of its children. -/
def Packet.wellFormed : Packet → Bool
  | .literal _ x g => 1 ≤ g.toNat ∧ x.toNat < 16 ^ g.toNat
  | .operator _ t .totalBits l kids => t ≠ 4#3 ∧ l.toNat = (packetsBits kids).length ∧ packetsWellFormed kids
  | .operator _ t .packetCount l kids =>
    t ≠ 4#3 ∧ l.toNat < 2 ^ 11 ∧ l.toNat = kids.length ∧ packetsWellFormed kids
/-- Every packet of a sequence is well formed. -/
def packetsWellFormed : List Packet → Bool
  | [] => true
  | p :: ps => p.wellFormed && packetsWellFormed ps
end

mutual
/-- `packet_rec` (R142), with `opened` operators open around it. `limit = none` is the source's algorithm; `limit = some d`
raises `StackOverflow` where operator number `d + 1` would open (R154, R155). A packet takes at least six bits before it
calls for its children, so `remaining + 1` rounds are enough and the first line is never reached (log entry 10). -/
def packetRec (limit : Option Nat) : (rounds opened : Nat) → State → Micro Packet
  | 0, _, s => .raise .exhausted s
  | rounds + 1, opened, s =>
    (consume8 3 s).bind fun v s =>
      (consume8 3 s).bind fun t s =>
        let ver : BitVec 3 := v.setWidth 3
        let tid : BitVec 3 := t.setWidth 3
        if tid = 4 then (varint s).bind fun r s => .ok (.literal ver r.1 (BitVec.ofNat 32 r.2)) s
        else
          (consume8 1 s).bind fun m s =>
            if m = 0 then
              (consume16 15 s).bind fun t s =>
                if limit = some opened then .raise .stackOverflow s
                else
                  (childrenUntil limit rounds (opened + 1) (s.bitOffset + t.toNat) s).bind fun kids s =>
                    if operatorKind tid = none then .raise .unknownType s
                    else .ok (.operator ver tid .totalBits (t.setWidth 15) kids) s
            else
              (consume16 11 s).bind fun c s =>
                if limit = some opened then .raise .stackOverflow s
                else
                  (childrenCount limit rounds (opened + 1) c.toNat s).bind fun kids s =>
                    if operatorKind tid = none then .raise .unknownType s
                    else .ok (.operator ver tid .packetCount (c.setWidth 15) kids) s
/-- Length mode 0 (R146, R150): packets while the cursor is short of `stop`. -/
def childrenUntil (limit : Option Nat) : (rounds opened stop : Nat) → State → Micro (List Packet)
  | 0, _, _, s => .raise .exhausted s
  | rounds + 1, opened, stop, s =>
    if s.bitOffset < stop then
      (packetRec limit rounds opened s).bind fun p s =>
        (childrenUntil limit rounds opened stop s).bind fun ps s => .ok (p :: ps) s
    else .ok [] s
/-- Length mode 1 (R147): exactly `count` packets. -/
def childrenCount (limit : Option Nat) : (rounds opened count : Nat) → State → Micro (List Packet)
  | 0, _, _, s => .raise .exhausted s
  | rounds + 1, opened, count, s =>
    if count = 0 then .ok [] s
    else
      (packetRec limit rounds opened s).bind fun p s =>
        (childrenCount limit rounds opened (count - 1) s).bind fun ps s => .ok (p :: ps) s
end

/-- `packet_rec` from a state, with enough rounds. -/
def packetReference (limit : Option Nat) (s : State) : Micro Packet := packetRec limit (s.remaining + 1) 0 s

end Sys2Proof.Machine
end

