-- ==== Sys2Proof/Machine/HostSoftware.lean ====
section
/-! DEFINITION. The host software of spec/40_loader.md section 2 and spec/44_host_evaluator.md: HexDecoder, the tree rebuilt
from committed events, the evaluator, the version sum and the two queries. None of it is the block (spec/00_scope.md R5). -/

namespace Sys2Proof.Machine

/-! ### HexDecoder (R94 to R97) -/

/-- The one error class of HexDecoder (R96, U10). -/
inductive HexError where
  | malformedHex
deriving DecidableEq, Repr

/-- A hexadecimal digit, either case (R97). -/
def hexDigit (c : Char) : Option Nat :=
  if '0' ≤ c ∧ c ≤ '9' then some (c.toNat - '0'.toNat)
  else if 'a' ≤ c ∧ c ≤ 'f' then some (c.toNat - 'a'.toNat + 10)
  else if 'A' ≤ c ∧ c ≤ 'F' then some (c.toNat - 'A'.toNat + 10)
  else none

/-- HexDecoder (R94, R95): each pair of digits one byte, the first digit the high nibble, in order. -/
def hexDecode : List Char → Except HexError (List Byte)
  | [] => .ok []
  | [_] => .error .malformedHex
  | c :: d :: rest =>
    match hexDigit c, hexDigit d, hexDecode rest with
    | some h, some l, .ok bytes => .ok (BitVec.ofNat 8 (16 * h + l) :: bytes)
    | _, _, _ => .error .malformedHex

/-- The host's actions for one decode of a transmission (R233): place the bytes, `LOAD #len`, `STREAM`. -/
def decodeActs (bytes : List Byte) : List HostAct :=
  bytes.zipIdx.map (fun b => .place (BitVec.ofNat 32 b.2) b.1) ++
    [.command 0x20 (BitVec.ofNat 32 bytes.length), .command 0xC0 0]

/-! ### From committed events to packets (R180) -/

/-- What each command among deliveries gave: its response, with the events before it, which are that command's (R57).
`pending` are the events seen since the last response. -/
def commandOutputs : (pending : List Event) → List Delivery → List (List Event × Response)
  | _, [] => []
  | pending, .event e :: ds => commandOutputs (pending ++ [e]) ds
  | pending, .response r :: ds => (pending, r) :: commandOutputs [] ds

/-- An operator whose `OP_BEGIN` has been seen. -/
structure OpenOperator where
  version : BitVec 3
  typeId : BitVec 3
  mode : LengthMode
  length : BitVec 15

/-- The packets of an event sequence, given the open operators, each with the siblings before it, and the siblings so far,
last first (R180). `none`: the sequence is no sequence of `events` (R79). -/
def rebuildGo : List Event → List (OpenOperator × List Packet) → List Packet → Option (List Packet)
  | [], [], done => some done.reverse
  | [], _ :: _, _ => none
  | .literal v g x :: es, stack, done => rebuildGo es stack (.literal v x g :: done)
  | .opBegin v t m l :: es, stack, done => rebuildGo es ((⟨v, t, m, l⟩, done) :: stack) []
  | .opEnd _ :: _, [], _ => none
  | .opEnd k :: es, (o, outer) :: stack, done =>
    if k = BitVec.ofNat 32 done.length
    then rebuildGo es stack (.operator o.version o.typeId o.mode o.length done.reverse :: outer) else none

/-- `events` inverted (R180). -/
def rebuild (es : List Event) : Option (List Packet) := rebuildGo es [] []

/-! ### The evaluator (R181 to R187) -/

/-- Where the evaluation of a tree is not defined (R186, U7, U8), or the query has no packet to run on (R190). -/
inductive EvalError where
  /-- `Sum`, `Product`, `Minimum` or `Maximum` with no children (U7) -/
  | noChildren
  /-- a comparison with fewer than two children, or, if strict, other than two (U8) -/
  | notTwoChildren
  /-- an operator node with type id 4, which no event sequence of the block holds (R76, R78) -/
  | noKind
  /-- no top-level packet (R190) -/
  | noPacket
  /-- the events are no sequence of packets (R180) -/
  | badEvents
deriving DecidableEq, Repr

/-- A sum or product in the evaluator's number domain (D24). -/
def reduceIn : EvalDomain → Nat → Nat
  | .naturals, n => n
  | .modulo64, n => n % 2 ^ 64

/-- All of them, or the first error. -/
def allValues : List (Except EvalError Nat) → Except EvalError (List Nat)
  | [] => .ok []
  | .error e :: _ => .error e
  | .ok n :: rest =>
    match allValues rest with
    | .ok ns => .ok (n :: ns)
    | .error e => .error e

/-- A fold over at least one child (R183, R184, R186). -/
def foldChildren (f : Nat → Nat → Nat) (kids : List (Except EvalError Nat)) : Except EvalError Nat :=
  match allValues kids with
  | .error e => .error e
  | .ok [] => .error .noChildren
  | .ok (n :: ns) => .ok (ns.foldl f n)

/-- A comparison of the first two children (R185, U8). -/
def compareChildren (strict : Bool) (r : Nat → Nat → Bool) : List (Except EvalError Nat) → Except EvalError Nat
  | a :: b :: rest =>
    if strict && !rest.isEmpty then .error .notTwoChildren
    else
      match a, b with
      | .ok x, .ok y => .ok (r x y).toNat
      | .error e, _ => .error e
      | _, .error e => .error e
  | _ => .error .notTwoChildren

/-- One operator over its children's values (R183 to R185). -/
def evalKind (cfg : EvalConfig) (k : Kind) (kids : List (Except EvalError Nat)) : Except EvalError Nat :=
  match k with
  | .sum => foldChildren (fun a b => reduceIn cfg.domain (a + b)) kids
  | .product => foldChildren (fun a b => reduceIn cfg.domain (a * b)) kids
  | .minimum => foldChildren min kids
  | .maximum => foldChildren max kids
  | .greater => compareChildren cfg.strict (fun a b => b < a) kids
  | .less => compareChildren cfg.strict (fun a b => a < b) kids
  | .equal => compareChildren cfg.strict (fun a b => a = b) kids

mutual
/-- `eval(p)` (R181, R182). -/
def Packet.eval (cfg : EvalConfig) : Packet → Except EvalError Nat
  | .literal _ x _ => .ok x.toNat
  | .operator _ t _ _ kids =>
    match operatorKind t with
    | some k => evalKind cfg k (packetsEval cfg kids)
    | none => .error .noKind
/-- The value of each of a sequence of packets. -/
def packetsEval (cfg : EvalConfig) : List Packet → List (Except EvalError Nat)
  | [] => []
  | p :: ps => p.eval cfg :: packetsEval cfg ps
end

mutual
/-- The version sum of a packet (R188). -/
def Packet.versionSum : Packet → Nat
  | .literal v _ _ => v.toNat
  | .operator v _ _ _ kids => v.toNat + packetsVersionSum kids
/-- The version sum of a sequence of packets (R188). -/
def packetsVersionSum : List Packet → Nat
  | [] => 0
  | p :: ps => p.versionSum + packetsVersionSum ps
end

/-! ### The two queries over committed events (R162, R188, R190) -/

/-- The version an event carries: 0 for `OP_END` (R78, R188). -/
def Event.version : Event → BitVec 3
  | .literal v _ _ => v
  | .opBegin v _ _ _ => v
  | .opEnd _ => 0

/-- The version-sum query: the sum of the `version` field of every committed event (R188). -/
def versionSumQuery (es : List Event) : Nat := (es.map fun e => e.version.toNat).sum

/-- The evaluation query: the value of the first top-level packet (R190). -/
def evaluationQuery (cfg : EvalConfig) (es : List Event) : Except EvalError Nat :=
  match rebuild es with
  | none => .error .badEvents
  | some [] => .error .noPacket
  | some (p :: _) => p.eval cfg

/-- The stricter reading of a STREAM response a host may apply (R161): TRAILING with more than 7 bits left, or with a
skipped bit set, is a failed decode. -/
def strictTrailing (bytes : List Byte) (r : Response) : Bool :=
  r.stopCause = 2#2 ∧
    (7 < 8 * bytes.length - r.stopOffset.toNat ∨ ((streamBits bytes).drop r.stopOffset.toNat).any id = true)

end Sys2Proof.Machine
end

