-- ==== Sys2Proof/Machine/Pipeline.lean ====
section
/-! DEFINITION. The pipeline of spec/44_host_evaluator.md section 4: hex text, bytes, the block, committed events, scalar, and
its single error. Host software around the block (spec/00_scope.md R5). -/

namespace Sys2Proof.Machine

/-- The one error the pipeline reports, whatever stage fails (R191). -/
inductive PipelineError where
  | decodeOrEvaluate
deriving DecidableEq, Repr

/-- So many steps of the machine, one after the other, unless one stops. -/
def runSteps : (steps : Nat) → State → Host.Outcome State Fault Refusal
  | 0, s => .next s
  | steps + 1, s =>
    match step s with
    | .next t => runSteps steps t
    | stop => stop

/-- The host's sequence for one decode (R233), run on the block: the bytes placed, LOAD, STREAM. -/
def decodeOnBlock (bytes : List Byte) (s : State) : Host.Outcome State Fault Refusal :=
  runSteps (decodeActs bytes).length { s with inbox := decodeActs bytes }

/-- What a decode of the bytes gives the host: STREAM's committed events. It fails if LOAD or STREAM does, no retry (R191); if
LOAD's operand cannot count the bytes (log entry 27); and, where the host wants the stricter end of R161 (`strictEnd`), if the
bits after the last packet are no padding. Only what this decode delivers counts. -/
def decodeBytes (strictEnd : Bool) (bytes : List Byte) (s : State) : Except PipelineError (List Event) :=
  if 2 ^ 32 ≤ bytes.length then .error .decodeOrEvaluate
  else
    match decodeOnBlock bytes s with
    | .next t =>
      match commandOutputs [] (t.delivered.drop s.delivered.length) with
      | [(_, load), (events, stream)] =>
        if load.status = 0 ∧ stream.status = 0 ∧ (strictEnd && strictTrailing bytes stream) = false then .ok events
        else .error .decodeOrEvaluate
      | _ => .error .decodeOrEvaluate
    | _ => .error .decodeOrEvaluate

/-- Hex text to committed events: HexDecoder first, before any work of the block (R96, R233). -/
def decodeText (strictEnd : Bool) (text : List Char) (s : State) : Except PipelineError (List Event) :=
  match hexDecode text with
  | .ok bytes => decodeBytes strictEnd bytes s
  | .error _ => .error .decodeOrEvaluate

/-- The pipeline with the version-sum query (R188, R189). -/
def versionSumOfText (strictEnd : Bool) (text : List Char) (s : State) : Except PipelineError Nat :=
  match decodeText strictEnd text s with
  | .ok events => .ok (versionSumQuery events)
  | .error e => .error e

/-- The pipeline's single error in place of the evaluator's (R191). -/
def evaluatedScalar : Except EvalError Nat → Except PipelineError Nat
  | .ok n => .ok n
  | .error _ => .error .decodeOrEvaluate

/-- The pipeline with the evaluation query (R189, R190). -/
def valueOfText (cfg : EvalConfig) (strictEnd : Bool) (text : List Char) (s : State) : Except PipelineError Nat :=
  match decodeText strictEnd text s with
  | .ok events => evaluatedScalar (evaluationQuery cfg events)
  | .error e => .error e

end Sys2Proof.Machine
end

