-- ==== Sys2Proof/Safety.lean ====
section
/-! DEFINITION. The terms claims are stated in: what holds between commands (spec/10_state.md R31, spec/43_packet_engine.md
R157), the widths of spec/00_scope.md R9, bits of the stream at a place, and the groups of a varint. -/

namespace Sys2Proof.Machine

/-! ### What holds between commands -/

/-- Between commands the engine is idle with no frame open (R31, R157), no command is in progress (R30), and no event waits
for a response (R57). -/
structure Boundary (s : State) : Prop where
  idle : s.pgState = .idle
  noFrame : s.stk = []
  notBusy : s.busy = false
  noProvisional : s.provisional = []

/-- Every register that holds a natural number fits the width its parameter gives it (R9, R16). -/
structure WidthsFit (s : State) : Prop where
  len : s.len < 2 ^ s.cfg.offsetW
  bitOffset : s.bitOffset < 2 ^ s.cfg.offsetW
  attemptStart : s.attemptStart < 2 ^ s.cfg.offsetW
  groups : s.groups < 2 ^ s.cfg.countRegW
  pktCount : s.pktCount < 2 ^ s.cfg.countRegW

/-- The invariant of the machine between commands. -/
structure Inv (s : State) : Prop where
  config : s.cfg.Valid
  bufWf : s.buf.wf
  hostMemWf : s.hostMem.wf
  lenBound : s.len ≤ s.cfg.bufMaxBytes
  cursorBound : s.bitOffset ≤ s.endOfBuffer
  boundary : Boundary s
  widths : WidthsFit s

/-! ### Bits of the stream -/

/-- The stream bits from `o` on are `bs`, all of them before the end of the buffer (R13, R19). -/
structure State.BitsAt (s : State) (o : Nat) (bs : List Bool) : Prop where
  inBuffer : o + bs.length ≤ s.endOfBuffer
  bit : ∀ i, (h : i < bs.length) → s.sbit (o + i) = bs[i]

/-! ### The groups of a varint at the cursor (R128), counted from 0 -/

/-- The five bits of group `i` (R70). -/
def State.groupAt (s : State) (i : Nat) : Nat := s.field (s.bitOffset + 5 * i) 5

/-- The payload of group `i` (R70). -/
def State.payloadAt (s : State) (i : Nat) : Nat := s.groupAt i % 16

/-- The payloads of the first `k` groups, first group most significant (R71). -/
def State.payloadValue (s : State) : (k : Nat) → Nat
  | 0 => 0
  | k + 1 => 16 * s.payloadValue k + s.payloadAt k

/-- Group `i` ends past the buffer (R128 (1)). -/
def State.groupRunsOut (s : State) (i : Nat) : Prop := s.endOfBuffer < s.bitOffset + 5 * (i + 1)

/-- Group `i` is at least the seventeenth counted from the first with a non-zero payload (R127, R128 (2)). -/
def State.groupOverflows (s : State) (i : Nat) : Prop :=
  ∃ j, s.payloadAt j ≠ 0 ∧ (∀ i' < j, s.payloadAt i' = 0) ∧ j + 16 ≤ i

/-- Group `i` has continuation flag 0 (R128 (3)). -/
def State.groupEnds (s : State) (i : Nat) : Prop := s.groupAt i < 16

/-- Nothing ends the varint at group `i`. -/
def State.groupGoesOn (s : State) (i : Nat) : Prop :=
  ¬ s.groupRunsOut i ∧ ¬ s.groupOverflows i ∧ ¬ s.groupEnds i

/-- The number the payloads of a list of groups make, first group most significant (R71). -/
def payloadsNat (ps : List (BitVec 4)) : Nat := ps.foldl (fun a p => 16 * a + p.toNat) 0

end Sys2Proof.Machine
end

