-- ==== Sys2Proof/Certificates/Slice0/Obligations.lean ====
section
/-! DEFINITION. The statements about the machine, each from a numbered rule of the spec or derived from several. -/

open Sys2Proof Sys2Proof.Machine

/-! ### Reset, the invariant, and steps -/

/-- R232, with R100 for a count above the width: after reset (from any state) the block is a reader over the empty buffer. -/
def Obligations.ResetBlockReadsEmptyBuffer : Prop :=
  ∀ s : State, (s.resetBlock.bitOffset = 0 ∧ s.resetBlock.len = 0 ∧ s.resetBlock.fault = false) ∧
    (∀ n : Count5, n.toNat = 0 →
      exec (.consume8 n) s.resetBlock = .next (s.resetBlock.respond (Response.success 0 0 0 0)) ∧
      exec (.consume16 n) s.resetBlock = .next (s.resetBlock.respond (Response.success 0 0 0 0))) ∧
    (∀ n : Count5, 1 ≤ n.toNat → n.toNat ≤ 8 →
      exec (.consume8 n) s.resetBlock = .next (s.resetBlock.respond (Response.failure .exhausted))) ∧
    (∀ n : Count5, 1 ≤ n.toNat → n.toNat ≤ 16 →
      exec (.consume16 n) s.resetBlock = .next (s.resetBlock.respond (Response.failure .exhausted))) ∧
    exec .varint s.resetBlock = .next (s.resetBlock.respond (Response.failure .exhausted)) ∧
    exec .packet s.resetBlock = .next (s.resetBlock.respond (Response.failure .exhausted)) ∧
    exec .stream s.resetBlock = .next (s.resetBlock.respond (Response.success 0 0 1 0))

/-- R32, R230: a step that takes a reset gives every register that R32 gives a value that value, and nothing else of
the host's changes. That the parameters, the queue, the host's memory and what was delivered stay is the model's
choice (log entries 1, 17). -/
def Obligations.ResetStepGivesResetValues : Prop :=
  ∀ (s : State) (rest : List HostAct), s.busy = false → s.inbox = .reset :: rest →
    ∃ t, step s = .next t ∧ t.bitOffset = 0 ∧ t.len = 0 ∧ t.fault = false ∧ t.acc = 0 ∧ t.groups = 0 ∧ t.pgState = .idle ∧
      t.ver = 0 ∧ t.tid = 0 ∧ t.sp = 0 ∧ t.pktCount = 0 ∧ t.attemptStart = 0 ∧ t.busy = false ∧
      t.cfg = s.cfg ∧ t.inbox = rest ∧ t.hostMem = s.hostMem ∧ t.delivered = s.delivered

/-- R31, R157, R9 with the model's own memories: the invariant holds after reset. What it says of the memories and of
events waiting is the model's own (log entries 5, 6, 12). -/
def Obligations.ResetMeetsInvariant : Prop := Inv State.reset

/-- R31, R157, R9: every step, whatever the host does, keeps the invariant: the cursor within the buffer, the buffer
within its bound, the engine idle with no frame open, every register within its width, both memories in canonical
form. The last, and that no event waits between commands, are the model's own (log entries 5, 6, 12). -/
def Obligations.EveryStepKeepsInvariant : Prop :=
  ∀ s t : State, Inv s → step s = .next t → Inv t

/-- R62, R57: every command on the port is answered in one step by its events, then exactly one response. The host
serves every port (log entry 19). -/
def Obligations.EveryCommandAnsweredOnce : Prop :=
  ∀ (s : State) (op : BitVec 8) (arg : Word32) (rest : List HostAct), s.busy = false → s.inbox = .command op arg :: rest →
    ∃ (t : State) (es : List Event) (r : Response), step s = .next t ∧ t.busy = false ∧ t.inbox = rest ∧
      t.delivered = s.delivered ++ es.map .event ++ [.response r]

/-- A step runs the instruction of the word on the command port (R61, R65), the word being taken from the port; a word that
is no instruction is refused as `rejectCommand` says (R67). That a word placed by `withFetchWord` is the next to run is the
model's own numbering of words, no rule of the spec (DESIGN CHOICE, log entry 25). -/
def Obligations.StepRunsTheDecodedCommand : Prop :=
  (∀ (s : State) (op : BitVec 8) (arg : Word32) (rest : List HostAct) (i : Instr), s.busy = false →
    s.inbox = .command op arg :: rest → decode (.command op arg) = .ok i →
    step s = exec i { s with inbox := rest }) ∧
  (∀ (s : State) (op : BitVec 8) (arg : Word32) (rest : List HostAct) (e : DecodeError), s.busy = false →
    s.inbox = .command op arg :: rest → decode (.command op arg) = .error e →
    step s = .next (State.rejectCommand { s with inbox := rest })) ∧
  ∀ (s : State) (nbits w : Nat) (i : Instr), nbits = 8 ∨ nbits = 40 → decodeTableWord nbits w = some i →
    step (s.withFetchWord nbits w) = exec i { s with busy := false }

/-- R9, R10, R21, R40: no step changes the parameters; BUF and LEN change only by LOAD or reset; the host's memory changes only
where the host writes it. -/
def Obligations.OnlyLoadWritesTheBuffer : Prop :=
  ∀ s t : State, step s = .next t →
    t.cfg = s.cfg ∧
    ((t.buf ≠ s.buf ∨ t.len ≠ s.len) →
      (∃ rest, s.inbox = .reset :: rest) ∨ ∃ arg rest, s.inbox = .command 0x20 arg :: rest) ∧
    (t.hostMem ≠ s.hostMem → ∃ addr b rest, s.inbox = .place addr b :: rest)

/-- R23, R240: the cursor never moves back, but by LOAD or reset. -/
def Obligations.CursorNeverMovesBack : Prop :=
  ∀ s t : State, step s = .next t → t.bitOffset < s.bitOffset →
    (∃ rest, s.inbox = .reset :: rest) ∨ ∃ arg rest, s.inbox = .command 0x20 arg :: rest

/-- R24, R200, R248: only reset clears `FAULT`, and only a response with status 3 (`Contract`) or 6 (`IllegalCmd`) comes with
setting it. -/
def Obligations.LatchSetAndCleared : Prop :=
  ∀ s t : State, step s = .next t →
    (s.fault = true → t.fault = false → ∃ rest, s.inbox = .reset :: rest) ∧
    (s.fault = false → t.fault = true →
      ∃ r, t.delivered = s.delivered ++ [.response r] ∧ (r = Response.failure .contract ∨ r = Response.failure .illegalCmd))

/-- R66, R212, R213: what a failed command leaves. Its response carries the cause and zeros, no event is delivered, BUF and LEN
are as before, and the cursor is where R212 puts it (for the two overflows, somewhere ahead within the buffer). -/
def Obligations.FailedCommandLeaves : Prop :=
  ∀ (s t : State) (op : BitVec 8) (arg : Word32) (rest : List HostAct) (ds : List Delivery) (r : Response),
    Inv s → s.inbox = .command op arg :: rest → step s = .next t →
    t.delivered = s.delivered ++ ds ++ [.response r] → r.status ≠ 0 →
    ds = [] ∧ t.buf = s.buf ∧ t.len = s.len ∧
    ((r = Response.failure .faulted ∧ s.fault = true ∧ t.fault = true ∧ t.bitOffset = s.bitOffset) ∨
     ((r = Response.failure .illegalCmd ∨ r = Response.failure .contract) ∧ s.fault = false ∧ t.fault = true ∧
        t.bitOffset = s.bitOffset) ∨
     (r = Response.failure .exhausted ∧ s.fault = false ∧ t.fault = false ∧ t.bitOffset = s.endOfBuffer) ∨
     ((r = Response.failure .varintOverflow ∨ r = Response.failure .stackOverflow) ∧ s.fault = false ∧ t.fault = false ∧
        s.bitOffset < t.bitOffset ∧ t.bitOffset ≤ s.endOfBuffer))

/-- R208: while `FAULT` is 1 every command, LOAD and reserved words included, answers `Faulted` and changes nothing, the status
outputs show what they showed, and no step but reset clears the latch. -/
def Obligations.FaultedRefusesEveryCommand : Prop :=
  (∀ (s : State) (op : BitVec 8) (arg : Word32) (rest : List HostAct), s.busy = false → s.fault = true →
    s.inbox = .command op arg :: rest →
    ∃ t : State, step s = .next t ∧
      t = { s with inbox := rest, delivered := s.delivered ++ [.response (Response.failure .faulted)] } ∧
      (Response.failure .faulted).status = 7 ∧ ∀ i, t.sr i = s.sr i) ∧
  ∀ s t : State, step s = .next t → s.fault = true → t.fault = false → ∃ rest, s.inbox = .reset :: rest

/-- R67, R207: a reserved `op`, a non-zero `n` where it must be zero, or a LOAD of more than `BUF_MAX_BYTES` bytes ends with
`IllegalCmd` and changes nothing but `FAULT`. -/
def Obligations.ReservedWordIsIllegal : Prop :=
  ∀ (s : State) (op : BitVec 8) (arg : Word32) (rest : List HostAct), s.busy = false → s.fault = false →
    s.inbox = .command op arg :: rest →
    (op.toNat / 32 = 0 ∨ op.toNat / 32 = 7 ∨
      (op.toNat / 32 = 1 ∨ op.toNat / 32 = 4 ∨ op.toNat / 32 = 5 ∨ op.toNat / 32 = 6) ∧ op.toNat % 32 ≠ 0 ∨
      op = 0x20 ∧ s.cfg.bufMaxBytes < arg.toNat) →
    step s = .next { s with
      inbox := rest, fault := true, delivered := s.delivered ++ [.response (Response.failure .illegalCmd)] }

/-- R30, R63: the status outputs between commands; each fits `OFFSET_W` bits, at any time (what two of them show while
`BUSY` is 1 is a free value, log entry 11); and where `OFFSET_W` is at most 32 the 32 wires of each show it whole. -/
def Obligations.StatusOutputsShowState : Prop :=
  (∀ s : State, s.busy = false → s.sr 0 = s.bitOffset ∧ s.sr 1 = s.len) ∧
  (∀ s : State, (s.sr 2).testBit 0 = s.fault ∧ (s.sr 2).testBit 1 = s.busy ∧ ∀ k, 2 ≤ k → (s.sr 2).testBit k = false) ∧
  ∀ s : State, s.cfg.Valid → WidthsFit s → ∀ i, s.sr i < 2 ^ s.cfg.offsetW ∧
    (s.cfg.offsetW ≤ 32 → (s.srWire i).toNat = s.sr i)

/-! ### Encodings -/

/-- R64 to R81: decoding the word of a well-formed instruction gives it back, a pseudo-instruction as the command it stands
for. -/
def Obligations.DecodeOfEncode : Prop :=
  ∀ i : Instr, i.WellFormed → decode (encode i) = .ok i.canonical

/-- R64, R70 to R78: every word the decoder accepts is the word of the instruction it gives, which is well formed; `cmd_arg`
counts for LOAD alone. No bit of a word is dropped, and reserved words are not taken for a neighbour. -/
def Obligations.EncodeOfDecode : Prop :=
  (∀ (op : BitVec 8) (arg : Word32) (i : Instr), decode (.command op arg) = .ok i →
    i.WellFormed ∧ encode i = .command op (match i with | .load _ => arg | _ => 0)) ∧
  (∀ (pos : StreamPos) (bs : List Bool) (i : Instr), decode (.stream pos bs) = .ok i →
    i.WellFormed ∧ encode i = .stream pos bs) ∧
  ∀ (w : EventWord) (i : Instr), decode (.event w) = .ok i → i.WellFormed ∧ encode i = .event w

/-- R65, R70 to R75, R78: some words written out from the tables of the spec, at least one of every family. -/
def Obligations.SampleWordsDecode : Prop :=
  decode (.command 0b00100000 3) = .ok (.load 3) ∧
  decode (.command 0b01000011 9) = .ok (.consume8 3) ∧
  decode (.command 0b01101111 0) = .ok (.consume16 15) ∧
  decode (.command 0b10000000 7) = .ok .varint ∧
  decode (.command 0b10100000 0) = .ok .packet ∧
  decode (.command 0b11000000 0) = .ok .stream ∧
  decode (.command 0b00000101 0) = .ok (.reservedOp0 5) ∧
  decode (.command 0b11111111 0) = .ok (.reservedOp7 31) ∧
  decode (.command 0b10000001 0) = .error (.reservedCount 4 1) ∧
  decode (.stream .group [true, false, true, true, true]) = .ok (.varintGroup true 7) ∧
  decode (.stream .header [true, true, false, true, false, false]) = .ok (.pktHeader 6 4) ∧
  decode (.stream .packet
    [true, true, false, true, false, false,
     true, false, true, true, true, true, true, true, true, false, false, false, true, false, true]) =
    .ok (.pktLiteral 6 [7, 14, 5]) ∧
  decode (.stream .packet
    [false, false, true, true, true, false, false,
     false, false, false, false, false, false, false, false, false, false, true, true, false, true, true]) =
    .ok (.pktLessM0 1 27) ∧
  decode (.stream .packet
    [true, true, true, false, true, true, true,
     false, false, false, false, false, false, false, false, false, true, true]) =
    .ok (.pktMaximumM1 7 3) ∧
  decode (.event 0x3400000003_00000000000007E5#104) = .ok (.evLiteral 6 3 2021) ∧
  decode (.event 0x4E0000001B_0000000000000000#104) = .ok (.evOpBegin 1 6 false 27) ∧
  decode (.event 0x8000000002_0000000000000000#104) = .ok (.evOpEnd 2)

/-! ### LOAD and the reserved rows -/

/-- R91: LOAD in every case. The bytes below the count are the host's, the bytes from it on are as before, and nothing else
of the block changes but LEN and the cursor. -/
def Obligations.LoadOutcome : Prop :=
  ∀ (s : State) (arg : Word32), s.buf.wf →
    (s.fault = true → exec (.load arg) s = .next { s with
      busy := false, delivered := s.delivered ++ [.response (Response.failure .faulted)] }) ∧
    (s.fault = false → s.cfg.bufMaxBytes < arg.toNat → exec (.load arg) s = .next { s with
      fault := true, busy := false, delivered := s.delivered ++ [.response (Response.failure .illegalCmd)] }) ∧
    (s.fault = false → arg.toNat ≤ s.cfg.bufMaxBytes → ∃ b : Memory, b.wf ∧
      exec (.load arg) s = .next { s with
        buf := b, len := arg.toNat, bitOffset := 0, busy := false
        delivered := s.delivered ++ [.response (Response.success 0 0 0 0)] } ∧
      (∀ i < arg.toNat, b.read i = s.hostMem.read i) ∧ ∀ i, arg.toNat ≤ i → b.read i = s.buf.read i)

/-- R67(a), R207, R208: the two reserved rows, in every case. -/
def Obligations.ReservedRowsAnswer : Prop :=
  ∀ (s : State) (x : Count5),
    (s.fault = false →
      exec (.reservedOp0 x) s = .next { s with
        fault := true, busy := false, delivered := s.delivered ++ [.response (Response.failure .illegalCmd)] } ∧
      exec (.reservedOp7 x) s = .next { s with
        fault := true, busy := false, delivered := s.delivered ++ [.response (Response.failure .illegalCmd)] }) ∧
    (s.fault = true →
      exec (.reservedOp0 x) s = .next { s with
        busy := false, delivered := s.delivered ++ [.response (Response.failure .faulted)] } ∧
      exec (.reservedOp7 x) s = .next { s with
        busy := false, delivered := s.delivered ++ [.response (Response.failure .faulted)] })

/-! ### The bit reader -/

/-- R102, with R104 and R107: CONSUME8 in every case. -/
def Obligations.ConsumeEightOutcome : Prop :=
  ∀ (s : State) (n : Count5), s.bitOffset ≤ s.endOfBuffer →
    (s.fault = true → exec (.consume8 n) s = .next { s with
      busy := false, delivered := s.delivered ++ [.response (Response.failure .faulted)] }) ∧
    (s.fault = false → 8 < n.toNat → exec (.consume8 n) s = .next { s with
      fault := true, busy := false, delivered := s.delivered ++ [.response (Response.failure .contract)] }) ∧
    (s.fault = false → n.toNat ≤ 8 → s.endOfBuffer < s.bitOffset + n.toNat → exec (.consume8 n) s = .next { s with
      bitOffset := s.endOfBuffer, busy := false, delivered := s.delivered ++ [.response (Response.failure .exhausted)] }) ∧
    (s.fault = false → n.toNat ≤ 8 → s.bitOffset + n.toNat ≤ s.endOfBuffer → exec (.consume8 n) s = .next { s with
      bitOffset := s.bitOffset + n.toNat, busy := false
      delivered := s.delivered ++
        [.response (Response.success (BitVec.ofNat 64 (s.field s.bitOffset n.toNat)) 0 0 0)] })

/-- R103, with R104 and R107: CONSUME16 in every case. -/
def Obligations.ConsumeSixteenOutcome : Prop :=
  ∀ (s : State) (n : Count5), s.bitOffset ≤ s.endOfBuffer →
    (s.fault = true → exec (.consume16 n) s = .next { s with
      busy := false, delivered := s.delivered ++ [.response (Response.failure .faulted)] }) ∧
    (s.fault = false → 16 < n.toNat → exec (.consume16 n) s = .next { s with
      fault := true, busy := false, delivered := s.delivered ++ [.response (Response.failure .contract)] }) ∧
    (s.fault = false → n.toNat ≤ 16 → s.endOfBuffer < s.bitOffset + n.toNat → exec (.consume16 n) s = .next { s with
      bitOffset := s.endOfBuffer, busy := false, delivered := s.delivered ++ [.response (Response.failure .exhausted)] }) ∧
    (s.fault = false → n.toNat ≤ 16 → s.bitOffset + n.toNat ≤ s.endOfBuffer → exec (.consume16 n) s = .next { s with
      bitOffset := s.bitOffset + n.toNat, busy := false
      delivered := s.delivered ++
        [.response (Response.success (BitVec.ofNat 64 (s.field s.bitOffset n.toNat)) 0 0 0)] })

/-- R106: a read of zero bits succeeds wherever the cursor is, even past the end of an empty buffer. -/
def Obligations.ConsumeZeroAlwaysSucceeds : Prop :=
  ∀ s : State, s.fault = false →
    exec (.consume8 0) s = .next { s with
      busy := false, delivered := s.delivered ++ [.response (Response.success 0 0 0 0)] } ∧
    exec (.consume16 0) s = .next { s with
      busy := false, delivered := s.delivered ++ [.response (Response.success 0 0 0 0)] }

/-- R109: for a count both widths hold, the two reads return the same number, fail alike and leave the same state, and so do
the two commands; the only difference is the contract bound. -/
def Obligations.ConsumeWidthsAgree : Prop :=
  (∀ (s t : State) (c : Nat), c ≤ 8 →
    (∀ v, consume8 c s = .ok v t → consume16 c s = .ok (v.setWidth 16) t) ∧
    ∀ e, consume8 c s = .raise e t → consume16 c s = .raise e t) ∧
  ∀ (s : State) (n : Count5), s.fault = false →
    (exec (.consume8 n) s = exec (.consume16 n) s ↔ n.toNat ≤ 8 ∨ 16 < n.toNat)

/-- R46: two successful reads, `a` bits then `b` bits, of either width, are the two halves of one read of `a + b` bits, which
leaves the same state. -/
def Obligations.SuccessiveReadsConcatenate : Prop :=
  ∀ (U V W : Nat), (U = 8 ∨ U = 16) → (V = 8 ∨ V = 16) → (W = 8 ∨ W = 16) →
  ∀ (s u t : State) (a b : Nat) (x : BitVec V) (y : BitVec W), a + b ≤ U →
    consume V a s = .ok x u → consume W b u = .ok y t →
    ∃ v : BitVec U, consume U (a + b) s = .ok v t ∧ v.toNat = x.toNat * 2 ^ b + y.toNat

/-- R44, R45, R13: a 16-bit read at a byte-aligned cursor is two bytes, the lower address more significant. -/
def Obligations.AlignedSixteenBitsAreBigEndian : Prop :=
  ∀ (s : State) (j : Nat), s.fault = false → s.bitOffset = 8 * j → j + 2 ≤ s.len →
    exec (.consume16 16) s = .next { s with
      bitOffset := 8 * j + 16, busy := false
      delivered := s.delivered ++ [.response (Response.success
        (BitVec.ofNat 64 (256 * (s.buf.read j).toNat + (s.buf.read (j + 1)).toNat)) 0 0 0)] }

/-- R81: a pseudo-instruction does what the command it stands for does, in every state. -/
def Obligations.PseudoInstructionsAreCommands : Prop :=
  ∀ i : Instr, i.WellFormed → ∀ s : State, exec i s = exec i.canonical s

/-- R81 with R102, R103: the pseudo-instructions complete wherever their bits are there. The refusal of `READ n` with
`n > 16` is the model's (log entry 13). -/
def Obligations.PseudoInstructionsComplete : Prop :=
  ∀ s : State, s.fault = false →
    (s.bitOffset + 3 ≤ s.endOfBuffer →
      exec .version s = .next { s with
        bitOffset := s.bitOffset + 3, busy := false
        delivered := s.delivered ++ [.response (Response.success (BitVec.ofNat 64 (s.field s.bitOffset 3)) 0 0 0)] } ∧
      exec .typeid s = .next { s with
        bitOffset := s.bitOffset + 3, busy := false
        delivered := s.delivered ++ [.response (Response.success (BitVec.ofNat 64 (s.field s.bitOffset 3)) 0 0 0)] }) ∧
    (s.bitOffset + 1 ≤ s.endOfBuffer → exec .ltype s = .next { s with
      bitOffset := s.bitOffset + 1, busy := false
      delivered := s.delivered ++ [.response (Response.success (BitVec.ofNat 64 (s.field s.bitOffset 1)) 0 0 0)] }) ∧
    (s.bitOffset + 5 ≤ s.endOfBuffer → exec .group s = .next { s with
      bitOffset := s.bitOffset + 5, busy := false
      delivered := s.delivered ++ [.response (Response.success (BitVec.ofNat 64 (s.field s.bitOffset 5)) 0 0 0)] }) ∧
    (s.bitOffset + 15 ≤ s.endOfBuffer → exec .totalbits s = .next { s with
      bitOffset := s.bitOffset + 15, busy := false
      delivered := s.delivered ++ [.response (Response.success (BitVec.ofNat 64 (s.field s.bitOffset 15)) 0 0 0)] }) ∧
    (s.bitOffset + 11 ≤ s.endOfBuffer → exec .npackets s = .next { s with
      bitOffset := s.bitOffset + 11, busy := false
      delivered := s.delivered ++ [.response (Response.success (BitVec.ofNat 64 (s.field s.bitOffset 11)) 0 0 0)] }) ∧
    (∀ n : Count5, n.toNat ≤ 16 → s.bitOffset + n.toNat ≤ s.endOfBuffer → exec (.read n) s = .next { s with
      bitOffset := s.bitOffset + n.toNat, busy := false
      delivered := s.delivered ++
        [.response (Response.success (BitVec.ofNat 64 (s.field s.bitOffset n.toNat)) 0 0 0)] }) ∧
    ∀ n : Count5, 16 < n.toNat → exec (.read n) s = .refused (.readNotDefined n)

/-! ### The varint -/

/-- R126: the guard fails exactly when the shift would lose a set bit, and where it passes the fold is exact. -/
def Obligations.VarintGuardIsExact : Prop :=
  ∀ (a : Word64) (p : BitVec 4),
    (varintGuardFails a = true ↔ 2 ^ 60 ≤ a.toNat) ∧
    ((a <<< 4) >>> 4 ≠ a ↔ 2 ^ 60 ≤ a.toNat) ∧
    (varintGuardFails a = false → ((a <<< 4) ||| p.setWidth 64).toNat = 16 * a.toNat + p.toNat)

/-- R125: the groups counted are the groups taken from the stream, five bits each, at least one, and `GROUPS` holds the
count. -/
def Obligations.GroupCountIsBitsTaken : Prop :=
  ∀ (s t : State) (v : Word64) (k : Nat), varint s = .ok (v, k) t →
    t.bitOffset = s.bitOffset + 5 * k ∧ 1 ≤ k ∧ t.groups = k ∧ t.acc = v

/-- R128 (with R121 to R127): VARINT, closed form. Going through the groups, the first that runs out of bits, overflows or has
flag 0 decides; one of them does. Groups are counted from 0. -/
def Obligations.VarintClosedForm : Prop :=
  ∀ s : State, s.fault = false → s.bitOffset ≤ s.endOfBuffer →
    (∃ i, i ≤ (s.endOfBuffer - s.bitOffset) / 5 ∧ (∀ i' < i, s.groupGoesOn i') ∧ ¬ s.groupGoesOn i) ∧
    ∀ i, (∀ i' < i, s.groupGoesOn i') →
      (s.groupRunsOut i → ∃ (a : Word64) (g : Nat), exec .varint s = .next { s with
        bitOffset := s.endOfBuffer, acc := a, groups := g, busy := false
        delivered := s.delivered ++ [.response (Response.failure .exhausted)] }) ∧
      (¬ s.groupRunsOut i → s.groupOverflows i → ∃ (a : Word64) (g : Nat), exec .varint s = .next { s with
        bitOffset := s.bitOffset + 5 * (i + 1), acc := a, groups := g, busy := false
        delivered := s.delivered ++ [.response (Response.failure .varintOverflow)] }) ∧
      (¬ s.groupRunsOut i → ¬ s.groupOverflows i → s.groupEnds i →
        s.payloadValue (i + 1) < 2 ^ 64 ∧ ∃ a : Word64, exec .varint s = .next { s with
          bitOffset := s.bitOffset + 5 * (i + 1), acc := a, groups := i + 1, busy := false
          delivered := s.delivered ++ [.response (Response.success
            (BitVec.ofNat 64 (s.payloadValue (i + 1))) (BitVec.ofNat 32 (i + 1)) 0 0)] })

/-- R71, R127: every 64-bit value, in any number of groups that holds it, decodes to itself. The values left in `ACC`
and `GROUPS` are the model's choice (log entry 8). -/
def Obligations.VarintDecodesEveryEncoding : Prop :=
  ∀ (s : State) (x : Word64) (k : Nat), s.fault = false → 1 ≤ k → x.toNat < 16 ^ k →
    s.BitsAt s.bitOffset (varintBits (payloadsOf x k)) →
    exec .varint s = .next { s with
      bitOffset := s.bitOffset + 5 * k, acc := x, groups := k, busy := false
      delivered := s.delivered ++ [.response (Response.success x (BitVec.ofNat 32 k) 0 0)] }

/-! ### PACKET and STREAM -/

/-- R155, with R79, R142, R153: from a state with no frame open, the flat machine does what the recursive algorithm does, its
nesting limited to `STACK_DEPTH`: the same packet's events and the same cursor, or the same cause and the same cursor. -/
def Obligations.EngineMatchesRecursiveAlgorithm : Prop :=
  ∀ s : State, s.stk = [] →
    (∀ (p : Packet) (u : State), packetReference (some s.cfg.stackDepth) s = .ok p u →
      ∃ t : State, packet s = .ok () t ∧ t.bitOffset = u.bitOffset ∧ t.provisional = s.provisional ++ p.events ∧
        t.stk = [] ∧ t.pgState = .idle) ∧
    ∀ (c : Cause) (u : State), packetReference (some s.cfg.stackDepth) s = .raise c u →
      ∃ t : State, packet s = .raise c t ∧ t.bitOffset = u.bitOffset ∧ t.stk = [] ∧ t.pgState = .idle

/-- R154, R155: the limit on nesting changes nothing but where it is exceeded, and there it raises `StackOverflow`. -/
def Obligations.DepthLimitOnlyRestricts : Prop :=
  ∀ (s : State) (d : Nat),
    (∀ (p : Packet) (u : State), packetReference none s = .ok p u →
      if p.nesting ≤ d then packetReference (some d) s = .ok p u
      else ∃ v : State, packetReference (some d) s = .raise .stackOverflow v) ∧
    (∀ (p : Packet) (u : State), packetReference (some d) s = .ok p u →
      p.nesting ≤ d ∧ packetReference none s = .ok p u) ∧
    ∀ (c : Cause) (u : State), packetReference (some d) s = .raise c u → c ≠ .stackOverflow →
      packetReference none s = .raise c u

/-- R154: with `STACK_DEPTH` at least `(8 * BUF_MAX_BYTES) div 18`, no stream overflows the stack. -/
def Obligations.DeepEnoughStackNeverOverflows : Prop :=
  ∀ s t : State, Inv s → 8 * s.cfg.bufMaxBytes / 18 ≤ s.cfg.stackDepth → packet s ≠ .raise .stackOverflow t

/-- R148, R156, R204, R205: no stream raises `UnknownType`, and no attempt raises `Contract` or a command cause; the recursive
algorithm raises no `UnknownType` either. -/
def Obligations.UnknownTypeNeverRaised : Prop :=
  (∀ (s t : State) (c : Cause), packet s = .raise c t → c = .exhausted ∨ c = .varintOverflow ∨ c = .stackOverflow) ∧
  ∀ (limit : Option Nat) (s t : State), packetReference limit s ≠ .raise .unknownType t

/-- R164: every successful `packet()` advances the cursor by at least 11. -/
def Obligations.PacketTakesElevenBits : Prop :=
  ∀ s t : State, packet s = .ok () t → s.bitOffset + 11 ≤ t.bitOffset

/-- R72 to R79, R142, R156: PACKET decodes every well-formed packet whose bits stand at the cursor, of any shape,
nested up to `STACK_DEPTH`. The values left in `PKT_COUNT` and `ATTEMPT_START` are the model's choice (log entry 8). -/
def Obligations.PacketDecodesEveryPacket : Prop :=
  ∀ (s : State) (p : Packet), s.fault = false → s.stk = [] → p.wellFormed = true → p.nesting ≤ s.cfg.stackDepth →
    s.BitsAt s.bitOffset p.bits →
    ∃ t : State, exec .packet s = .next t ∧ t.bitOffset = s.bitOffset + p.bits.length ∧
      t.delivered = s.delivered ++ p.events.map .event ++ [.response (Response.success 0 1 0 0)] ∧
      t.pktCount = 1 ∧ t.attemptStart = s.bitOffset ∧ t.fault = false ∧ t.stk = [] ∧ t.pgState = .idle ∧
      t.provisional = [] ∧ t.busy = false

/-- R151: a length field of 0 gives an operator with no children, in either mode. -/
def Obligations.EmptyOperatorAccepted : Prop :=
  ∀ (s : State) (v t : BitVec 3), s.fault = false → s.stk = [] → 1 ≤ s.cfg.stackDepth → t ≠ 4 →
    (s.BitsAt s.bitOffset (headerM0Bits t v 0) → ∃ u : State, exec .packet s = .next u ∧ u.bitOffset = s.bitOffset + 22 ∧
      u.delivered = s.delivered ++
        [.event (.opBegin v t .totalBits 0), .event (.opEnd 0), .response (Response.success 0 1 0 0)]) ∧
    (s.BitsAt s.bitOffset (headerM1Bits t v 0) → ∃ u : State, exec .packet s = .next u ∧ u.bitOffset = s.bitOffset + 18 ∧
      u.delivered = s.delivered ++
        [.event (.opBegin v t .packetCount 0), .event (.opEnd 0), .response (Response.success 0 1 0 0)])

/-- R150: a child that ends past `end_offset` stops the loop, undetected: an operator of `total_bits = l` with `l > 0` over one
literal longer than `l` is accepted with that one child. -/
def Obligations.OverrunningChildAccepted : Prop :=
  ∀ (s : State) (v t w : BitVec 3) (l : BitVec 15) (x : Word64) (g : Word32), s.fault = false → s.stk = [] →
    1 ≤ s.cfg.stackDepth → t ≠ 4 → (Packet.literal w x g).wellFormed = true → 0 < l.toNat → l.toNat < 6 + 5 * g.toNat →
    s.BitsAt s.bitOffset (headerM0Bits t v l ++ (Packet.literal w x g).bits) →
    ∃ u : State, exec .packet s = .next u ∧ u.bitOffset = s.bitOffset + 28 + 5 * g.toNat ∧
      u.delivered = s.delivered ++
        [.event (.opBegin v t .totalBits l), .event (.literal w g x), .event (.opEnd 1),
         .response (Response.success 0 1 0 0)]

/-- R156, R157, R160, R212: PACKET in every case, by how its one attempt ends. -/
def Obligations.PacketCommandOutcome : Prop :=
  ∀ s : State, s.fault = false → s.stk = [] → s.bitOffset ≤ s.endOfBuffer →
    ∃ (t : State) (es : List Event) (r : Response), exec .packet s = .next t ∧
      t.delivered = s.delivered ++ es.map .event ++ [.response r] ∧ t.stk = [] ∧ t.pgState = .idle ∧
      t.provisional = [] ∧ s.bitOffset ≤ t.bitOffset ∧ t.bitOffset ≤ s.endOfBuffer ∧
      ((r = Response.success 0 1 0 0 ∧ ∃ p : Packet, es = p.events ∧ p.nesting ≤ s.cfg.stackDepth) ∨
       (r = Response.failure .exhausted ∧ es = [] ∧ t.bitOffset = s.endOfBuffer) ∨
       (r = Response.failure .varintOverflow ∧ es = []) ∨
       (r = Response.failure .stackOverflow ∧ es = []))

/-- R156, R158, R21: the frame of PACKET and STREAM. Every byte of the buffer and of the host's memory, the latch, the
parameters and the port queue are as before. -/
def Obligations.PacketAndStreamFrame : Prop :=
  ∀ s t : State, exec .packet s = .next t ∨ exec .stream s = .next t →
    t = { s with
      bitOffset := t.bitOffset, acc := t.acc, groups := t.groups, pgState := t.pgState, ver := t.ver, tid := t.tid
      stk := t.stk, pktCount := t.pktCount, attemptStart := t.attemptStart, busy := false, provisional := t.provisional
      delivered := t.delivered } ∧
    ∀ a, t.buf.read a = s.buf.read a ∧ t.hostMem.read a = s.hostMem.read a

/-- R158, R159, R161, R66: STREAM in every case: it succeeds with the cursor at the end of the buffer, CLEAN or
TRAILING by where its last attempt began, or fails with one of the two overflows; never with `Exhausted` or
`Contract`. The values left in `PKT_COUNT` and `ATTEMPT_START` are the model's choice (log entry 8). -/
def Obligations.StreamCommandOutcome : Prop :=
  ∀ s : State, s.fault = false → s.stk = [] → s.bitOffset ≤ s.endOfBuffer →
    ∃ (t : State) (es : List Event) (r : Response), exec .stream s = .next t ∧
      t.delivered = s.delivered ++ es.map .event ++ [.response r] ∧ t.stk = [] ∧ t.pgState = .idle ∧ t.provisional = [] ∧
      ((t.bitOffset = s.endOfBuffer ∧ s.bitOffset ≤ t.attemptStart ∧ t.attemptStart ≤ s.endOfBuffer ∧
        r = Response.success 0 (BitVec.ofNat 32 t.pktCount) (if t.attemptStart = s.endOfBuffer then 1 else 2)
          (BitVec.ofNat 32 t.attemptStart)) ∨
       ((r = Response.failure .varintOverflow ∨ r = Response.failure .stackOverflow) ∧ es = []))

/-- R160, R79: the events a STREAM delivers are exactly those of as many whole packets as it says it committed. The
value left in `PKT_COUNT` is the model's choice (log entry 8). -/
def Obligations.StreamCommitsWholePackets : Prop :=
  ∀ s t : State, s.fault = false → s.stk = [] → exec .stream s = .next t →
    ∃ (ps : List Packet) (r : Response),
      t.delivered = s.delivered ++ (packetsEvents ps).map .event ++ [.response r] ∧
      (r.status = 0 → t.pktCount = ps.length ∧ r.count = BitVec.ofNat 32 ps.length) ∧ (r.status ≠ 0 → ps = [])

/-- R158, R159, R72 to R79: STREAM decodes any sequence of well-formed packets from the cursor to the end of the buffer, with up
to ten padding bits of any value after them. -/
def Obligations.StreamDecodesEverySequence : Prop :=
  ∀ (s : State) (ps : List Packet), s.fault = false → s.stk = [] → packetsWellFormed ps = true →
    packetsNesting ps ≤ s.cfg.stackDepth → s.BitsAt s.bitOffset (packetsBits ps) →
    s.endOfBuffer < s.bitOffset + (packetsBits ps).length + 11 →
    ∃ t : State, exec .stream s = .next t ∧ t.bitOffset = s.endOfBuffer ∧ t.fault = false ∧ t.busy = false ∧
      t.delivered = s.delivered ++ (packetsEvents ps).map .event ++
        [.response (Response.success 0 (BitVec.ofNat 32 ps.length)
          (if s.bitOffset + (packetsBits ps).length = s.endOfBuffer then 1 else 2)
          (BitVec.ofNat 32 (s.bitOffset + (packetsBits ps).length)))]

/-- R156, R158, R160: a successful PACKET followed by a successful STREAM delivers what one STREAM would have delivered. -/
def Obligations.StreamIsPacketThenStream : Prop :=
  ∀ (s t u : State) (es es' : List Event) (r' : Response), s.fault = false → s.stk = [] →
    exec .packet s = .next t →
    t.delivered = s.delivered ++ es.map .event ++ [.response (Response.success 0 1 0 0)] →
    exec .stream t = .next u → u.delivered = t.delivered ++ es'.map .event ++ [.response r'] → r'.status = 0 →
    ∃ u' : State, exec .stream s = .next u' ∧ u'.bitOffset = u.bitOffset ∧
      u'.delivered = s.delivered ++ (es ++ es').map .event ++ [.response { r' with count := r'.count + 1 }]

/-- R160: of a sequence of whole packets and anything after them, the committed prefix for that many packets is the packets. -/
def Obligations.CommittedPrefixIsWholePackets : Prop :=
  ∀ (ps : List Packet) (junk : List Event),
    committedPrefix ps.length 0 (packetsEvents ps ++ junk) = packetsEvents ps

/-! ### Stream formats and event records -/

/-- R74 to R76, R150, R152: an operator header, of any of the seven kinds and either mode, opens a frame where one is
free. `operatorM0 t v l` and `operatorM1 t v c` are the fourteen rows PKT.SUM.M0 to PKT.EQUAL.M1. That a format has a
meaning of its own is the model's choice (log entry 15). -/
def Obligations.OperatorHeaderOpensFrame : Prop :=
  (operatorM0 0 = .pktSumM0 ∧ operatorM0 1 = .pktProductM0 ∧ operatorM0 2 = .pktMinimumM0 ∧ operatorM0 3 = .pktMaximumM0 ∧
    operatorM0 5 = .pktGreaterM0 ∧ operatorM0 6 = .pktLessM0 ∧ operatorM0 7 = .pktEqualM0 ∧
    operatorM1 0 = .pktSumM1 ∧ operatorM1 1 = .pktProductM1 ∧ operatorM1 2 = .pktMinimumM1 ∧ operatorM1 3 = .pktMaximumM1 ∧
    operatorM1 5 = .pktGreaterM1 ∧ operatorM1 6 = .pktLessM1 ∧ operatorM1 7 = .pktEqualM1) ∧
  ∀ (s : State) (t v : BitVec 3), t ≠ 4 → s.sp ≠ s.cfg.stackDepth →
    (∀ l : BitVec 15, exec (operatorM0 t v l) s = .next { s with
      bitOffset := s.bitOffset + 22, ver := v, tid := t, pgState := .next
      stk := { mode := .totalBits, limit := s.bitOffset + 22 + l.toNat, nchild := 0 } :: s.stk
      provisional := s.provisional ++ [.opBegin v t .totalBits l] }) ∧
    ∀ c : BitVec 11, exec (operatorM1 t v c) s = .next { s with
      bitOffset := s.bitOffset + 18, ver := v, tid := t, pgState := .next
      stk := { mode := .packetCount, limit := c.toNat, nchild := 0 } :: s.stk
      provisional := s.provisional ++ [.opBegin v t .packetCount (c.setWidth 15)] }

/-- R154, R206, R153: with every frame in use, an operator header ends the attempt and fails the command with
`StackOverflow`, the cursor past the header and nothing committed. That a format has a meaning of its own is the
model's choice (log entry 15). -/
def Obligations.OperatorHeaderOverflowsStack : Prop :=
  ∀ (s : State) (t v : BitVec 3), t ≠ 4 → s.sp = s.cfg.stackDepth →
    (∀ l : BitVec 15, exec (operatorM0 t v l) s = .next { s with
      bitOffset := s.bitOffset + 22, ver := v, tid := t, pgState := .idle, stk := [], provisional := [], busy := false
      delivered := s.delivered ++ [.response (Response.failure .stackOverflow)] }) ∧
    ∀ c : BitVec 11, exec (operatorM1 t v c) s = .next { s with
      bitOffset := s.bitOffset + 18, ver := v, tid := t, pgState := .idle, stk := [], provisional := [], busy := false
      delivered := s.delivered ++ [.response (Response.failure .stackOverflow)] }

/-- R73, R126, R152: a literal's groups fold into its value, unless the payloads before some group make a number of
61 bits or more; then that group is taken and the command fails with `VarintOverflow`. That a format has a meaning of
its own is the model's choice (log entry 15). -/
def Obligations.LiteralFormatFolds : Prop :=
  ∀ (s : State) (v : BitVec 3) (ps : List (BitVec 4)), ps ≠ [] →
    (payloadsNat ps.dropLast < 2 ^ 60 → exec (.pktLiteral v ps) s = .next { s with
      bitOffset := s.bitOffset + 6 + 5 * ps.length, ver := v, tid := 4, acc := BitVec.ofNat 64 (payloadsNat ps)
      groups := ps.length, pgState := .done
      provisional := s.provisional ++
        [.literal v (BitVec.ofNat 32 ps.length) (BitVec.ofNat 64 (payloadsNat ps))] }) ∧
    (2 ^ 60 ≤ payloadsNat ps.dropLast → ∃ k : Nat, k < ps.length ∧
      2 ^ 60 ≤ payloadsNat (ps.take k) ∧ payloadsNat (ps.take (k - 1)) < 2 ^ 60 ∧
      exec (.pktLiteral v ps) s = .next { s with
        bitOffset := s.bitOffset + 6 + 5 * (k + 1), ver := v, tid := 4, acc := BitVec.ofNat 64 (payloadsNat (ps.take k))
        groups := k, pgState := .idle, stk := [], provisional := [], busy := false
        delivered := s.delivered ++ [.response (Response.failure .varintOverflow)] })

/-- R70, R72, R121, R152: a group folds or overflows, and a header selects the next control state. That a format has
a meaning of its own is the model's choice (log entry 15). -/
def Obligations.GroupAndHeaderFormats : Prop :=
  ∀ s : State,
    (∀ v t : BitVec 3, exec (.pktHeader v t) s = .next { s with
      bitOffset := s.bitOffset + 6, ver := v, tid := t, pgState := if t = 4 then .literal else .ltype }) ∧
    (∀ (c : Bool) (p : BitVec 4), s.acc.toNat < 2 ^ 60 → exec (.varintGroup c p) s = .next { s with
      bitOffset := s.bitOffset + 5, acc := BitVec.ofNat 64 (16 * s.acc.toNat + p.toNat), groups := s.groups + 1 }) ∧
    ∀ (c : Bool) (p : BitVec 4), 2 ^ 60 ≤ s.acc.toNat → exec (.varintGroup c p) s = .next { s with
      bitOffset := s.bitOffset + 5, stk := [], pgState := .idle, provisional := [], busy := false
      delivered := s.delivered ++ [.response (Response.failure .varintOverflow)] }

/-- R15, R78: an event record is appended to the running command's events, and its 104 bits are those of its row.
That an event row has a meaning of its own is the model's choice (log entry 16). -/
def Obligations.EventRecordsAreEmitted : Prop :=
  ∀ s : State,
    (∀ (v : BitVec 3) (a : Word32) (d : Word64),
      exec (.evLiteral v a d) s = .next { s with provisional := s.provisional ++ [.literal v a d] } ∧
      encode (.evLiteral v a d) = .event (Event.literal v a d).word) ∧
    (∀ (v t : BitVec 3) (l : BitVec 15),
      exec (.evOpBegin v t false l) s = .next { s with provisional := s.provisional ++ [.opBegin v t .totalBits l] } ∧
      exec (.evOpBegin v t true l) s = .next { s with provisional := s.provisional ++ [.opBegin v t .packetCount l] } ∧
      encode (.evOpBegin v t false l) = .event (Event.opBegin v t .totalBits l).word ∧
      encode (.evOpBegin v t true l) = .event (Event.opBegin v t .packetCount l).word) ∧
    ∀ a : Word32,
      exec (.evOpEnd a) s = .next { s with provisional := s.provisional ++ [.opEnd a] } ∧
      encode (.evOpEnd a) = .event (Event.opEnd a).word

/-- R152 with R73 to R75: the engine, reading the bits at the cursor from `PG_VERSION`, does what the format those bits encode
does: an operator header in four visits, a literal in three. -/
def Obligations.EngineRunsStreamFormats : Prop :=
  ∀ s : State, s.pgState = .version →
    (∀ (t v : BitVec 3) (l : BitVec 15), t ≠ 4 → s.sp ≠ s.cfg.stackDepth →
      s.BitsAt s.bitOffset (headerM0Bits t v l) →
      ∃ u : State, runEngine 4 s = .ok () u ∧ exec (operatorM0 t v l) s = .next u) ∧
    (∀ (t v : BitVec 3) (c : BitVec 11), t ≠ 4 → s.sp ≠ s.cfg.stackDepth →
      s.BitsAt s.bitOffset (headerM1Bits t v c) →
      ∃ u : State, runEngine 4 s = .ok () u ∧ exec (operatorM1 t v c) s = .next u) ∧
    ∀ (v : BitVec 3) (ps : List (BitVec 4)), ps ≠ [] → payloadsNat ps.dropLast < 2 ^ 60 →
      s.BitsAt s.bitOffset (fieldBits v ++ fieldBits 4#3 ++ varintBits ps) →
      ∃ u : State, runEngine 3 s = .ok () u ∧ exec (.pktLiteral v ps) s = .next u

/-! ### The host and its software -/

/-- R233, R246 row 1: the host's byte is where it put it, and nothing of the block changes. -/
def Obligations.HostPlacesAByte : Prop :=
  ∀ (s : State) (addr : Word32) (b : Byte) (rest : List HostAct), s.busy = false → s.hostMem.wf →
    s.inbox = .place addr b :: rest →
    ∃ m : Memory, step s = .next { s with inbox := rest, hostMem := m } ∧ m.wf ∧
      ∀ a, m.read a = if a = addr.toNat then b else s.hostMem.read a

/-- R94 to R97: HexDecoder accepts exactly the even-length texts of hexadecimal digits, and gives half as many bytes.
That no other character is tolerated is the model's choice (log entry 23). -/
def Obligations.HexDecoderAcceptsHexPairs : Prop :=
  ∀ cs : List Char,
    ((∃ bytes, hexDecode cs = .ok bytes) ↔ cs.length % 2 = 0 ∧ ∀ c ∈ cs, (hexDigit c).isSome = true) ∧
    ∀ bytes, hexDecode cs = .ok bytes → 2 * bytes.length = cs.length ∧
      ∀ d < cs.length, ∀ k < 4, ∃ x, hexDigit (cs.getD d '0') = some x ∧
        (streamBits bytes).getD (4 * d + k) false = x.testBit (3 - k)

/-- R180, R79: the packets rebuilt from the events of packets are those packets. -/
def Obligations.RebuildInvertsEvents : Prop :=
  ∀ ps : List Packet, rebuild (packetsEvents ps) = some ps

/-- R188: the version sum over events is the version sum over the packets. -/
def Obligations.VersionSumOverEvents : Prop :=
  ∀ ps : List Packet, versionSumQuery (packetsEvents ps) = packetsVersionSum ps

/-- R185: a comparison that evaluates gives 0 or 1, and compares its first two children. Which trees evaluate is the
model's choice (log entry 22). -/
def Obligations.ComparisonsGiveZeroOrOne : Prop :=
  ∀ (cfg : EvalConfig) (v t : BitVec 3) (m : LengthMode) (l : BitVec 15) (a b : Packet) (rest : List Packet) (n x y : Nat),
    (Packet.operator v t m l (a :: b :: rest)).eval cfg = .ok n → a.eval cfg = .ok x → b.eval cfg = .ok y →
    (t = 5 → n = if y < x then 1 else 0) ∧ (t = 6 → n = if x < y then 1 else 0) ∧ (t = 7 → n = if x = y then 1 else 0)

/-- R21, R91, R40: no byte of BUF at or above LEN is ever read. From states alike but for such bytes, whatever the host does,
a step leaves states alike but for such bytes: the same responses, events, cursor and everything else. -/
def Obligations.OnlyBytesBelowLenMatter : Prop :=
  ∀ (s t : State) (b : Memory), s.buf.wf → b.wf → (∀ i < s.len, b.read i = s.buf.read i) → step s = .next t →
    ∃ b' : Memory, step { s with buf := b } = .next { t with buf := b' } ∧ ∀ i < t.len, b'.read i = t.buf.read i

/-! ### The pipeline -/

/-- R189, with R158, R180, R188, R190: a text whose bytes are well-formed packets and at most ten bits after them goes through
the pipeline, from any state between commands with FAULT 0, to the version sum of the packets and to the value of the first.
Where the host wants R161's stricter end, those bits are at most seven, all 0, and the offset fits its 32-bit field. -/
def Obligations.PipelineDecodesTransmission : Prop :=
  ∀ (s : State) (cfg : EvalConfig) (strictEnd : Bool) (text : List Char) (bytes : List Byte) (ps : List Packet)
    (pad : List Bool), Inv s → s.fault = false → hexDecode text = .ok bytes → bytes.length ≤ s.cfg.bufMaxBytes →
    bytes.length < 2 ^ 32 → streamBits bytes = packetsBits ps ++ pad → pad.length ≤ 10 →
    (strictEnd = true → bytes.length < 2 ^ 29 ∧ pad.length ≤ 7 ∧ ∀ b ∈ pad, b = false) →
    packetsWellFormed ps = true → packetsNesting ps ≤ s.cfg.stackDepth →
    decodeText strictEnd text s = .ok (packetsEvents ps) ∧
    versionSumOfText strictEnd text s = .ok (packetsVersionSum ps) ∧
    valueOfText cfg strictEnd text s = evaluatedScalar
      (match ps with
        | [] => .error .noPacket
        | p :: _ => p.eval cfg)

/-- R191, R96, R190: whatever stage fails, both queries report the one error: HexDecoder; a response of the decode, LOAD's or
STREAM's, that is no success; FAULT being 1 before. The evaluation query fails as well when no packet was committed, or when
the first does not evaluate (which trees do is the model's choice, log entry 22). -/
def Obligations.PipelineReportsOneError : Prop :=
  ∀ (s : State) (cfg : EvalConfig) (strictEnd : Bool) (text : List Char),
    (∀ e, hexDecode text = .error e →
      versionSumOfText strictEnd text s = .error .decodeOrEvaluate ∧
      valueOfText cfg strictEnd text s = .error .decodeOrEvaluate) ∧
    (∀ (bytes : List Byte) (t : State) (r : Response), hexDecode text = .ok bytes → decodeOnBlock bytes s = .next t →
      .response r ∈ t.delivered.drop s.delivered.length → r.status ≠ 0 →
      versionSumOfText strictEnd text s = .error .decodeOrEvaluate ∧
      valueOfText cfg strictEnd text s = .error .decodeOrEvaluate) ∧
    (s.fault = true →
      versionSumOfText strictEnd text s = .error .decodeOrEvaluate ∧
      valueOfText cfg strictEnd text s = .error .decodeOrEvaluate) ∧
    ∀ (es : List Event) (e : EvalError), decodeText strictEnd text s = .ok es → evaluationQuery cfg es = .error e →
      valueOfText cfg strictEnd text s = .error .decodeOrEvaluate

/-- R189, R191: the pipeline is a function of the text: states between commands with the same parameters and the same latch give
the same results, whatever was decoded before; and a decode run again gives what it gave. -/
def Obligations.PipelineIsPure : Prop :=
  ∀ (s : State) (cfg : EvalConfig) (strictEnd : Bool) (text : List Char), Inv s →
    (∀ s' : State, Inv s' → s'.cfg = s.cfg → s'.fault = s.fault →
      versionSumOfText strictEnd text s' = versionSumOfText strictEnd text s ∧
      valueOfText cfg strictEnd text s' = valueOfText cfg strictEnd text s) ∧
    ∀ (bytes : List Byte) (t : State), hexDecode text = .ok bytes → decodeOnBlock bytes s = .next t →
      versionSumOfText strictEnd text t = versionSumOfText strictEnd text s ∧
      valueOfText cfg strictEnd text t = valueOfText cfg strictEnd text s
end

