-- ==== Sys2Proof/Laws/BitReader.lean ====
section
/-! SUPPORT. Fields of the stream (spec/00_scope.md R13), and what `consume_W` does, said once (spec/41_bit_reader.md R104). -/

namespace Sys2Proof.Machine

/-! ### Fields -/

theorem State.field_lt (s : State) (o c : Nat) : s.field o c < 2 ^ c := by
  induction c with
  | zero => simp [State.field]
  | succ c ih =>
    have := (s.sbit (o + c)).toNat_lt
    rw [State.field, Nat.pow_succ]
    omega

/-- A field is its first `c` bits followed by the rest (R46). -/
theorem State.field_append (s : State) (o c d : Nat) :
    s.field o (c + d) = s.field o c * 2 ^ d + s.field (o + c) d := by
  induction d with
  | zero => simp [State.field]
  | succ d ih =>
    rw [← Nat.add_assoc, State.field, ih, State.field, Nat.pow_succ, Nat.add_assoc o c d]
    ring

/-- R13's sum. -/
theorem State.field_eq_sum (s : State) (o c : Nat) :
    s.field o c = ∑ i ∈ Finset.range c, (s.sbit (o + i)).toNat * 2 ^ (c - 1 - i) := by
  induction c with
  | zero => rfl
  | succ c ih =>
    rw [State.field, ih, Finset.sum_range_succ, Finset.mul_sum]
    congr 1
    · refine Finset.sum_congr rfl fun i hi => ?_
      have hi := Finset.mem_range.mp hi
      rw [show c + 1 - 1 - i = (c - 1 - i) + 1 by omega, Nat.pow_succ]
      ring
    · simp

/-- Fields depend on the buffer alone. -/
theorem State.field_congr {s t : State} (h : t.buf = s.buf) (o c : Nat) : t.field o c = s.field o c := by
  induction c with
  | zero => rfl
  | succ c ih => simp only [State.field, ih, State.sbit, h]

@[simp] theorem State.field_set_bitOffset (s : State) (b o c : Nat) :
    State.field { s with bitOffset := b } o c = s.field o c :=
  State.field_congr (s := s) (t := { s with bitOffset := b }) rfl o c

/-- The `take` bits from bit `pos` of byte `idx`, most significant first, are a field of the stream (R13, R101). -/
theorem State.field_in_byte (s : State) (idx pos take : Nat) (h : pos + take ≤ 8) :
    s.field (8 * idx + pos) take = ((s.buf.read idx).toNat >>> (8 - pos - take)) % 2 ^ take := by
  induction take with
  | zero => simp [State.field, Nat.mod_one]
  | succ take ih =>
    have hx : (s.buf.read idx).toNat >>> (8 - pos - take) = ((s.buf.read idx).toNat >>> (8 - pos - (take + 1))) / 2 := by
      rw [← Nat.shiftRight_one, ← Nat.shiftRight_add]
      congr 1
      omega
    have hbit : (s.sbit (8 * idx + pos + take)).toNat = ((s.buf.read idx).toNat >>> (8 - pos - (take + 1))) % 2 := by
      rw [State.sbit, show (8 * idx + pos + take) / 8 = idx by omega,
        show 7 - (8 * idx + pos + take) % 8 = 8 - pos - (take + 1) by omega, BitVec.getLsbD, Nat.testBit_eq_decide_div_mod_eq,
        Nat.shiftRight_eq_div_pow]
      rcases Nat.mod_two_eq_zero_or_one ((s.buf.read idx).toNat / 2 ^ (8 - pos - (take + 1))) with h | h <;> simp [h]
    rw [State.field, ih (by omega), hx, hbit, Nat.pow_succ, Nat.mul_comm (2 ^ take) 2, Nat.mod_mul]
    omega

/-! ### The loop of `consume_W` -/

/-- Shifting in `t` bits: no bit of either is lost while the result fits (R108). -/
theorem shiftIn_eq {W : Nat} (a : BitVec W) (t x : Nat) (hx : x < 2 ^ t) (h : (a.toNat + 1) * 2 ^ t ≤ 2 ^ W) :
    (a <<< t) ||| BitVec.ofNat W x = BitVec.ofNat W (a.toNat * 2 ^ t + x) := by
  have h1 : a.toNat * 2 ^ t + x < 2 ^ W := by
    rw [Nat.add_mul] at h
    omega
  apply BitVec.eq_of_toNat_eq
  rw [BitVec.toNat_or, BitVec.toNat_shiftLeft, BitVec.toNat_ofNat, BitVec.toNat_ofNat, Nat.mod_eq_of_lt h1,
    Nat.mod_eq_of_lt (show x < 2 ^ W by omega), Nat.shiftLeft_eq,
    Nat.mod_eq_of_lt (show a.toNat * 2 ^ t < 2 ^ W by omega), ← Nat.shiftLeft_eq, Nat.shiftLeft_add_eq_or_of_lt hx]

theorem consumeLoop_ok (W : Nat) (rounds need : Nat) (a : BitVec W) (s : State) (hr : need ≤ rounds)
    (ha : (a.toNat + 1) * 2 ^ need ≤ 2 ^ W) (ho : need = 0 ∨ s.bitOffset + need ≤ 8 * s.len) :
    consumeLoop W rounds need a s =
      .ok (BitVec.ofNat W (a.toNat * 2 ^ need + s.field s.bitOffset need))
        { s with bitOffset := s.bitOffset + need } := by
  induction rounds generalizing need a s with
  | zero =>
    obtain rfl : need = 0 := by omega
    simp [consumeLoop, State.field]
  | succ rounds ih =>
    by_cases hn : need = 0
    · subst hn; simp [consumeLoop, State.field]
    · have ho : s.bitOffset + need ≤ 8 * s.len := by omega
      have hlen : ¬ s.len ≤ s.bitOffset / 8 := by omega
      simp only [consumeLoop, if_neg hn, if_neg hlen]
      set take := min (8 - s.bitOffset % 8) need with htake
      have h1 : 1 ≤ take := by omega
      have h2 : take ≤ need := by omega
      have h3 : take ≤ 8 - s.bitOffset % 8 := by omega
      have hchunk := s.field_in_byte (s.bitOffset / 8) (s.bitOffset % 8) take (by omega)
      rw [show 8 * (s.bitOffset / 8) + s.bitOffset % 8 = s.bitOffset by omega] at hchunk
      rw [← hchunk]
      have hf := s.field_lt s.bitOffset take
      have hsplit : 2 ^ need = 2 ^ take * 2 ^ (need - take) := by rw [← Nat.pow_add]; congr 1; omega
      have hpos : 1 ≤ 2 ^ (need - take) := Nat.one_le_two_pow
      have hfit : (a.toNat + 1) * 2 ^ take ≤ 2 ^ W := by
        refine Nat.le_trans (Nat.mul_le_mul_left _ ?_) ha
        exact Nat.pow_le_pow_right (by omega) h2
      rw [shiftIn_eq a take _ hf hfit]
      have hval : (BitVec.ofNat W (a.toNat * 2 ^ take + s.field s.bitOffset take)).toNat =
          a.toNat * 2 ^ take + s.field s.bitOffset take := by
        rw [BitVec.toNat_ofNat, Nat.mod_eq_of_lt]
        rw [Nat.add_mul] at hfit
        omega
      rw [ih (need - take) _ _ (by omega) ?_ ?_, hval]
      · simp only [State.field_set_bitOffset]
        congr 2
        · rw [show need = take + (need - take) by omega, State.field_append, Nat.pow_add,
            show take + (need - take) - take = need - take by omega]
          ring
        · omega
      · rw [hval]
        have hle : a.toNat * 2 ^ take + s.field s.bitOffset take + 1 ≤ (a.toNat + 1) * 2 ^ take := by
          rw [Nat.add_mul]; omega
        refine Nat.le_trans (Nat.mul_le_mul_right _ hle) ?_
        rw [Nat.mul_assoc, ← hsplit]
        exact ha
      · show need - take = 0 ∨ s.bitOffset + take + (need - take) ≤ 8 * s.len
        omega

theorem consumeLoop_exhausted (W : Nat) (rounds need : Nat) (a : BitVec W) (s : State) (hr : need ≤ rounds)
    (hn : 0 < need) (ho : 8 * s.len < s.bitOffset + need) :
    consumeLoop W rounds need a s = .raise .exhausted { s with bitOffset := max s.bitOffset (8 * s.len) } := by
  induction rounds generalizing need a s with
  | zero => omega
  | succ rounds ih =>
    simp only [consumeLoop, if_neg (show need ≠ 0 by omega)]
    by_cases hlen : s.len ≤ s.bitOffset / 8
    · rw [if_pos hlen, Nat.max_eq_left (by omega)]
    · rw [if_neg hlen]
      have hle : 8 - s.bitOffset % 8 < need := by omega
      have htake : min (8 - s.bitOffset % 8) need = 8 - s.bitOffset % 8 := by omega
      simp only [htake]
      rw [ih _ _ _ (by omega) (by omega) (by
        show 8 * s.len < s.bitOffset + (8 - s.bitOffset % 8) + (need - (8 - s.bitOffset % 8))
        omega)]
      congr 2
      show max (s.bitOffset + (8 - s.bitOffset % 8)) (8 * s.len) = max s.bitOffset (8 * s.len)
      omega

/-! ### `consume_W`, closed form (R100, R104, R107) -/

theorem consume_contract {W count : Nat} (s : State) (h : W < count) : consume W count s = .raise .contract s := by
  simp [consume, h]

/-- R104(a) and (b): the bits are there. -/
theorem consume_ok {W count : Nat} (s : State) (h : count ≤ W) (ho : count = 0 ∨ s.bitOffset + count ≤ 8 * s.len) :
    consume W count s =
      .ok (BitVec.ofNat W (s.field s.bitOffset count)) { s with bitOffset := s.bitOffset + count } := by
  rw [consume, if_neg (by omega), consumeLoop_ok W count count 0 s (Nat.le_refl _) ?_ ho]
  · simp
  · simpa using Nat.pow_le_pow_right (by omega : 0 < 2) h

/-- R104(c): they are not. -/
theorem consume_exhausted {W count : Nat} (s : State) (h : count ≤ W) (hc : 0 < count)
    (ho : 8 * s.len < s.bitOffset + count) :
    consume W count s = .raise .exhausted { s with bitOffset := max s.bitOffset (8 * s.len) } := by
  rw [consume, if_neg (by omega), consumeLoop_exhausted W count count 0 s (Nat.le_refl _) hc ho]

/-- Everything `consume_W` can do with a count that fits. -/
theorem consume_cases {W count : Nat} (s : State) (h : count ≤ W) :
    (count = 0 ∨ s.bitOffset + count ≤ 8 * s.len) ∧
        consume W count s =
          .ok (BitVec.ofNat W (s.field s.bitOffset count)) { s with bitOffset := s.bitOffset + count } ∨
      (0 < count ∧ 8 * s.len < s.bitOffset + count) ∧
        consume W count s = .raise .exhausted { s with bitOffset := max s.bitOffset (8 * s.len) } := by
  by_cases ho : count = 0 ∨ s.bitOffset + count ≤ 8 * s.len
  · exact .inl ⟨ho, consume_ok s h ho⟩
  · exact .inr ⟨by omega, consume_exhausted s h (by omega) (by omega)⟩

end Sys2Proof.Machine
end

