-- ==== Sys2Proof/Laws/Varint.lean ====
section
/-! SUPPORT. What every micro-operation leaves alone, and what `varint` does, said once (spec/42_varint_decoder.md R121 to
R124). -/

namespace Sys2Proof.Machine

/-! ### What micro-operations may change -/

/-- `t` comes from `s` by a micro-operation: the registers no micro-operation writes are as before, and the cursor has not
moved back nor past the end of the buffer (R23, R104). -/
structure Moved (s t : State) : Prop where
  cfg : t.cfg = s.cfg
  buf : t.buf = s.buf
  len : t.len = s.len
  fault : t.fault = s.fault
  pktCount : t.pktCount = s.pktCount
  attemptStart : t.attemptStart = s.attemptStart
  busy : t.busy = s.busy
  inbox : t.inbox = s.inbox
  hostMem : t.hostMem = s.hostMem
  delivered : t.delivered = s.delivered
  forward : s.bitOffset ≤ t.bitOffset
  bounded : t.bitOffset ≤ max s.bitOffset (8 * s.len)

theorem Moved.refl (s : State) : Moved s s := by
  constructor <;> first | rfl | exact Nat.le_refl _ | exact Nat.le_max_left _ _

theorem Moved.trans {s t u : State} (h : Moved s t) (h' : Moved t u) : Moved s u := by
  have hb := h.bounded
  have hb' := h'.bounded
  rw [h.len] at hb'
  exact
    { cfg := h'.cfg.trans h.cfg
      buf := h'.buf.trans h.buf
      len := h'.len.trans h.len
      fault := h'.fault.trans h.fault
      pktCount := h'.pktCount.trans h.pktCount
      attemptStart := h'.attemptStart.trans h.attemptStart
      busy := h'.busy.trans h.busy
      inbox := h'.inbox.trans h.inbox
      hostMem := h'.hostMem.trans h.hostMem
      delivered := h'.delivered.trans h.delivered
      forward := Nat.le_trans h.forward h'.forward
      bounded := by omega }

/-- A change of the registers a micro-operation works in, the cursor being where it was. -/
theorem Moved.of_work (s : State) (acc : Word64) (groups : Nat) (pg : PgState) (ver tid : BitVec 3) (stk : List Frame)
    (prov : List Event) :
    Moved s { s with acc := acc, groups := groups, pgState := pg, ver := ver, tid := tid, stk := stk, provisional := prov } :=
  by constructor <;> first | rfl | exact Nat.le_refl _ | exact Nat.le_max_left _ _

theorem Moved.remaining_le {s t : State} (h : Moved s t) : t.remaining ≤ s.remaining := by
  have := h.forward
  have := h.len
  simp only [State.remaining, *]
  omega

theorem Moved.ahead (s : State) (n : Nat) (h : n = 0 ∨ s.bitOffset + n ≤ 8 * s.len) :
    Moved s { s with bitOffset := s.bitOffset + n } := by
  constructor <;> first | rfl | skip
  · exact Nat.le_add_right _ _
  · show s.bitOffset + n ≤ _
    omega

theorem Moved.toEnd (s : State) : Moved s { s with bitOffset := max s.bitOffset (8 * s.len) } := by
  constructor <;> first | rfl | exact Nat.le_max_left _ _

/-! ### Sequencing -/

@[simp] theorem Micro.bind_ok {α β : Type} (a : α) (s : State) (f : α → State → Micro β) :
    (Micro.ok a s).bind f = f a s := rfl

@[simp] theorem Micro.bind_raise {α β : Type} (c : Cause) (s : State) (f : α → State → Micro β) :
    (Micro.raise c s : Micro α).bind f = .raise c s := rfl

theorem Micro.bind_eq_ok {α β : Type} {m : Micro α} {f : α → State → Micro β} {b : β} {t : State} :
    m.bind f = .ok b t ↔ ∃ a s, m = .ok a s ∧ f a s = .ok b t := by
  cases m <;> simp [Micro.bind]

theorem Micro.bind_eq_raise {α β : Type} {m : Micro α} {f : α → State → Micro β} {c : Cause} {t : State} :
    m.bind f = .raise c t ↔ m = .raise c t ∨ ∃ a s, m = .ok a s ∧ f a s = .raise c t := by
  cases m <;> simp [Micro.bind]

/-! ### The fold -/

/-- Everything the guard and the fold can do. -/
theorem foldGroup_cases (p : BitVec 4) (s : State) :
    varintGuardFails s.acc = false ∧
        foldGroup p s = .ok () { s with acc := (s.acc <<< 4) ||| p.setWidth 64, groups := s.groups + 1 } ∨
      varintGuardFails s.acc = true ∧ foldGroup p s = .raise .varintOverflow s := by
  unfold foldGroup
  cases h : varintGuardFails s.acc <;> simp

/-! ### The loop -/

/-- The state after a group at the cursor has been read and folded. -/
def State.afterGroup (s : State) : State :=
  { s with
    bitOffset := s.bitOffset + 5
    acc := (s.acc <<< 4) ||| (BitVec.ofNat 4 (s.field s.bitOffset 5)).setWidth 64
    groups := s.groups + 1 }

/-- One round of the loop in terms of fields: read, guard, fold, flag (R122). -/
theorem varintLoop_succ (rounds : Nat) (s : State) :
    varintLoop (rounds + 1) s =
      if s.bitOffset + 5 ≤ 8 * s.len then
        if varintGuardFails s.acc then .raise .varintOverflow { s with bitOffset := s.bitOffset + 5 }
        else if (s.field s.bitOffset 5).testBit 4 then varintLoop rounds s.afterGroup
        else .ok (s.afterGroup.acc, s.afterGroup.groups) s.afterGroup
      else .raise .exhausted { s with bitOffset := max s.bitOffset (8 * s.len) } := by
  have hp : (BitVec.ofNat 8 (s.field s.bitOffset 5)).setWidth 4 = BitVec.ofNat 4 (s.field s.bitOffset 5) := by simp
  have hg : (BitVec.ofNat 8 (s.field s.bitOffset 5)).getLsbD 4 = (s.field s.bitOffset 5).testBit 4 := by
    rw [BitVec.getLsbD_ofNat]; rfl
  rcases consume_cases (W := 8) (count := 5) s (by omega) with ⟨ho, hc⟩ | ⟨ho, hc⟩
  · rw [if_pos (by omega)]
    simp only [varintLoop, consume8, hc, Micro.bind_ok, foldGroup, hp, hg]
    cases varintGuardFails s.acc
    · rfl
    · rfl
  · rw [if_neg (by omega)]
    simp only [varintLoop, consume8, hc, Micro.bind_raise]

/-- Rounds beyond the remaining bits make no difference (log entry 10). -/
theorem varintLoop_rounds (n m : Nat) (s : State) (hn : s.remaining < n) (hm : s.remaining < m) :
    varintLoop n s = varintLoop m s := by
  induction n generalizing m s with
  | zero => omega
  | succ n ih =>
    obtain ⟨m, rfl⟩ : ∃ k, m = k + 1 := ⟨m - 1, by omega⟩
    rw [varintLoop_succ, varintLoop_succ]
    split_ifs with ho hg hf
    · rfl
    · have hr : s.afterGroup.remaining + 5 = s.remaining := by
        simp only [State.remaining, State.afterGroup]; omega
      exact ih m s.afterGroup (by omega) (by omega)
    · rfl
    · rfl

/-- Everything the loop can do with enough rounds: it ends with a group whose flag is 0, runs out of bits, or meets the
guard. -/
theorem varintLoop_cases (rounds : Nat) (s : State) (h : s.remaining < rounds) :
    (∃ t : State, varintLoop rounds s = .ok (t.acc, t.groups) t ∧
        t = { s with bitOffset := t.bitOffset, acc := t.acc, groups := t.groups } ∧
        s.bitOffset + 5 ≤ t.bitOffset ∧ t.bitOffset ≤ 8 * s.len) ∨
      (∃ t : State, varintLoop rounds s = .raise .exhausted t ∧
        t = { s with bitOffset := max s.bitOffset (8 * s.len), acc := t.acc, groups := t.groups }) ∨
      ∃ t : State, varintLoop rounds s = .raise .varintOverflow t ∧
        t = { s with bitOffset := t.bitOffset, acc := t.acc, groups := t.groups } ∧
        s.bitOffset + 5 ≤ t.bitOffset ∧ t.bitOffset ≤ 8 * s.len := by
  induction rounds generalizing s with
  | zero => omega
  | succ rounds ih =>
    rw [varintLoop_succ]
    have hb : s.afterGroup.bitOffset = s.bitOffset + 5 := rfl
    have hl : s.afterGroup.len = s.len := rfl
    split_ifs with ho hg hf
    · exact .inr (.inr ⟨_, rfl, rfl, Nat.le_refl _, ho⟩)
    · rcases ih s.afterGroup (by simp only [State.remaining] at *; omega) with
        ⟨u, hu, heq, h1, h2⟩ | ⟨u, hu, heq⟩ | ⟨u, hu, heq, h1, h2⟩
      · exact .inl ⟨u, hu, heq, by omega, by omega⟩
      · refine .inr (.inl ⟨u, hu, ?_⟩)
        rw [hb, hl, show max (s.bitOffset + 5) (8 * s.len) = max s.bitOffset (8 * s.len) by omega] at heq
        exact heq
      · exact .inr (.inr ⟨u, hu, heq, by omega, by omega⟩)
    · exact .inl ⟨s.afterGroup, rfl, rfl, by omega, by omega⟩
    · exact .inr (.inl ⟨_, rfl, rfl⟩)

/-- Everything `varint` can do (R121 to R124). -/
theorem varint_cases (s : State) :
    (∃ t : State, varint s = .ok (t.acc, t.groups) t ∧
        t = { s with bitOffset := t.bitOffset, acc := t.acc, groups := t.groups } ∧
        s.bitOffset + 5 ≤ t.bitOffset ∧ t.bitOffset ≤ 8 * s.len) ∨
      (∃ t : State, varint s = .raise .exhausted t ∧
        t = { s with bitOffset := max s.bitOffset (8 * s.len), acc := t.acc, groups := t.groups }) ∨
      ∃ t : State, varint s = .raise .varintOverflow t ∧
        t = { s with bitOffset := t.bitOffset, acc := t.acc, groups := t.groups } ∧
        s.bitOffset + 5 ≤ t.bitOffset ∧ t.bitOffset ≤ 8 * s.len :=
  varintLoop_cases (s.remaining + 1) { s with acc := 0, groups := 0 } (Nat.lt_succ_self _)

/-- A state that differs in the registers of `varint` only has moved. -/
theorem Moved.of_varint {s t : State} (h : t = { s with bitOffset := t.bitOffset, acc := t.acc, groups := t.groups })
    (h1 : s.bitOffset ≤ t.bitOffset) (h2 : t.bitOffset ≤ max s.bitOffset (8 * s.len)) : Moved s t := by
  constructor <;> first | exact h1 | exact h2 | (rw [h])

/-- However `varint` ends, the state has moved. -/
theorem varint_moved (s : State) : Moved s (varint s).state := by
  rcases varint_cases s with ⟨t, h, ht, h1, h2⟩ | ⟨t, h, ht⟩ | ⟨t, h, ht, h1, h2⟩ <;> rw [h] <;> simp only [Micro.state]
  · exact .of_varint ht (by omega) (by omega)
  · have hb : t.bitOffset = max s.bitOffset (8 * s.len) := by rw [ht]
    exact .of_varint (by rw [hb]; exact ht) (by omega) (by omega)
  · exact .of_varint ht (by omega) (by omega)

end Sys2Proof.Machine
end

