-- ==== Sys2Proof/Laws/Packet.lean ====
section
/-! SUPPORT. The packet engine: what each control state's action does, that every visit gets the engine nearer its end, and
what an attempt leaves alone (spec/43_packet_engine.md R152, R153, R157). -/

namespace Sys2Proof.Machine

/-- A state that differs in the working registers of the engine only has moved. -/
theorem Moved.work_of {s t u : State} (h : Moved s t)
    (hu : u = { t with
      acc := u.acc, groups := u.groups, pgState := u.pgState, ver := u.ver, tid := u.tid, stk := u.stk
      provisional := u.provisional }) : Moved s u := by
  rw [hu]
  exact h.trans (Moved.of_work t _ _ _ _ _ _ _)

/-! ### The actions -/

/-- Everything the push can do (R152, R154). -/
theorem pushOperator_cases (mode : LengthMode) (l : BitVec 15) (s : State) :
    s.sp = s.cfg.stackDepth ∧ pushOperator mode l s = .raise .stackOverflow s ∨
      s.sp ≠ s.cfg.stackDepth ∧ ∃ f : Frame, f.mode = mode ∧ f.nchild = 0 ∧
        f.limit = (match mode with | .totalBits => s.bitOffset + l.toNat | .packetCount => l.toNat) ∧
        pushOperator mode l s = .ok () { s with
          stk := f :: s.stk
          pgState := .next
          provisional := s.provisional ++ [.opBegin s.ver s.tid mode l] } := by
  unfold pushOperator
  by_cases h : s.sp = s.cfg.stackDepth
  · exact .inl ⟨h, by simp [h]⟩
  · rw [if_neg h]
    exact .inr ⟨h, _, rfl, rfl, rfl, rfl⟩

/-- The end of an action of the engine: the state has moved, and after an action that succeeds there is less to do. -/
structure Visited (s : State) (m : Micro Unit) : Prop where
  moved : Moved s m.state
  less : ∀ t, m = .ok () t → t.engineWork < s.engineWork

theorem Visited.of_raise {s t : State} {c : Cause} (h : Moved s t) : Visited s (.raise c t) where
  moved := h
  less := by simp

theorem pushOperator_visited {s t : State} (mode : LengthMode) (l : BitVec 15) (h : Moved s t)
    (hw : 8 * s.len - t.bitOffset + 3 * t.sp + 6 ≤ s.engineWork) : Visited s (pushOperator mode l t) := by
  rcases pushOperator_cases mode l t with ⟨-, hp⟩ | ⟨-, f, -, -, -, hp⟩ <;> rw [hp]
  · exact .of_raise h
  · refine ⟨h.work_of (by rfl), fun u hu => ?_⟩
    obtain rfl := (Micro.ok.inj hu).2
    simp only [State.engineWork, State.remaining, State.sp, List.length_cons, h.len] at *
    omega

/-- Every visit of a control state (R152). -/
theorem pgAction_visited (s : State) (hs : s.pgState ≠ .idle) : Visited s (pgAction s) := by
  have hr : ∀ n, 0 < n → s.bitOffset + n ≤ 8 * s.len → 8 * s.len - (s.bitOffset + n) + n = s.remaining := by
    intro n _ h
    simp only [State.remaining]
    omega
  unfold pgAction
  cases hpg : s.pgState <;> simp only [consume8, consume16]
  case idle => exact absurd hpg hs
  case version =>
    rcases consume_cases (W := 8) (count := 3) s (by omega) with ⟨ho, hc⟩ | ⟨ho, hc⟩ <;> simp only [hc, Micro.bind]
    · refine ⟨(Moved.ahead s 3 ho).work_of (by rfl), fun u hu => ?_⟩
      obtain rfl := (Micro.ok.inj hu).2
      have := hr 3 (by omega) (by omega)
      simp only [State.engineWork, State.remaining, State.sp, hpg] at *
      omega
    · exact .of_raise (Moved.toEnd s)
  case type =>
    rcases consume_cases (W := 8) (count := 3) s (by omega) with ⟨ho, hc⟩ | ⟨ho, hc⟩ <;> simp only [hc, Micro.bind]
    · refine ⟨(Moved.ahead s 3 ho).work_of (by rfl), fun u hu => ?_⟩
      obtain rfl := (Micro.ok.inj hu).2
      have := hr 3 (by omega) (by omega)
      simp only [State.engineWork, State.remaining, State.sp, hpg] at *
      split_ifs <;> simp only <;> omega
    · exact .of_raise (Moved.toEnd s)
  case literal =>
    have hm := varint_moved s
    rcases varint_cases s with ⟨t, hv, ht, h1, h2⟩ | ⟨t, hv, -⟩ | ⟨t, hv, -⟩ <;> rw [hv] at hm ⊢ <;>
      simp only [Micro.bind]
    · refine ⟨hm.work_of (by rfl), fun u hu => ?_⟩
      obtain rfl := (Micro.ok.inj hu).2
      have hstk : t.stk = s.stk := by rw [ht]
      have hl : t.len = s.len := by rw [ht]
      simp only [State.engineWork, State.remaining, State.sp, hpg, finishLiteral, State.emit, hstk, hl]
      omega
    · exact .of_raise hm
    · exact .of_raise hm
  case ltype =>
    rcases consume_cases (W := 8) (count := 1) s (by omega) with ⟨ho, hc⟩ | ⟨ho, hc⟩ <;> simp only [hc, Micro.bind]
    · refine ⟨(Moved.ahead s 1 ho).work_of (by rfl), fun u hu => ?_⟩
      obtain rfl := (Micro.ok.inj hu).2
      have := hr 1 (by omega) (by omega)
      simp only [State.engineWork, State.remaining, State.sp, hpg] at *
      split_ifs <;> simp only <;> omega
    · exact .of_raise (Moved.toEnd s)
  case len15 =>
    rcases consume_cases (W := 16) (count := 15) s (by omega) with ⟨ho, hc⟩ | ⟨ho, hc⟩ <;> simp only [hc, Micro.bind]
    · refine pushOperator_visited _ _ (Moved.ahead s 15 ho) ?_
      simp only [State.engineWork, State.remaining, State.sp, hpg]
      omega
    · exact .of_raise (Moved.toEnd s)
  case len11 =>
    rcases consume_cases (W := 16) (count := 11) s (by omega) with ⟨ho, hc⟩ | ⟨ho, hc⟩ <;> simp only [hc, Micro.bind]
    · refine pushOperator_visited _ _ (Moved.ahead s 11 ho) ?_
      simp only [State.engineWork, State.remaining, State.sp, hpg]
      omega
    · exact .of_raise (Moved.toEnd s)
  case next =>
    refine ⟨?_, fun u hu => ?_⟩
    · simp only [Micro.state, nextChild]
      split
      · exact (Moved.refl s).work_of (by rfl)
      · split <;> split_ifs <;> exact (Moved.refl s).work_of (by rfl)
    · obtain rfl := (Micro.ok.inj hu).2
      unfold nextChild
      split
      · simp only [State.engineWork, State.remaining, State.sp, hpg]; omega
      · rename_i f rest hstk
        split <;> split_ifs <;>
          simp only [State.engineWork, State.remaining, State.sp, hpg, hstk, List.length_cons] <;> omega
  case close =>
    refine ⟨?_, fun u hu => ?_⟩
    · simp only [Micro.state, closeOperator]
      split <;> exact (Moved.refl s).work_of (by rfl)
    · obtain rfl := (Micro.ok.inj hu).2
      unfold closeOperator
      split
      · simp only [State.engineWork, State.remaining, State.sp, hpg]; omega
      · rename_i f rest hstk
        simp only [State.engineWork, State.remaining, State.sp, hpg, hstk, List.length_cons, State.emit]
        omega
  case done =>
    refine ⟨?_, fun u hu => ?_⟩
    · simp only [Micro.state, packetDone]
      split <;> exact (Moved.refl s).work_of (by rfl)
    · obtain rfl := (Micro.ok.inj hu).2
      unfold packetDone
      split
      · simp only [State.engineWork, State.remaining, State.sp, hpg]; omega
      · rename_i f rest hstk
        simp only [State.engineWork, State.remaining, State.sp, hpg, hstk, List.length_cons]
        omega

/-! ### The run of the engine -/

/-- Visits beyond the engine's work make no difference (log entry 10). -/
theorem runEngine_visits (n m : Nat) (s : State) (hn : s.engineWork < n) (hm : s.engineWork < m) :
    runEngine n s = runEngine m s := by
  induction n generalizing m s with
  | zero => omega
  | succ n ih =>
    obtain ⟨m, rfl⟩ : ∃ k, m = k + 1 := ⟨m - 1, by omega⟩
    simp only [runEngine]
    split_ifs with hs
    · rfl
    · have hless := (pgAction_visited s hs).less
      cases hp : pgAction s with
      | raise c t => rfl
      | ok u t =>
        have := hless t hp
        exact ih m t (by omega) (by omega)

/-- The engine from `s` until it is idle, or a `raise`. -/
def engineRun (s : State) : Micro Unit := runEngine (s.engineWork + 1) s

/-- The engine's run, one visit at a time (R153). -/
theorem engineRun_eq (s : State) :
    engineRun s = if s.pgState = .idle then .ok () s else (pgAction s).bind fun _ t => engineRun t := by
  simp only [engineRun, runEngine]
  split_ifs with hs
  · rfl
  · have hless := (pgAction_visited s hs).less
    cases hp : pgAction s with
    | raise c t => rfl
    | ok u t => exact runEngine_visits _ _ t (hless t hp) (Nat.lt_succ_self _)

/-- A property that every visit of the engine keeps holds however its run ends. -/
theorem engineRun_induction {P : State → Prop}
    (visit : ∀ s, P s → s.pgState ≠ .idle → P (pgAction s).state) (s : State) (h : P s) : P (engineRun s).state := by
  induction hn : s.engineWork using Nat.strong_induction_on generalizing s with
  | _ n ih =>
    subst hn
    rw [engineRun_eq]
    split_ifs with hs
    · exact h
    · have hv := visit s h hs
      have hless := (pgAction_visited s hs).less
      cases hp : pgAction s with
      | raise c t => rw [hp] at hv; exact hv
      | ok u t => rw [hp] at hv; exact ih _ (hless t hp) t hv rfl

theorem engineRun_moved (s : State) : Moved s (engineRun s).state := by
  refine engineRun_induction (P := Moved s) (fun t ht hs => ?_) s (Moved.refl s)
  exact ht.trans (pgAction_visited t hs).moved

theorem engineRun_ok_moved {s t : State} {u : Unit} (h : engineRun s = .ok u t) : Moved s t := by
  have := engineRun_moved s
  rwa [h] at this

/-- The run ends well only where the engine is idle (R153, R157). -/
theorem engineRun_idle {s t : State} {u : Unit} (h : engineRun s = .ok u t) : t.pgState = .idle := by
  induction hn : s.engineWork using Nat.strong_induction_on generalizing s with
  | _ n ih =>
    subst hn
    rw [engineRun_eq] at h
    split_ifs at h with hs
    · cases h; exact hs
    · have hless := (pgAction_visited s hs).less
      cases hp : pgAction s with
      | raise c v => rw [hp] at h; cases h
      | ok _ v => rw [hp] at h; exact ih _ (hless v hp) h rfl

/-! ### `packet` -/

theorem packet_eq (s : State) :
    packet s = match engineRun { s with pgState := .version } with
      | .ok u t => .ok u t
      | .raise c t => .raise c t.unwind := rfl

/-- However an attempt ends, the state has moved and the engine is idle (R157). -/
theorem packet_moved (s : State) : Moved s (packet s).state ∧ (packet s).state.pgState = .idle := by
  have h0 : Moved s { s with pgState := .version } := (Moved.refl s).work_of (by rfl)
  have hm := h0.trans (engineRun_moved { s with pgState := .version })
  rw [packet_eq]
  cases he : engineRun { s with pgState := .version } with
  | ok u t => rw [he] at hm; exact ⟨hm, engineRun_idle he⟩
  | raise c t => rw [he] at hm; exact ⟨hm.work_of (by rfl), rfl⟩

/-- A completed attempt has taken bits (R164 gives the sharper bound). -/
theorem packet_advances {s t : State} {u : Unit} (h : packet s = .ok u t) : s.bitOffset < t.bitOffset := by
  rw [packet_eq] at h
  cases he : engineRun { s with pgState := .version } with
  | raise c v => rw [he] at h; cases h
  | ok u v =>
    rw [he] at h
    cases h
    rw [engineRun_eq, if_neg (by simp)] at he
    simp only [pgAction, consume8] at he
    rcases consume_cases (W := 8) (count := 3) { s with pgState := .version } (by omega) with ⟨ho, hc⟩ | ⟨ho, hc⟩ <;>
      simp only [hc, Micro.bind] at he
    · have hf : s.bitOffset + 3 ≤ t.bitOffset := (engineRun_ok_moved he).forward
      omega
    · cases he

/-! ### STREAM's loop -/

/-- Attempts beyond the remaining bits make no difference (log entry 10). -/
theorem streamLoop_attempts (n m : Nat) (s : State) (hn : s.remaining < n) (hm : s.remaining < m) :
    streamLoop n s = streamLoop m s := by
  induction n generalizing m s with
  | zero => omega
  | succ n ih =>
    obtain ⟨m, rfl⟩ : ∃ k, m = k + 1 := ⟨m - 1, by omega⟩
    simp only [streamLoop]
    have hm' := (packet_moved { s with attemptStart := s.bitOffset }).1
    cases hp : packet { s with attemptStart := s.bitOffset } with
    | raise c t => cases c <;> rfl
    | ok u t =>
      have ha := packet_advances hp
      rw [hp] at hm'
      have hb := hm'.bounded
      have hl := hm'.len
      simp only [Micro.state] at ha hb hl
      have hr : t.remaining < s.remaining := by simp only [State.remaining, hl]; omega
      exact ih m { t with pktCount := t.pktCount + 1 } (Nat.lt_of_lt_of_le hr (by omega))
        (Nat.lt_of_lt_of_le hr (by omega))

/-- STREAM from `s` on. -/
def streamRun (s : State) : State := streamLoop (s.remaining + 1) s

/-- STREAM's loop, one attempt at a time (R158). -/
theorem streamRun_eq (s : State) :
    streamRun s = match packet { s with attemptStart := s.bitOffset } with
      | .ok _ t => streamRun { t with pktCount := t.pktCount + 1 }
      | .raise .exhausted t => endStream t
      | .raise c t => t.discard.fail c := by
  have hm' := (packet_moved { s with attemptStart := s.bitOffset }).1
  simp only [streamRun, streamLoop]
  cases hp : packet { s with attemptStart := s.bitOffset } with
  | raise c t => cases c <;> rfl
  | ok u t =>
    have ha := packet_advances hp
    rw [hp] at hm'
    have hb := hm'.bounded
    have hl := hm'.len
    simp only [Micro.state] at ha hb hl
    refine streamLoop_attempts _ _ _ ?_ (Nat.lt_succ_self _)
    simp only [State.remaining, hl]
    omega

end Sys2Proof.Machine
end

