-- ==== Sys2Proof/Laws/State.lean ====
section
/-! SUPPORT. One lemma for each field after each update of State, true by rfl. -/

namespace Sys2Proof.Machine

@[simp] theorem State.latch_cfg (c : Cause) (s : State) : (s.latch c).cfg = s.cfg := rfl
@[simp] theorem State.latch_buf (c : Cause) (s : State) : (s.latch c).buf = s.buf := rfl
@[simp] theorem State.latch_len (c : Cause) (s : State) : (s.latch c).len = s.len := rfl
@[simp] theorem State.latch_bitOffset (c : Cause) (s : State) : (s.latch c).bitOffset = s.bitOffset := rfl
@[simp] theorem State.latch_fault (c : Cause) (s : State) : (s.latch c).fault = (s.fault || c.sticky) := rfl
@[simp] theorem State.latch_acc (c : Cause) (s : State) : (s.latch c).acc = s.acc := rfl
@[simp] theorem State.latch_groups (c : Cause) (s : State) : (s.latch c).groups = s.groups := rfl
@[simp] theorem State.latch_pgState (c : Cause) (s : State) : (s.latch c).pgState = s.pgState := rfl
@[simp] theorem State.latch_ver (c : Cause) (s : State) : (s.latch c).ver = s.ver := rfl
@[simp] theorem State.latch_tid (c : Cause) (s : State) : (s.latch c).tid = s.tid := rfl
@[simp] theorem State.latch_stk (c : Cause) (s : State) : (s.latch c).stk = s.stk := rfl
@[simp] theorem State.latch_pktCount (c : Cause) (s : State) : (s.latch c).pktCount = s.pktCount := rfl
@[simp] theorem State.latch_attemptStart (c : Cause) (s : State) : (s.latch c).attemptStart = s.attemptStart := rfl
@[simp] theorem State.latch_busy (c : Cause) (s : State) : (s.latch c).busy = s.busy := rfl
@[simp] theorem State.latch_provisional (c : Cause) (s : State) : (s.latch c).provisional = s.provisional := rfl
@[simp] theorem State.latch_inbox (c : Cause) (s : State) : (s.latch c).inbox = s.inbox := rfl
@[simp] theorem State.latch_hostMem (c : Cause) (s : State) : (s.latch c).hostMem = s.hostMem := rfl
@[simp] theorem State.latch_delivered (c : Cause) (s : State) : (s.latch c).delivered = s.delivered := rfl

@[simp] theorem State.respond_cfg (r : Response) (s : State) : (s.respond r).cfg = s.cfg := rfl
@[simp] theorem State.respond_buf (r : Response) (s : State) : (s.respond r).buf = s.buf := rfl
@[simp] theorem State.respond_len (r : Response) (s : State) : (s.respond r).len = s.len := rfl
@[simp] theorem State.respond_bitOffset (r : Response) (s : State) : (s.respond r).bitOffset = s.bitOffset := rfl
@[simp] theorem State.respond_fault (r : Response) (s : State) : (s.respond r).fault = s.fault := rfl
@[simp] theorem State.respond_acc (r : Response) (s : State) : (s.respond r).acc = s.acc := rfl
@[simp] theorem State.respond_groups (r : Response) (s : State) : (s.respond r).groups = s.groups := rfl
@[simp] theorem State.respond_pgState (r : Response) (s : State) : (s.respond r).pgState = s.pgState := rfl
@[simp] theorem State.respond_ver (r : Response) (s : State) : (s.respond r).ver = s.ver := rfl
@[simp] theorem State.respond_tid (r : Response) (s : State) : (s.respond r).tid = s.tid := rfl
@[simp] theorem State.respond_stk (r : Response) (s : State) : (s.respond r).stk = s.stk := rfl
@[simp] theorem State.respond_pktCount (r : Response) (s : State) : (s.respond r).pktCount = s.pktCount := rfl
@[simp] theorem State.respond_attemptStart (r : Response) (s : State) : (s.respond r).attemptStart = s.attemptStart := rfl
@[simp] theorem State.respond_busy (r : Response) (s : State) : (s.respond r).busy = false := rfl
@[simp] theorem State.respond_provisional (r : Response) (s : State) : (s.respond r).provisional = s.provisional := rfl
@[simp] theorem State.respond_inbox (r : Response) (s : State) : (s.respond r).inbox = s.inbox := rfl
@[simp] theorem State.respond_hostMem (r : Response) (s : State) : (s.respond r).hostMem = s.hostMem := rfl
@[simp] theorem State.respond_delivered (r : Response) (s : State) : (s.respond r).delivered = s.delivered ++ [.response r] := rfl

@[simp] theorem State.fail_cfg (c : Cause) (s : State) : (s.fail c).cfg = s.cfg := rfl
@[simp] theorem State.fail_buf (c : Cause) (s : State) : (s.fail c).buf = s.buf := rfl
@[simp] theorem State.fail_len (c : Cause) (s : State) : (s.fail c).len = s.len := rfl
@[simp] theorem State.fail_bitOffset (c : Cause) (s : State) : (s.fail c).bitOffset = s.bitOffset := rfl
@[simp] theorem State.fail_fault (c : Cause) (s : State) : (s.fail c).fault = (s.fault || c.sticky) := rfl
@[simp] theorem State.fail_acc (c : Cause) (s : State) : (s.fail c).acc = s.acc := rfl
@[simp] theorem State.fail_groups (c : Cause) (s : State) : (s.fail c).groups = s.groups := rfl
@[simp] theorem State.fail_pgState (c : Cause) (s : State) : (s.fail c).pgState = s.pgState := rfl
@[simp] theorem State.fail_ver (c : Cause) (s : State) : (s.fail c).ver = s.ver := rfl
@[simp] theorem State.fail_tid (c : Cause) (s : State) : (s.fail c).tid = s.tid := rfl
@[simp] theorem State.fail_stk (c : Cause) (s : State) : (s.fail c).stk = s.stk := rfl
@[simp] theorem State.fail_pktCount (c : Cause) (s : State) : (s.fail c).pktCount = s.pktCount := rfl
@[simp] theorem State.fail_attemptStart (c : Cause) (s : State) : (s.fail c).attemptStart = s.attemptStart := rfl
@[simp] theorem State.fail_busy (c : Cause) (s : State) : (s.fail c).busy = false := rfl
@[simp] theorem State.fail_provisional (c : Cause) (s : State) : (s.fail c).provisional = s.provisional := rfl
@[simp] theorem State.fail_inbox (c : Cause) (s : State) : (s.fail c).inbox = s.inbox := rfl
@[simp] theorem State.fail_hostMem (c : Cause) (s : State) : (s.fail c).hostMem = s.hostMem := rfl
@[simp] theorem State.fail_delivered (c : Cause) (s : State) : (s.fail c).delivered = s.delivered ++ [.response (Response.failure c)] := rfl

@[simp] theorem State.emit_cfg (e : Event) (s : State) : (s.emit e).cfg = s.cfg := rfl
@[simp] theorem State.emit_buf (e : Event) (s : State) : (s.emit e).buf = s.buf := rfl
@[simp] theorem State.emit_len (e : Event) (s : State) : (s.emit e).len = s.len := rfl
@[simp] theorem State.emit_bitOffset (e : Event) (s : State) : (s.emit e).bitOffset = s.bitOffset := rfl
@[simp] theorem State.emit_fault (e : Event) (s : State) : (s.emit e).fault = s.fault := rfl
@[simp] theorem State.emit_acc (e : Event) (s : State) : (s.emit e).acc = s.acc := rfl
@[simp] theorem State.emit_groups (e : Event) (s : State) : (s.emit e).groups = s.groups := rfl
@[simp] theorem State.emit_pgState (e : Event) (s : State) : (s.emit e).pgState = s.pgState := rfl
@[simp] theorem State.emit_ver (e : Event) (s : State) : (s.emit e).ver = s.ver := rfl
@[simp] theorem State.emit_tid (e : Event) (s : State) : (s.emit e).tid = s.tid := rfl
@[simp] theorem State.emit_stk (e : Event) (s : State) : (s.emit e).stk = s.stk := rfl
@[simp] theorem State.emit_pktCount (e : Event) (s : State) : (s.emit e).pktCount = s.pktCount := rfl
@[simp] theorem State.emit_attemptStart (e : Event) (s : State) : (s.emit e).attemptStart = s.attemptStart := rfl
@[simp] theorem State.emit_busy (e : Event) (s : State) : (s.emit e).busy = s.busy := rfl
@[simp] theorem State.emit_provisional (e : Event) (s : State) : (s.emit e).provisional = s.provisional ++ [e] := rfl
@[simp] theorem State.emit_inbox (e : Event) (s : State) : (s.emit e).inbox = s.inbox := rfl
@[simp] theorem State.emit_hostMem (e : Event) (s : State) : (s.emit e).hostMem = s.hostMem := rfl
@[simp] theorem State.emit_delivered (e : Event) (s : State) : (s.emit e).delivered = s.delivered := rfl

@[simp] theorem State.commit_cfg (n : Nat) (s : State) : (s.commit n).cfg = s.cfg := rfl
@[simp] theorem State.commit_buf (n : Nat) (s : State) : (s.commit n).buf = s.buf := rfl
@[simp] theorem State.commit_len (n : Nat) (s : State) : (s.commit n).len = s.len := rfl
@[simp] theorem State.commit_bitOffset (n : Nat) (s : State) : (s.commit n).bitOffset = s.bitOffset := rfl
@[simp] theorem State.commit_fault (n : Nat) (s : State) : (s.commit n).fault = s.fault := rfl
@[simp] theorem State.commit_acc (n : Nat) (s : State) : (s.commit n).acc = s.acc := rfl
@[simp] theorem State.commit_groups (n : Nat) (s : State) : (s.commit n).groups = s.groups := rfl
@[simp] theorem State.commit_pgState (n : Nat) (s : State) : (s.commit n).pgState = s.pgState := rfl
@[simp] theorem State.commit_ver (n : Nat) (s : State) : (s.commit n).ver = s.ver := rfl
@[simp] theorem State.commit_tid (n : Nat) (s : State) : (s.commit n).tid = s.tid := rfl
@[simp] theorem State.commit_stk (n : Nat) (s : State) : (s.commit n).stk = s.stk := rfl
@[simp] theorem State.commit_pktCount (n : Nat) (s : State) : (s.commit n).pktCount = s.pktCount := rfl
@[simp] theorem State.commit_attemptStart (n : Nat) (s : State) : (s.commit n).attemptStart = s.attemptStart := rfl
@[simp] theorem State.commit_busy (n : Nat) (s : State) : (s.commit n).busy = s.busy := rfl
@[simp] theorem State.commit_provisional (n : Nat) (s : State) : (s.commit n).provisional = [] := rfl
@[simp] theorem State.commit_inbox (n : Nat) (s : State) : (s.commit n).inbox = s.inbox := rfl
@[simp] theorem State.commit_hostMem (n : Nat) (s : State) : (s.commit n).hostMem = s.hostMem := rfl
@[simp] theorem State.commit_delivered (n : Nat) (s : State) : (s.commit n).delivered = s.delivered ++ (committedPrefix n 0 s.provisional).map .event := rfl

@[simp] theorem State.discard_cfg (s : State) : (s.discard).cfg = s.cfg := rfl
@[simp] theorem State.discard_buf (s : State) : (s.discard).buf = s.buf := rfl
@[simp] theorem State.discard_len (s : State) : (s.discard).len = s.len := rfl
@[simp] theorem State.discard_bitOffset (s : State) : (s.discard).bitOffset = s.bitOffset := rfl
@[simp] theorem State.discard_fault (s : State) : (s.discard).fault = s.fault := rfl
@[simp] theorem State.discard_acc (s : State) : (s.discard).acc = s.acc := rfl
@[simp] theorem State.discard_groups (s : State) : (s.discard).groups = s.groups := rfl
@[simp] theorem State.discard_pgState (s : State) : (s.discard).pgState = s.pgState := rfl
@[simp] theorem State.discard_ver (s : State) : (s.discard).ver = s.ver := rfl
@[simp] theorem State.discard_tid (s : State) : (s.discard).tid = s.tid := rfl
@[simp] theorem State.discard_stk (s : State) : (s.discard).stk = s.stk := rfl
@[simp] theorem State.discard_pktCount (s : State) : (s.discard).pktCount = s.pktCount := rfl
@[simp] theorem State.discard_attemptStart (s : State) : (s.discard).attemptStart = s.attemptStart := rfl
@[simp] theorem State.discard_busy (s : State) : (s.discard).busy = s.busy := rfl
@[simp] theorem State.discard_provisional (s : State) : (s.discard).provisional = [] := rfl
@[simp] theorem State.discard_inbox (s : State) : (s.discard).inbox = s.inbox := rfl
@[simp] theorem State.discard_hostMem (s : State) : (s.discard).hostMem = s.hostMem := rfl
@[simp] theorem State.discard_delivered (s : State) : (s.discard).delivered = s.delivered := rfl

@[simp] theorem State.unwind_cfg (s : State) : (s.unwind).cfg = s.cfg := rfl
@[simp] theorem State.unwind_buf (s : State) : (s.unwind).buf = s.buf := rfl
@[simp] theorem State.unwind_len (s : State) : (s.unwind).len = s.len := rfl
@[simp] theorem State.unwind_bitOffset (s : State) : (s.unwind).bitOffset = s.bitOffset := rfl
@[simp] theorem State.unwind_fault (s : State) : (s.unwind).fault = s.fault := rfl
@[simp] theorem State.unwind_acc (s : State) : (s.unwind).acc = s.acc := rfl
@[simp] theorem State.unwind_groups (s : State) : (s.unwind).groups = s.groups := rfl
@[simp] theorem State.unwind_pgState (s : State) : (s.unwind).pgState = .idle := rfl
@[simp] theorem State.unwind_ver (s : State) : (s.unwind).ver = s.ver := rfl
@[simp] theorem State.unwind_tid (s : State) : (s.unwind).tid = s.tid := rfl
@[simp] theorem State.unwind_stk (s : State) : (s.unwind).stk = [] := rfl
@[simp] theorem State.unwind_pktCount (s : State) : (s.unwind).pktCount = s.pktCount := rfl
@[simp] theorem State.unwind_attemptStart (s : State) : (s.unwind).attemptStart = s.attemptStart := rfl
@[simp] theorem State.unwind_busy (s : State) : (s.unwind).busy = s.busy := rfl
@[simp] theorem State.unwind_provisional (s : State) : (s.unwind).provisional = s.provisional := rfl
@[simp] theorem State.unwind_inbox (s : State) : (s.unwind).inbox = s.inbox := rfl
@[simp] theorem State.unwind_hostMem (s : State) : (s.unwind).hostMem = s.hostMem := rfl
@[simp] theorem State.unwind_delivered (s : State) : (s.unwind).delivered = s.delivered := rfl

@[simp] theorem State.placeByte_cfg (a : Word32) (b : Byte) (s : State) : (s.placeByte a b).cfg = s.cfg := rfl
@[simp] theorem State.placeByte_buf (a : Word32) (b : Byte) (s : State) : (s.placeByte a b).buf = s.buf := rfl
@[simp] theorem State.placeByte_len (a : Word32) (b : Byte) (s : State) : (s.placeByte a b).len = s.len := rfl
@[simp] theorem State.placeByte_bitOffset (a : Word32) (b : Byte) (s : State) : (s.placeByte a b).bitOffset = s.bitOffset := rfl
@[simp] theorem State.placeByte_fault (a : Word32) (b : Byte) (s : State) : (s.placeByte a b).fault = s.fault := rfl
@[simp] theorem State.placeByte_acc (a : Word32) (b : Byte) (s : State) : (s.placeByte a b).acc = s.acc := rfl
@[simp] theorem State.placeByte_groups (a : Word32) (b : Byte) (s : State) : (s.placeByte a b).groups = s.groups := rfl
@[simp] theorem State.placeByte_pgState (a : Word32) (b : Byte) (s : State) : (s.placeByte a b).pgState = s.pgState := rfl
@[simp] theorem State.placeByte_ver (a : Word32) (b : Byte) (s : State) : (s.placeByte a b).ver = s.ver := rfl
@[simp] theorem State.placeByte_tid (a : Word32) (b : Byte) (s : State) : (s.placeByte a b).tid = s.tid := rfl
@[simp] theorem State.placeByte_stk (a : Word32) (b : Byte) (s : State) : (s.placeByte a b).stk = s.stk := rfl
@[simp] theorem State.placeByte_pktCount (a : Word32) (b : Byte) (s : State) : (s.placeByte a b).pktCount = s.pktCount := rfl
@[simp] theorem State.placeByte_attemptStart (a : Word32) (b : Byte) (s : State) : (s.placeByte a b).attemptStart = s.attemptStart := rfl
@[simp] theorem State.placeByte_busy (a : Word32) (b : Byte) (s : State) : (s.placeByte a b).busy = s.busy := rfl
@[simp] theorem State.placeByte_provisional (a : Word32) (b : Byte) (s : State) : (s.placeByte a b).provisional = s.provisional := rfl
@[simp] theorem State.placeByte_inbox (a : Word32) (b : Byte) (s : State) : (s.placeByte a b).inbox = s.inbox := rfl
@[simp] theorem State.placeByte_hostMem (a : Word32) (b : Byte) (s : State) : (s.placeByte a b).hostMem = s.hostMem.write a.toNat b := rfl
@[simp] theorem State.placeByte_delivered (a : Word32) (b : Byte) (s : State) : (s.placeByte a b).delivered = s.delivered := rfl

@[simp] theorem State.resetBlock_cfg (s : State) : s.resetBlock.cfg = s.cfg := rfl
@[simp] theorem State.resetBlock_buf (s : State) : s.resetBlock.buf = ⟨[]⟩ := rfl
@[simp] theorem State.resetBlock_len (s : State) : s.resetBlock.len = 0 := rfl
@[simp] theorem State.resetBlock_bitOffset (s : State) : s.resetBlock.bitOffset = 0 := rfl
@[simp] theorem State.resetBlock_fault (s : State) : s.resetBlock.fault = false := rfl
@[simp] theorem State.resetBlock_acc (s : State) : s.resetBlock.acc = 0 := rfl
@[simp] theorem State.resetBlock_groups (s : State) : s.resetBlock.groups = 0 := rfl
@[simp] theorem State.resetBlock_pgState (s : State) : s.resetBlock.pgState = .idle := rfl
@[simp] theorem State.resetBlock_ver (s : State) : s.resetBlock.ver = 0 := rfl
@[simp] theorem State.resetBlock_tid (s : State) : s.resetBlock.tid = 0 := rfl
@[simp] theorem State.resetBlock_stk (s : State) : s.resetBlock.stk = [] := rfl
@[simp] theorem State.resetBlock_pktCount (s : State) : s.resetBlock.pktCount = 0 := rfl
@[simp] theorem State.resetBlock_attemptStart (s : State) : s.resetBlock.attemptStart = 0 := rfl
@[simp] theorem State.resetBlock_busy (s : State) : s.resetBlock.busy = false := rfl
@[simp] theorem State.resetBlock_provisional (s : State) : s.resetBlock.provisional = [] := rfl
@[simp] theorem State.resetBlock_inbox (s : State) : s.resetBlock.inbox = s.inbox := rfl
@[simp] theorem State.resetBlock_hostMem (s : State) : s.resetBlock.hostMem = s.hostMem := rfl
@[simp] theorem State.resetBlock_delivered (s : State) : s.resetBlock.delivered = s.delivered := rfl

end Sys2Proof.Machine
end

