-- ==== Sys2Proof/Laws/Command.lean ====
section
/-! SUPPORT. Accepting a command, the words of the command port, and everything a step can do. -/

namespace Sys2Proof.Machine

/-! ### Acceptance (R208, R210) -/

theorem accept_faulted {s : State} (body : State → State) (h : s.fault = true) :
    s.accept body = { s with busy := false, delivered := s.delivered ++ [.response (Response.failure .faulted)] } := by
  simp [State.accept, h, State.fail, State.latch, State.respond, Cause.sticky]

theorem accept_ok {s : State} (body : State → State) (h : s.fault = false) :
    s.accept body = body { s with busy := true } := by
  simp [State.accept, h]

/-- A reserved or malformed word while `FAULT` is 0 (R207). -/
theorem rejectCommand_ok {s : State} (h : s.fault = false) :
    s.rejectCommand =
      { s with fault := true, busy := false, delivered := s.delivered ++ [.response (Response.failure .illegalCmd)] } := by
  simp [State.rejectCommand, accept_ok _ h, State.fail, State.latch, State.respond, Cause.sticky]

/-- The commands of R102 and R103 while `FAULT` is 0, by how `consume_W` ends. -/
theorem consumeCommand_ok {W count : Nat} {s : State} (h : s.fault = false) :
    consumeCommand W count s = match consume W count { s with busy := true } with
      | .ok v t => t.respond (Response.success (v.setWidth 64) 0 0 0)
      | .raise c t => t.fail c := accept_ok _ h

/-! ### The words of the command port (R65, R67) -/

/-- Everything a command word can be. -/
theorem decodeCommand_cases (op : BitVec 8) (arg : Word32) :
    (∃ e, decodeCommand op arg = .error e) ∨
      decodeCommand op arg = .ok (.load arg) ∨
      (∃ n, decodeCommand op arg = .ok (.consume8 n)) ∨ (∃ n, decodeCommand op arg = .ok (.consume16 n)) ∨
      decodeCommand op arg = .ok .varint ∨ decodeCommand op arg = .ok .packet ∨ decodeCommand op arg = .ok .stream ∨
      (∃ x, decodeCommand op arg = .ok (.reservedOp0 x)) ∨ ∃ x, decodeCommand op arg = .ok (.reservedOp7 x) := by
  unfold decodeCommand
  dsimp only
  by_cases hn : BitVec.extractLsb' 0 5 op = (0 : Count5) <;> simp only [hn, if_true, if_false] <;> split <;> simp

/-! ### Steps -/

/-- Everything a step that answers a next state can do. -/
theorem step_cases {s t : State} (h : step s = .next t) :
    s.busy = false ∧
      (s.inbox = [] ∧ t = s ∨
        (∃ op arg rest, s.inbox = .command op arg :: rest ∧ runCommand op arg { s with inbox := rest } = .next t) ∨
        (∃ rest, s.inbox = .reset :: rest ∧ t = State.resetBlock { s with inbox := rest }) ∨
        ∃ addr b rest, s.inbox = .place addr b :: rest ∧ t = State.placeByte addr b { s with inbox := rest }) := by
  unfold step at h
  split_ifs at h with hb
  refine ⟨by simpa using hb, ?_⟩
  split at h
  · rename_i hi
    exact .inl ⟨hi, by simpa using h.symm⟩
  · rename_i a rest hi
    cases a with
    | command op arg => exact .inr (.inl ⟨op, arg, rest, hi, h⟩)
    | reset => exact .inr (.inr (.inl ⟨rest, hi, by simpa [hostAct] using h.symm⟩))
    | place addr b => exact .inr (.inr (.inr ⟨addr, b, rest, hi, by simpa [hostAct] using h.symm⟩))

/-- Everything a command on the port can do: the word is refused, or it is one of the commands and that command runs. -/
theorem runCommand_cases {op : BitVec 8} {arg : Word32} {s t : State} (h : runCommand op arg s = .next t) :
    t = s.rejectCommand ∨ execLoad arg s = .next t ∨ (∃ n : Count5, t = consumeCommand 8 n.toNat s) ∨
      (∃ n : Count5, t = consumeCommand 16 n.toNat s) ∨ execVarint s = .next t ∨ execPacket s = .next t ∨
      execStream s = .next t := by
  unfold runCommand at h
  simp only [decode] at h
  rcases decodeCommand_cases op arg with ⟨e, hd⟩ | hd | ⟨n, hd⟩ | ⟨n, hd⟩ | hd | hd | hd | ⟨x, hd⟩ | ⟨x, hd⟩ <;>
    rw [hd] at h <;> simp only [exec, execConsume8, execConsume16, execReservedOp0, execReservedOp7] at h
  · exact .inl (by simpa using h.symm)
  · exact .inr (.inl h)
  · exact .inr (.inr (.inl ⟨n, by simpa using h.symm⟩))
  · exact .inr (.inr (.inr (.inl ⟨n, by simpa using h.symm⟩)))
  · exact .inr (.inr (.inr (.inr (.inl h))))
  · exact .inr (.inr (.inr (.inr (.inr (.inl h)))))
  · exact .inr (.inr (.inr (.inr (.inr (.inr h)))))
  · exact .inl (by simpa using h.symm)
  · exact .inl (by simpa using h.symm)

end Sys2Proof.Machine
end

