-- ==== Sys2Proof/Laws/Memory.lean ====
section
/-! SUPPORT. Byte memories: what a read gives after a write, and that every operation keeps the canonical form. -/

namespace Sys2Proof.Machine

/-- The canonical form of a list of cells, as recursion sees it. -/
theorem cells_wf_cons {c : Host.Cell} {cs : List Host.Cell} :
    Memory.wf ⟨c :: cs⟩ ↔ (∀ d ∈ cs, c.1 < d.1) ∧ c.2 ≠ Memory.unlisted ∧ Memory.wf ⟨cs⟩ := by
  simp only [Memory.wf, List.pairwise_cons, List.mem_cons, forall_eq_or_imp]
  tauto

theorem memory_wf_nil : Memory.wf ⟨[]⟩ := by simp [Memory.wf]

/-- A list whose addresses all lie above `a` has nothing listed at `a`. -/
theorem cellsRead_above {cs : List Host.Cell} {a : Nat} (h : ∀ d ∈ cs, a < d.1) :
    cellsRead cs a = Memory.unlisted := by
  induction cs with
  | nil => rfl
  | cons c cs ih =>
    have hc := h c (by simp)
    simp only [cellsRead]
    rw [if_neg (by omega)]
    exact ih fun d hd => h d (by simp [hd])

/-- A read after a write to canonical cells: the written byte at its address, everything else as before. -/
theorem cellsRead_write {cs : List Host.Cell} (a : Nat) (v : Byte) (b : Nat) (h : Memory.wf ⟨cs⟩) :
    cellsRead (cellsWrite a v cs) b = if a = b then v else cellsRead cs b := by
  induction cs with
  | nil =>
    simp only [cellsWrite]
    by_cases hv : v = Memory.unlisted
    · simp [hv, cellsRead]
    · simp [hv, cellsRead]
  | cons c cs ih =>
    obtain ⟨hlt, -, hwf⟩ := cells_wf_cons.mp h
    obtain ⟨x, w⟩ := c
    have above : ∀ y, y ≤ x → cellsRead cs y = Memory.unlisted := fun y hy =>
      cellsRead_above fun d hd => Nat.lt_of_le_of_lt hy (hlt d hd)
    simp only [cellsWrite]
    by_cases h1 : a < x
    · by_cases hv : v = Memory.unlisted
      · by_cases hab : a = b
        · subst hab
          simp [h1, hv, cellsRead, above a (by omega), show x ≠ a by omega]
        · simp [h1, hv, hab]
      · by_cases hab : a = b
        · subst hab; simp [h1, hv, cellsRead]
        · simp [h1, hv, hab, cellsRead]
    · by_cases h2 : a = x
      · subst h2
        by_cases hv : v = Memory.unlisted
        · by_cases hab : a = b
          · subst hab; simp [hv, above a (by omega)]
          · simp [hv, hab, cellsRead]
        · by_cases hab : a = b <;> simp [hv, hab, cellsRead]
      · by_cases hxb : x = b
        · subst hxb; simp [h1, h2, cellsRead]
        · simp [h1, h2, cellsRead, hxb, ih hwf]

/-- Every address a write leaves in the list was there or is the written one. -/
theorem cellsWrite_mem {cs : List Host.Cell} {a : Nat} {v : Byte} {d : Host.Cell} (h : d ∈ cellsWrite a v cs) :
    d ∈ cs ∨ (d = (a, v) ∧ v ≠ Memory.unlisted) := by
  induction cs with
  | nil =>
    simp only [cellsWrite] at h
    by_cases hv : v = Memory.unlisted <;> simp_all
  | cons c cs ih =>
    obtain ⟨x, w⟩ := c
    simp only [cellsWrite] at h
    split_ifs at h with h1 hv h2 hv
    · exact .inl h
    · rcases List.mem_cons.mp h with h | h
      · exact .inr ⟨h, hv⟩
      · exact .inl h
    · exact .inl (by simp [h])
    · rcases List.mem_cons.mp h with h | h
      · exact .inr ⟨h, hv⟩
      · exact .inl (by simp [h])
    · rcases List.mem_cons.mp h with h | h
      · exact .inl (by simp [h])
      · rcases ih h with h | h
        · exact .inl (by simp [h])
        · exact .inr h

theorem cellsWrite_wf {cs : List Host.Cell} (a : Nat) (v : Byte) (h : Memory.wf ⟨cs⟩) :
    Memory.wf ⟨cellsWrite a v cs⟩ := by
  induction cs with
  | nil =>
    simp only [cellsWrite]
    by_cases hv : v = Memory.unlisted <;> simp [Memory.wf, hv]
  | cons c cs ih =>
    obtain ⟨hlt, hne, hwf⟩ := cells_wf_cons.mp h
    obtain ⟨x, w⟩ := c
    simp only [cellsWrite]
    split_ifs with h1 hv h2 hv
    · exact h
    · refine cells_wf_cons.mpr ⟨fun d hd => ?_, hv, h⟩
      rcases List.mem_cons.mp hd with rfl | hd
      · exact h1
      · exact Nat.lt_trans h1 (hlt d hd)
    · exact hwf
    · exact cells_wf_cons.mpr ⟨fun d hd => h2 ▸ hlt d hd, hv, hwf⟩
    · refine cells_wf_cons.mpr ⟨fun d hd => ?_, hne, ih hwf⟩
      rcases cellsWrite_mem hd with hd | ⟨rfl, -⟩
      · exact hlt d hd
      · show x < a
        omega

/-! ### The operations -/

/-- What a read gives after a write (R51). -/
theorem Memory.read_write (m : Memory) (a : Nat) (v : Byte) (b : Nat) (h : m.wf) :
    (m.write a v).read b = if a = b then v else m.read b :=
  cellsRead_write a v b h

theorem Memory.write_wf {m : Memory} (a : Nat) (v : Byte) (h : m.wf) : (m.write a v).wf := cellsWrite_wf a v h

/-- Reset lists nothing in either memory. -/
theorem reset_memories_wf : State.reset.buf.wf ∧ State.reset.hostMem.wf := ⟨memory_wf_nil, memory_wf_nil⟩

theorem copyBytes_wf (k : Nat) (src : Memory) {dst : Memory} (h : dst.wf) : (copyBytes k src dst).wf := by
  induction k with
  | zero => exact h
  | succ k ih => exact Memory.write_wf _ _ ih

/-- LOAD's copy, read back: below `k` the source's bytes, from `k` on the destination's (R91). -/
theorem copyBytes_read (k : Nat) (src : Memory) {dst : Memory} (h : dst.wf) (a : Nat) :
    (copyBytes k src dst).read a = if a < k then src.read a else dst.read a := by
  induction k with
  | zero => simp [copyBytes]
  | succ k ih =>
    rw [copyBytes, Memory.read_write _ _ _ _ (copyBytes_wf k src h), ih]
    by_cases h1 : k = a
    · subst h1; simp
    · by_cases h2 : a < k
      · simp [h1, h2, show a < k + 1 by omega]
      · simp [h1, h2, show ¬ a < k + 1 by omega]

theorem placeBytes_wf (a : Nat) (bs : List Byte) {m : Memory} (h : m.wf) : (placeBytes a bs m).wf := by
  induction bs generalizing a m with
  | nil => exact h
  | cons b bs ih => exact ih _ (Memory.write_wf _ _ h)

/-- Canonical cells are determined by what they read. -/
theorem cells_ext {cs ds : List Host.Cell} (hc : Memory.wf ⟨cs⟩) (hd : Memory.wf ⟨ds⟩)
    (h : ∀ a, cellsRead cs a = cellsRead ds a) : cs = ds := by
  induction cs generalizing ds with
  | nil =>
    cases ds with
    | nil => rfl
    | cons d ds =>
      obtain ⟨-, hne, -⟩ := cells_wf_cons.mp hd
      have := h d.1
      simp [cellsRead] at this
      exact absurd this.symm hne
  | cons c cs ih =>
    obtain ⟨hlt, hne, hwf⟩ := cells_wf_cons.mp hc
    cases ds with
    | nil =>
      have := h c.1
      simp [cellsRead] at this
      exact absurd this hne
    | cons d ds =>
      obtain ⟨hlt', hne', hwf'⟩ := cells_wf_cons.mp hd
      obtain ⟨x, v⟩ := c
      obtain ⟨y, w⟩ := d
      have hxy : x = y := by
        rcases Nat.lt_trichotomy x y with hl | he | hl
        · have := h x
          simp only [cellsRead, if_neg (show y ≠ x by omega)] at this
          rw [cellsRead_above fun d hd => Nat.lt_trans hl (hlt' d hd)] at this
          exact absurd this hne
        · exact he
        · have := h y
          simp only [cellsRead, if_neg (show x ≠ y by omega)] at this
          rw [cellsRead_above fun d hd => Nat.lt_trans hl (hlt d hd)] at this
          exact absurd this.symm hne'
      subst hxy
      have hvw : v = w := by simpa [cellsRead] using h x
      subst hvw
      congr 1
      refine ih hwf hwf' fun a => ?_
      by_cases hax : x = a
      · subst hax
        rw [cellsRead_above hlt, cellsRead_above hlt']
      · simpa [cellsRead, hax] using h a

/-- Canonical memories that read alike are equal. -/
theorem Memory.ext_read {m n : Memory} (hm : m.wf) (hn : n.wf) (h : ∀ a, m.read a = n.read a) : m = n := by
  obtain ⟨cs⟩ := m
  obtain ⟨ds⟩ := n
  exact congrArg _ (cells_ext hm hn h)

end Sys2Proof.Machine
end

