-- ==== Sys2Proof/Laws/PerInstr.lean ====
section
/-! SUPPORT. Facts about every instruction, one lemma per constructor. -/

namespace Sys2Proof

/-- The number of bits of a word. -/
def Code.width : Code → Nat
  | .command _ _ => 8
  | .stream _ bits => bits.length
  | .event _ => 104

/-- The width spec/opcode_table.json gives the row of an instruction. -/
def Instr.tableWidth : Instr → Nat
  | .load _ | .consume8 _ | .consume16 _ | .varint | .packet | .stream | .reservedOp0 _ | .reservedOp7 _ => 8
  | .version | .typeid | .ltype | .group | .totalbits | .npackets | .read _ => 8
  | .varintGroup _ _ => 5
  | .pktHeader _ _ => 6
  | .pktLiteral _ ps => 6 + 5 * ps.length
  | .pktSumM0 _ _ => 22
  | .pktSumM1 _ _ => 18
  | .pktProductM0 _ _ => 22
  | .pktProductM1 _ _ => 18
  | .pktMinimumM0 _ _ => 22
  | .pktMinimumM1 _ _ => 18
  | .pktMaximumM0 _ _ => 22
  | .pktMaximumM1 _ _ => 18
  | .pktGreaterM0 _ _ => 22
  | .pktGreaterM1 _ _ => 18
  | .pktLessM0 _ _ => 22
  | .pktLessM1 _ _ => 18
  | .pktEqualM0 _ _ => 22
  | .pktEqualM1 _ _ => 18
  | .evLiteral _ _ _ | .evOpBegin _ _ _ _ | .evOpEnd _ => 104

@[simp] theorem bitsOfNat_length (w n : Nat) : (bitsOfNat w n).length = w := by
  induction w with
  | zero => rfl
  | succ w ih => simp [bitsOfNat, ih]

@[simp] theorem fieldBits_length {w : Nat} (v : BitVec w) : (fieldBits v).length = w := bitsOfNat_length w _

theorem varintBits_length (ps : List (BitVec 4)) : (varintBits ps).length = 5 * ps.length := by
  induction ps with
  | nil => rfl
  | cons p ps ih =>
    cases ps with
    | nil => simp [varintBits, groupBits]
    | cons q qs => simp only [varintBits, groupBits, List.length_append, List.length_cons, fieldBits_length, ih]; omega

namespace Laws.WordWidth

/-- The word of an instruction has the width of its row. -/
def Statement (i : Instr) : Prop := (encode i).width = i.tableWidth

theorem load (arg : Word32) : Statement (.load arg) := rfl
theorem consume8 (n : Count5) : Statement (.consume8 n) := rfl
theorem consume16 (n : Count5) : Statement (.consume16 n) := rfl
theorem varint : Statement .varint := rfl
theorem packet : Statement .packet := rfl
theorem stream : Statement .stream := rfl
theorem reservedOp0 (x : Count5) : Statement (.reservedOp0 x) := rfl
theorem reservedOp7 (x : Count5) : Statement (.reservedOp7 x) := rfl
theorem version : Statement .version := rfl
theorem typeid : Statement .typeid := rfl
theorem ltype : Statement .ltype := rfl
theorem group : Statement .group := rfl
theorem totalbits : Statement .totalbits := rfl
theorem npackets : Statement .npackets := rfl
theorem read (n : Count5) : Statement (.read n) := rfl
theorem varintGroup (c : Bool) (p : BitVec 4) : Statement (.varintGroup c p) := by
  simp [Statement, encode, Code.width, Instr.tableWidth, groupBits]
theorem pktHeader (v t : BitVec 3) : Statement (.pktHeader v t) := by
  simp [Statement, encode, Code.width, Instr.tableWidth]
theorem pktLiteral (v : BitVec 3) (ps : List (BitVec 4)) : Statement (.pktLiteral v ps) := by
  simp [Statement, encode, Code.width, Instr.tableWidth, varintBits_length]
  omega
theorem pktSumM0 (v : BitVec 3) (l : BitVec 15) : Statement (.pktSumM0 v l) := by
  simp [Statement, encode, Code.width, Instr.tableWidth, headerM0Bits]
theorem pktSumM1 (v : BitVec 3) (c : BitVec 11) : Statement (.pktSumM1 v c) := by
  simp [Statement, encode, Code.width, Instr.tableWidth, headerM1Bits]
theorem pktProductM0 (v : BitVec 3) (l : BitVec 15) : Statement (.pktProductM0 v l) := by
  simp [Statement, encode, Code.width, Instr.tableWidth, headerM0Bits]
theorem pktProductM1 (v : BitVec 3) (c : BitVec 11) : Statement (.pktProductM1 v c) := by
  simp [Statement, encode, Code.width, Instr.tableWidth, headerM1Bits]
theorem pktMinimumM0 (v : BitVec 3) (l : BitVec 15) : Statement (.pktMinimumM0 v l) := by
  simp [Statement, encode, Code.width, Instr.tableWidth, headerM0Bits]
theorem pktMinimumM1 (v : BitVec 3) (c : BitVec 11) : Statement (.pktMinimumM1 v c) := by
  simp [Statement, encode, Code.width, Instr.tableWidth, headerM1Bits]
theorem pktMaximumM0 (v : BitVec 3) (l : BitVec 15) : Statement (.pktMaximumM0 v l) := by
  simp [Statement, encode, Code.width, Instr.tableWidth, headerM0Bits]
theorem pktMaximumM1 (v : BitVec 3) (c : BitVec 11) : Statement (.pktMaximumM1 v c) := by
  simp [Statement, encode, Code.width, Instr.tableWidth, headerM1Bits]
theorem pktGreaterM0 (v : BitVec 3) (l : BitVec 15) : Statement (.pktGreaterM0 v l) := by
  simp [Statement, encode, Code.width, Instr.tableWidth, headerM0Bits]
theorem pktGreaterM1 (v : BitVec 3) (c : BitVec 11) : Statement (.pktGreaterM1 v c) := by
  simp [Statement, encode, Code.width, Instr.tableWidth, headerM1Bits]
theorem pktLessM0 (v : BitVec 3) (l : BitVec 15) : Statement (.pktLessM0 v l) := by
  simp [Statement, encode, Code.width, Instr.tableWidth, headerM0Bits]
theorem pktLessM1 (v : BitVec 3) (c : BitVec 11) : Statement (.pktLessM1 v c) := by
  simp [Statement, encode, Code.width, Instr.tableWidth, headerM1Bits]
theorem pktEqualM0 (v : BitVec 3) (l : BitVec 15) : Statement (.pktEqualM0 v l) := by
  simp [Statement, encode, Code.width, Instr.tableWidth, headerM0Bits]
theorem pktEqualM1 (v : BitVec 3) (c : BitVec 11) : Statement (.pktEqualM1 v c) := by
  simp [Statement, encode, Code.width, Instr.tableWidth, headerM1Bits]
theorem evLiteral (v : BitVec 3) (a : Word32) (d : Word64) : Statement (.evLiteral v a d) := rfl
theorem evOpBegin (v t : BitVec 3) (m : Bool) (l : BitVec 15) : Statement (.evOpBegin v t m l) := rfl
theorem evOpEnd (a : Word32) : Statement (.evOpEnd a) := rfl

end Laws.WordWidth

end Sys2Proof
end

