-- ==== Sys2Proof/Laws/Pipeline.lean ====
section
/-! SUPPORT. What running several steps, the host's sequence of a decode, and reading its outputs can do. -/

namespace Sys2Proof.Machine

/-! ### Several steps -/

@[simp] theorem runSteps_zero (s : State) : runSteps 0 s = .next s := rfl

theorem runSteps_of_next {s t : State} (n : Nat) (h : step s = .next t) : runSteps (n + 1) s = runSteps n t := by
  simp only [runSteps, h]

/-- A run that goes on after `n` steps. -/
theorem runSteps_add {s t : State} (n k : Nat) (h : runSteps n s = .next t) : runSteps (n + k) s = runSteps k t := by
  induction n generalizing s with
  | zero => simp only [runSteps_zero, Host.Outcome.next.injEq] at h; rw [h, Nat.zero_add]
  | succ n ih =>
    rw [Nat.succ_add]
    simp only [runSteps] at h ⊢
    split at h
    · rw [ih h]
    · rename_i hs; exact absurd h (hs t)

/-- The bytes of a decode reach the host's memory one step each, from the address where the first goes. -/
theorem runSteps_place (bytes : List Byte) (a k : Nat) (s : State) (rest : List HostAct) (hb : s.busy = false)
    (ha : a + bytes.length ≤ 2 ^ 32) :
    runSteps (bytes.length + k)
      { s with inbox := ((bytes.zipIdx a).map fun b => .place (BitVec.ofNat 32 b.2) b.1) ++ rest } =
    runSteps k { s with inbox := rest, hostMem := placeBytes a bytes s.hostMem } := by
  induction bytes generalizing a s with
  | nil => rw [List.length_nil, Nat.zero_add]; rfl
  | cons b bs ih =>
    simp only [List.length_cons] at ha ⊢
    rw [show bs.length + 1 + k = bs.length + k + 1 from by omega]
    rw [runSteps_of_next (t := { s with
      inbox := ((bs.zipIdx (a + 1)).map fun b => .place (BitVec.ofNat 32 b.2) b.1) ++ rest
      hostMem := s.hostMem.write a b })]
    · exact ih (a + 1) { s with hostMem := s.hostMem.write a b } hb (by omega)
    · have : a % 4294967296 = a := Nat.mod_eq_of_lt (by omega)
      simp [step, hb, hostAct, State.placeByte, this]

/-! ### Outputs -/

/-- One command's events and its response are one output. -/
theorem commandOutputs_command (pending es : List Event) (r : Response) (ds : List Delivery) :
    commandOutputs pending (es.map .event ++ .response r :: ds) = (pending ++ es, r) :: commandOutputs [] ds := by
  induction es generalizing pending with
  | nil => simp [commandOutputs]
  | cons e es ih => simp [commandOutputs, ih]

/-- Every response is in the outputs. -/
theorem mem_commandOutputs {pending : List Event} {ds : List Delivery} {r : Response} (h : .response r ∈ ds) :
    ∃ es, (es, r) ∈ commandOutputs pending ds := by
  induction ds generalizing pending with
  | nil => cases h
  | cons d ds ih =>
    cases d with
    | event e =>
      obtain ⟨es, he⟩ := ih (pending := pending ++ [e]) (by simpa using h)
      exact ⟨es, he⟩
    | response r' =>
      rcases List.mem_cons.1 h with h | h
      · cases h; exact ⟨pending, by simp [commandOutputs]⟩
      · obtain ⟨es, he⟩ := ih (pending := []) h
        exact ⟨es, List.mem_cons_of_mem _ he⟩

/-! ### The decode -/

/-- What a decode that succeeds has seen: LOAD's response, then STREAM's with the events returned, both successes. -/
theorem decodeBytes_ok {strictEnd : Bool} {bytes : List Byte} {s : State} {es : List Event}
    (h : decodeBytes strictEnd bytes s = .ok es) :
    bytes.length < 2 ^ 32 ∧ ∃ (t : State) (es' : List Event) (load stream : Response),
      decodeOnBlock bytes s = .next t ∧
      commandOutputs [] (t.delivered.drop s.delivered.length) = [(es', load), (es, stream)] ∧
      load.status = 0 ∧ stream.status = 0 ∧ (strictEnd && strictTrailing bytes stream) = false := by
  unfold decodeBytes at h
  split at h
  · cases h
  · rename_i hl
    split at h
    · rename_i t ht
      split at h
      · rename_i es' load events stream ho
        split at h
        · rename_i hc
          cases h
          exact ⟨by omega, t, es', load, stream, ht, ho, hc⟩
        · cases h
      · cases h
    · cases h

theorem decodeText_ok {strictEnd : Bool} {text : List Char} {s : State} {es : List Event}
    (h : decodeText strictEnd text s = .ok es) :
    ∃ bytes, hexDecode text = .ok bytes ∧ decodeBytes strictEnd bytes s = .ok es := by
  unfold decodeText at h
  split at h
  · exact ⟨_, ‹_›, h⟩
  · cases h

/-- There is one error (R191). -/
theorem pipelineError_unique (e : PipelineError) : e = .decodeOrEvaluate := by cases e; rfl

end Sys2Proof.Machine
end

