-- ==== Sys2Proof/Tests/Slice0.lean ====
section
/-! SUPPORT. Tests against the spec's words and vectors (spec/95_test_vectors.md), and for each obligation with hypotheses a
witness that meets them. -/

open Sys2Proof Sys2Proof.Machine

namespace Sys2Proof.Tests

/-! ### Helpers -/

/-- The reset state over the bytes of a buffer, with the cursor at `o`. -/
def onBytes (bytes : List Byte) (o : Nat := 0) : State :=
  { State.reset with buf := placeBytes 0 bytes ⟨[]⟩, len := bytes.length, bitOffset := o }

/-- A state with one command on the port. -/
def withCommand (op : BitVec 8) (arg : Word32) (s : State) : State := { s with inbox := [.command op arg] }

/-- The packet of S2. -/
def literalBytes : List Byte := [0xD2, 0xFE, 0x28]

/-- The packet of S3. -/
def lessBytes : List Byte := [0x38, 0x00, 0x6F, 0x45, 0x29, 0x12, 0x00]

/-- The packet of P3. -/
def maximumBytes : List Byte := [0xEE, 0x00, 0xD4, 0x0C, 0x82, 0x30, 0x60]

/-- The packet of P4, nested three deep. -/
def nestedBytes : List Byte := [0x8A, 0x00, 0x4A, 0x80, 0x1A, 0x80, 0x02, 0xF4, 0x78]

/-- Seventeen groups with a non-zero first payload (V5). -/
def longVarintBytes : List Byte := [0x8C, 0x63, 0x18, 0xC6, 0x31, 0x8C, 0x63, 0x18, 0xC6, 0x31, 0x08]

/-- The literal `111 100` with the groups of V5. -/
def longLiteralBytes : List Byte := [0xF2, 0x31, 0x8C, 0x63, 0x18, 0xC6, 0x31, 0x8C, 0x63, 0x18, 0xC6, 0x20]

/-- The next state holds what `p` says. -/
def after (o : Host.Outcome State Fault Refusal) (p : State → Bool) : Bool :=
  match o with
  | .next t => p t
  | _ => false

/-- The next state has this cursor and its last delivery is this response. -/
def answers (o : Host.Outcome State Fault Refusal) (cursor : Nat) (r : Response) : Bool :=
  after o fun t => t.bitOffset = cursor ∧ t.delivered.getLast? = some (.response r)

/-- The next state has this cursor and exactly these deliveries. -/
def delivers (o : Host.Outcome State Fault Refusal) (cursor : Nat) (es : List Event) (r : Response) : Bool :=
  after o fun t => t.bitOffset = cursor ∧ t.delivered = es.map .event ++ [.response r]

/-- The next state, if there is one. -/
def nextOf (o : Host.Outcome State Fault Refusal) : State :=
  match o with
  | .next t => t
  | _ => State.reset

theorem eq_next (o : Host.Outcome State Fault Refusal) (h : after o (fun _ => true) = true) : o = .next (nextOf o) := by
  cases o <;> simp_all [after, nextOf]

/-- The micro-operation returned. -/
def returned {α : Type} : Micro α → Bool
  | .ok _ _ => true
  | .raise _ _ => false

theorem exists_ok {α : Type} (m : Micro α) (h : returned m = true) : ∃ a t, m = .ok a t := by
  cases m <;> simp_all [returned]

/-- The cause raised, if any. -/
def raised {α : Type} : Micro α → Option Cause
  | .ok _ _ => none
  | .raise c _ => some c

theorem exists_raise {α : Type} (m : Micro α) (c : Cause) (h : raised m = some c) : ∃ t, m = .raise c t := by
  cases m <;> simp_all [raised]

theorem inv_of (s : State)
    (h : s.cfg.Valid ∧ s.buf.wf ∧ s.hostMem.wf ∧ s.len ≤ s.cfg.bufMaxBytes ∧ s.bitOffset ≤ s.endOfBuffer ∧
      (s.pgState = .idle ∧ s.stk = [] ∧ s.busy = false ∧ s.provisional = []) ∧
      s.len < 2 ^ s.cfg.offsetW ∧ s.bitOffset < 2 ^ s.cfg.offsetW ∧ s.attemptStart < 2 ^ s.cfg.offsetW ∧
      s.groups < 2 ^ s.cfg.countRegW ∧ s.pktCount < 2 ^ s.cfg.countRegW) : Inv s :=
  ⟨h.1, h.2.1, h.2.2.1, h.2.2.2.1, h.2.2.2.2.1,
    ⟨h.2.2.2.2.2.1.1, h.2.2.2.2.2.1.2.1, h.2.2.2.2.2.1.2.2.1, h.2.2.2.2.2.1.2.2.2⟩,
    ⟨h.2.2.2.2.2.2.1, h.2.2.2.2.2.2.2.1, h.2.2.2.2.2.2.2.2.1, h.2.2.2.2.2.2.2.2.2.1, h.2.2.2.2.2.2.2.2.2.2⟩⟩

theorem bitsAt_of (s : State) (o : Nat) (bs : List Bool)
    (h : o + bs.length ≤ s.endOfBuffer ∧ ∀ i : Fin bs.length, s.sbit (o + i) = bs[i]) : s.BitsAt o bs :=
  ⟨h.1, fun i hi => h.2 ⟨i, hi⟩⟩

/-! ### WellFormed refuses -/

/-- R81: READ is not defined for `n > 16`. -/
theorem test_wellFormed_refuses_read17 : (Instr.read 17).wellFormed = false := by decide

/-- R71: a varint has at least one group. -/
theorem test_wellFormed_refuses_literal_without_groups : (Instr.pktLiteral 6 []).wellFormed = false := by decide

/-- R78: OP_BEGIN never carries type id 4. -/
theorem test_wellFormed_refuses_opBegin_of_literal : (Instr.evOpBegin 1 4 false 27).wellFormed = false := by decide

/-- R78: in length mode 1, `aux[14:11] = 0`. -/
theorem test_wellFormed_refuses_opBegin_wide_count : (Instr.evOpBegin 1 6 true 0x800).wellFormed = false := by decide

theorem test_wellFormed_admits_boundaries :
    (Instr.read 16).wellFormed = true ∧ (Instr.pktLiteral 6 [0]).wellFormed = true ∧
    (Instr.evOpBegin 1 6 true 0x7FF).wellFormed = true ∧ (Instr.evOpBegin 1 6 false 0x7FFF).wellFormed = true := by decide

/-! ### Decoding: words written out from the tables of spec/30_encoding.md -/

/-- R65: `op` in bits 7 to 5, `n` in bits 4 to 0. -/
theorem test_decode_commands :
    decode (.command 0b001_00000 0xFFFFFFFF) = .ok (.load 0xFFFFFFFF) ∧
    decode (.command 0b010_00000 0) = .ok (.consume8 0) ∧ decode (.command 0b010_11111 0) = .ok (.consume8 31) ∧
    decode (.command 0b011_00001 0) = .ok (.consume16 1) ∧ decode (.command 0b011_10001 0) = .ok (.consume16 17) ∧
    decode (.command 0b100_00000 0) = .ok .varint ∧ decode (.command 0b101_00000 0) = .ok .packet ∧
    decode (.command 0b110_00000 0) = .ok .stream := by decide

/-- R67: reserved words, at the ends of each range. -/
theorem test_decode_reserved_commands :
    decode (.command 0x00 0) = .ok (.reservedOp0 0) ∧ decode (.command 0x1F 0) = .ok (.reservedOp0 31) ∧
    decode (.command 0xE0 0) = .ok (.reservedOp7 0) ∧ decode (.command 0xFF 0) = .ok (.reservedOp7 31) ∧
    decode (.command 0x21 3) = .error (.reservedCount 1 1) ∧ decode (.command 0x3F 0) = .error (.reservedCount 1 31) ∧
    decode (.command 0x81 0) = .error (.reservedCount 4 1) ∧ decode (.command 0x9F 0) = .error (.reservedCount 4 31) ∧
    decode (.command 0xA1 0) = .error (.reservedCount 5 1) ∧ decode (.command 0xBF 0) = .error (.reservedCount 5 31) ∧
    decode (.command 0xC1 0) = .error (.reservedCount 6 1) ∧ decode (.command 0xDF 0) = .error (.reservedCount 6 31) := by
  decide

/-- R81: the words of the pseudo-instructions, and what they decode to. -/
theorem test_pseudo_words :
    encode .version = .command 0x43 0 ∧ encode .typeid = .command 0x43 0 ∧ encode .ltype = .command 0x41 0 ∧
    encode .group = .command 0x45 0 ∧ encode .totalbits = .command 0x6F 0 ∧ encode .npackets = .command 0x6B 0 ∧
    encode (.read 8) = .command 0x48 0 ∧ encode (.read 9) = .command 0x69 0 ∧ encode (.read 16) = .command 0x70 0 ∧
    decode (.command 0x43 0) = .ok (.consume8 3) ∧ decode (.command 0x41 0) = .ok (.consume8 1) ∧
    decode (.command 0x45 0) = .ok (.consume8 5) ∧ decode (.command 0x6F 0) = .ok (.consume16 15) ∧
    decode (.command 0x6B 0) = .ok (.consume16 11) := by decide

/-- R70: flag, then payload bits 3 to 0. -/
theorem test_decode_group :
    decode (.stream .group [true, false, true, true, true]) = .ok (.varintGroup true 0b0111) ∧
    decode (.stream .group [false, false, true, false, true]) = .ok (.varintGroup false 0b0101) ∧
    decode (.stream .group [true, false, true, true]) = .error .truncated := by decide

/-- R72: `110 100`. -/
theorem test_decode_header :
    decode (.stream .header [true, true, false, true, false, false]) = .ok (.pktHeader 6 4) := by decide

/-- R73: `110 100 10111 11110 00101` (S2), and the same without its last group. -/
theorem test_decode_literal :
    decode (.stream .packet [true, true, false, true, false, false,
      true, false, true, true, true, true, true, true, true, false, false, false, true, false, true]) =
      .ok (.pktLiteral 6 [0b0111, 0b1110, 0b0101]) ∧
    decode (.stream .packet [true, true, false, true, false, false,
      true, false, true, true, true, true, true, true, true, false]) = .error .truncated := by decide

/-- Fifteen bits with value 27, written out. -/
def bits27 : List Bool :=
  [false, false, false, false, false, false, false, false, false, false, true, true, false, true, true]

/-- Eleven bits with value 3, written out. -/
def bits3 : List Bool := [false, false, false, false, false, false, false, false, false, true, true]

/-- R74, R76: version `001`, each type id, `0`, `total_bits` 27. -/
theorem test_decode_mode0_headers :
    decode (.stream .packet ([false, false, true, false, false, false, false] ++ bits27)) = .ok (.pktSumM0 1 27) ∧
    decode (.stream .packet ([false, false, true, false, false, true, false] ++ bits27)) = .ok (.pktProductM0 1 27) ∧
    decode (.stream .packet ([false, false, true, false, true, false, false] ++ bits27)) = .ok (.pktMinimumM0 1 27) ∧
    decode (.stream .packet ([false, false, true, false, true, true, false] ++ bits27)) = .ok (.pktMaximumM0 1 27) ∧
    decode (.stream .packet ([false, false, true, true, false, true, false] ++ bits27)) = .ok (.pktGreaterM0 1 27) ∧
    decode (.stream .packet ([false, false, true, true, true, false, false] ++ bits27)) = .ok (.pktLessM0 1 27) ∧
    decode (.stream .packet ([false, false, true, true, true, true, false] ++ bits27)) = .ok (.pktEqualM0 1 27) := by
  decide

/-- R75, R76: version `111`, each type id, `1`, `packet_count` 3. -/
theorem test_decode_mode1_headers :
    decode (.stream .packet ([true, true, true, false, false, false, true] ++ bits3)) = .ok (.pktSumM1 7 3) ∧
    decode (.stream .packet ([true, true, true, false, false, true, true] ++ bits3)) = .ok (.pktProductM1 7 3) ∧
    decode (.stream .packet ([true, true, true, false, true, false, true] ++ bits3)) = .ok (.pktMinimumM1 7 3) ∧
    decode (.stream .packet ([true, true, true, false, true, true, true] ++ bits3)) = .ok (.pktMaximumM1 7 3) ∧
    decode (.stream .packet ([true, true, true, true, false, true, true] ++ bits3)) = .ok (.pktGreaterM1 7 3) ∧
    decode (.stream .packet ([true, true, true, true, true, false, true] ++ bits3)) = .ok (.pktLessM1 7 3) ∧
    decode (.stream .packet ([true, true, true, true, true, true, true] ++ bits3)) = .ok (.pktEqualM1 7 3) := by
  decide

/-- A format must end where its word does. -/
theorem test_decode_trailing_bits :
    decode (.stream .packet ([true, true, true, false, true, true, true] ++ bits3 ++ [false])) = .error .trailingBits := by
  decide

/-- R78, with the event words of P1, P2 and P3. -/
theorem test_decode_events :
    decode (.event 0x3400000003_00000000000007E5#104) = .ok (.evLiteral 6 3 2021) ∧
    decode (.event 0x140000000200000000_00000014#104) = .ok (.evLiteral 2 2 20) ∧
    decode (.event 0x4E0000001B_0000000000000000#104) = .ok (.evOpBegin 1 6 false 27) ∧
    decode (.event 0x7B00008003_0000000000000000#104) = .ok (.evOpBegin 7 3 true 3) ∧
    decode (.event 0x8000000002_0000000000000000#104) = .ok (.evOpEnd 2) := by decide

/-- R78: kind 3; a literal of type id 6; OP_BEGIN with type id 4, with `aux[16]` or `value` not 0; OP_END with a version. -/
theorem test_decode_reserved_events :
    decode (.event 0xC000000000_0000000000000000#104) = .error .reservedEventKind ∧
    decode (.event 0x3600000001_000000000000000A#104) = .error .reservedEventBits ∧
    decode (.event 0x4C0000001B_0000000000000000#104) = .error .reservedEventBits ∧
    decode (.event 0x4E0001001B_0000000000000000#104) = .error .reservedEventBits ∧
    decode (.event 0x4E0000001B_0000000000000001#104) = .error .reservedEventBits ∧
    decode (.event 0x7B00008800_0000000000000000#104) = .error .reservedEventBits ∧
    decode (.event 0x8800000002_0000000000000000#104) = .error .reservedEventBits := by decide

/-- The same words in the opcode table's numbering (log entry 25): a command byte, a command with its operand, an event, and
the first two bytes of S2's packet and three of S3's as stream bits. -/
theorem test_table_words :
    decodeTableWord 8 0x43 = some (.consume8 3) ∧ decodeTableWord 8 0x81 = none ∧
    decodeTableWord 40 0x0000000320 = some (.load 3) ∧
    decodeTableWord 104 0x4E0000001B_0000000000000000 = some (.evOpBegin 1 6 false 27) ∧
    decodeTableWord 24 0x28FED2 = some (.pktLiteral 6 [7, 14, 5]) ∧
    decodeTableWord 24 0x6F0038 = some (.pktLessM0 1 27) := by decide +kernel

/-! ### One step each, from the spec's vectors -/

/-- L1 and R91: the bytes, LEN and the cursor. -/
theorem test_load : after (exec (.load 3) { onBytes [0xFF] 5 with hostMem := placeBytes 0 literalBytes ⟨[]⟩ })
    (fun t => t.buf = placeBytes 0 literalBytes ⟨[]⟩ ∧ t.len = 3 ∧ t.bitOffset = 0 ∧
      t.delivered = [.response (Response.success 0 0 0 0)]) = true := by decide +kernel

/-- L4: one byte more than BUF_MAX_BYTES. -/
theorem test_load_too_long :
    after (exec (.load 65537) (onBytes literalBytes 21)) (fun t => t.fault ∧ t.bitOffset = 21 ∧ t.len = 3 ∧
      t.delivered = [.response (Response.failure .illegalCmd)]) = true := by decide +kernel

/-- B3, second and fourth read: `010` of byte 0 and `11111` of byte 1, and a read past the end. -/
theorem test_consume8 :
    answers (exec (.consume8 8) (onBytes literalBytes 5)) 13 (Response.success 95 0 0 0) = true ∧
    answers (exec (.consume8 8) (onBytes literalBytes 17)) 24 (Response.failure .exhausted) = true := by decide +kernel

/-- B12, B10: over-wide reads are Contract before anything else, and latch FAULT. -/
theorem test_consume8_contract :
    after (exec (.consume8 9) (onBytes [])) (fun t => t.fault ∧ t.bitOffset = 0 ∧
      t.delivered = [.response (Response.failure .contract)]) = true := by decide +kernel

/-- B5: 16 bits over three bytes. -/
theorem test_consume16 :
    answers (exec (.consume16 16) (onBytes literalBytes 1)) 17 (Response.success 0xA5FC 0 0 0) = true := by decide +kernel

/-- B4, B11: eight bits left of nine, and the bound 17. -/
theorem test_consume16_failures :
    answers (exec (.consume16 9) (onBytes literalBytes 16)) 24 (Response.failure .exhausted) = true ∧
    answers (exec (.consume16 17) (onBytes literalBytes)) 0 (Response.failure .contract) = true := by decide +kernel

/-- V3 and V12: an unaligned varint, and twenty leading zero groups. -/
theorem test_varint :
    answers (exec .varint (onBytes literalBytes 6)) 21 (Response.success 2021 3 0 0) = true ∧
    answers (exec .varint (onBytes [0x84, 0x21, 0x08, 0x42, 0x10, 0x84, 0x21, 0x08, 0x42, 0x10, 0x84, 0x21, 0x03, 0x80]))
      105 (Response.success 7 21 0 0) = true := by decide +kernel

/-- V7, V8: `ACC = 2^60` and `2^56` before group 17. -/
theorem test_varint_guard :
    answers (exec .varint (onBytes [0x8C, 0x21, 0x08, 0x42, 0x10, 0x84, 0x21, 0x08, 0x42, 0x10, 0x00]))
      85 (Response.failure .varintOverflow) = true ∧
    answers (exec .varint (onBytes [0x84, 0x61, 0x08, 0x42, 0x10, 0x84, 0x21, 0x08, 0x42, 0x10, 0x00]))
      85 (Response.success 1152921504606846976 17 0 0) = true := by decide +kernel

/-- P2: mode 0. -/
theorem test_packet :
    delivers (exec .packet (onBytes lessBytes)) 49
      [.opBegin 1 6 .totalBits 27, .literal 6 1 10, .literal 2 2 20, .opEnd 2] (Response.success 0 1 0 0) = true := by
  decide +kernel

/-- P10: a stack of two frames and three nested operators. -/
theorem test_packet_stack_overflow :
    delivers (exec .packet { onBytes nestedBytes with cfg := { Config.default with stackDepth := 2 } }) 58 []
      (Response.failure .stackOverflow) = true := by decide +kernel

/-- T2: seven padding bits begin a packet that runs out. -/
theorem test_stream :
    delivers (exec .stream (onBytes lessBytes)) 56
      [.opBegin 1 6 .totalBits 27, .literal 6 1 10, .literal 2 2 20, .opEnd 2] (Response.success 0 1 2 49) = true := by
  decide +kernel

/-- T7: the first packet had completed and is not committed. -/
theorem test_stream_overflow :
    delivers (exec .stream (onBytes
      [0xD2, 0xFE, 0x2F, 0x91, 0x8C, 0x63, 0x18, 0xC6, 0x31, 0x8C, 0x63, 0x18, 0xC6, 0x21])) 112 []
      (Response.failure .varintOverflow) = true := by decide +kernel

/-- F1, F2. -/
theorem test_reserved_rows :
    after (exec (.reservedOp0 0) (onBytes literalBytes 5)) (fun t => t.fault ∧ t.bitOffset = 5 ∧
      t.delivered = [.response (Response.failure .illegalCmd)]) = true ∧
    after (exec (.reservedOp7 0) (onBytes literalBytes 5)) (fun t => t.fault ∧ t.bitOffset = 5 ∧
      t.delivered = [.response (Response.failure .illegalCmd)]) = true := by decide +kernel

/-- F6: `Faulted` before `Contract`. -/
theorem test_faulted_first :
    answers (exec (.consume8 9) { onBytes literalBytes with fault := true }) 0 (Response.failure .faulted) = true := by
  decide +kernel

/-- B15 and PROG2: the grammar's reads on S3's packet, and NPACKETS on P3's. -/
theorem test_pseudo_instructions :
    answers (exec .version (onBytes lessBytes)) 3 (Response.success 1 0 0 0) = true ∧
    answers (exec .typeid (onBytes lessBytes 3)) 6 (Response.success 6 0 0 0) = true ∧
    answers (exec .ltype (onBytes lessBytes 6)) 7 (Response.success 0 0 0 0) = true ∧
    answers (exec .totalbits (onBytes lessBytes 7)) 22 (Response.success 27 0 0 0) = true ∧
    answers (exec .group (onBytes lessBytes 28)) 33 (Response.success 10 0 0 0) = true ∧
    answers (exec .npackets (onBytes maximumBytes 7)) 18 (Response.success 3 0 0 0) = true ∧
    answers (exec (.read 16) (onBytes literalBytes)) 16 (Response.success 0xD2FE 0 0 0) = true := by decide +kernel

/-- R81: READ is not defined for `n > 16`. -/
theorem test_read_not_defined : exec (.read 17) (onBytes literalBytes) = .refused (.readNotDefined 17) := rfl

/-- V2: the third group of 2021, and one group onto `2^60`. -/
theorem test_varint_group :
    after (exec (.varintGroup false 5) { State.reset with acc := 0x7E, groups := 2 })
      (fun t => t.acc = 2021 ∧ t.groups = 3 ∧ t.bitOffset = 5) = true ∧
    answers (exec (.varintGroup false 0) { State.reset with acc := 0x1000000000000000 }) 5
      (Response.failure .varintOverflow) = true := by decide +kernel

/-- S2, S3: the headers `110 100` and `001 110`. -/
theorem test_header :
    after (exec (.pktHeader 6 4) State.reset) (fun t => t.ver = 6 ∧ t.tid = 4 ∧ t.pgState = .literal ∧ t.bitOffset = 6) ∧
    after (exec (.pktHeader 1 6) State.reset) (fun t => t.ver = 1 ∧ t.tid = 6 ∧ t.pgState = .ltype) := by decide +kernel

/-- S2: the literal 2021. -/
theorem test_literal :
    after (exec (.pktLiteral 6 [7, 14, 5]) State.reset) (fun t => t.provisional = [.literal 6 3 2021] ∧ t.bitOffset = 21 ∧
      t.pgState = .done) := by decide +kernel

/-- R76: the type id of each mode-0 row, in the event it emits; S3's header opens a frame that ends at bit 49. -/
theorem test_mode0_rows :
    after (exec (.pktSumM0 1 27) State.reset) (fun t => t.provisional = [.opBegin 1 0 .totalBits 27]) ∧
    after (exec (.pktProductM0 1 27) State.reset) (fun t => t.provisional = [.opBegin 1 1 .totalBits 27]) ∧
    after (exec (.pktMinimumM0 1 27) State.reset) (fun t => t.provisional = [.opBegin 1 2 .totalBits 27]) ∧
    after (exec (.pktMaximumM0 1 27) State.reset) (fun t => t.provisional = [.opBegin 1 3 .totalBits 27]) ∧
    after (exec (.pktGreaterM0 1 27) State.reset) (fun t => t.provisional = [.opBegin 1 5 .totalBits 27]) ∧
    after (exec (.pktLessM0 1 27) State.reset) (fun t => t.provisional = [.opBegin 1 6 .totalBits 27] ∧
      t.bitOffset = 22 ∧ t.pgState = .next ∧ t.stk = [{ mode := .totalBits, limit := 49, nchild := 0 }]) ∧
    after (exec (.pktEqualM0 1 27) State.reset) (fun t => t.provisional = [.opBegin 1 7 .totalBits 27]) := by decide +kernel

/-- R76: the type id of each mode-1 row; P3's header opens a frame for three children. -/
theorem test_mode1_rows :
    after (exec (.pktSumM1 7 3) State.reset) (fun t => t.provisional = [.opBegin 7 0 .packetCount 3]) ∧
    after (exec (.pktProductM1 7 3) State.reset) (fun t => t.provisional = [.opBegin 7 1 .packetCount 3]) ∧
    after (exec (.pktMinimumM1 7 3) State.reset) (fun t => t.provisional = [.opBegin 7 2 .packetCount 3]) ∧
    after (exec (.pktMaximumM1 7 3) State.reset) (fun t => t.provisional = [.opBegin 7 3 .packetCount 3] ∧
      t.bitOffset = 18 ∧ t.pgState = .next ∧ t.stk = [{ mode := .packetCount, limit := 3, nchild := 0 }]) ∧
    after (exec (.pktGreaterM1 7 3) State.reset) (fun t => t.provisional = [.opBegin 7 5 .packetCount 3]) ∧
    after (exec (.pktLessM1 7 3) State.reset) (fun t => t.provisional = [.opBegin 7 6 .packetCount 3]) ∧
    after (exec (.pktEqualM1 7 3) State.reset) (fun t => t.provisional = [.opBegin 7 7 .packetCount 3]) := by decide +kernel

/-- P1, P2, P3: the event words. -/
theorem test_event_words :
    (Event.literal 6 3 2021).word = 0x3400000003_00000000000007E5#104 ∧
    (Event.opBegin 1 6 .totalBits 27).word = 0x4E0000001B_0000000000000000#104 ∧
    (Event.opBegin 7 3 .packetCount 3).word = 0x7B00008003_0000000000000000#104 ∧
    (Event.opEnd 2).word = 0x8000000002_0000000000000000#104 := by decide

/-- R78: the three event rows. -/
theorem test_event_rows :
    after (exec (.evLiteral 6 3 2021) State.reset) (fun t => t.provisional = [.literal 6 3 2021]) ∧
    after (exec (.evOpBegin 7 3 true 3) State.reset) (fun t => t.provisional = [.opBegin 7 3 .packetCount 3]) ∧
    after (exec (.evOpEnd 2) State.reset) (fun t => t.provisional = [.opEnd 2]) := by decide +kernel

/-- F3, F8: step on a reserved word, and on reset. -/
theorem test_step :
    after (step (withCommand 0x81 0 (onBytes literalBytes 6))) (fun t => t.fault ∧ t.bitOffset = 6 ∧
      t.delivered = [.response (Response.failure .illegalCmd)]) ∧
    after (step { onBytes literalBytes 6 with fault := true, inbox := [.reset] }) (fun t => t = State.reset) ∧
    after (step State.reset) (fun t => t = State.reset) := by decide +kernel

/-- R7 (log entry 3): no step is defined inside a command. -/
theorem test_step_between_commands : step { State.reset with busy := true } = .fault .notBetweenCommands := rfl

/-- R30: FAULT in bit 0 of SR[2], BUSY in bit 1, and the cursor and LEN, also where `OFFSET_W` is above 32. -/
theorem test_status :
    ({ State.reset with cfg := { Config.default with offsetW := 40 }, bitOffset := 2 ^ 32 + 5 } : State).sr 0 = 2 ^ 32 + 5 ∧
    ({ onBytes literalBytes 21 with fault := true } : State).sr 2 = 1 ∧ (onBytes literalBytes 21).sr 0 = 21 ∧
    (onBytes literalBytes 21).sr 1 = 3 ∧ ({ State.reset with busy := true } : State).sr 2 = 2 := by decide +kernel

/-- Vectors of section 2.7: HexDecoder. -/
theorem test_hexDecode :
    hexDecode "D2FE28".toList = .ok literalBytes ∧ hexDecode "d2fe28".toList = .ok literalBytes ∧ hexDecode [] = .ok [] ∧
    hexDecode "D2F".toList = .error .malformedHex ∧ hexDecode "D2FG28".toList = .error .malformedHex := by decide +kernel

/-- S4's events. -/
def equalEvents : List Event :=
  [.opBegin 4 7 .totalBits 80, .opBegin 2 0 .packetCount 2, .literal 2 1 1, .literal 4 1 3, .opEnd 2,
    .opBegin 6 1 .packetCount 2, .literal 0 1 2, .literal 2 1 2, .opEnd 2, .opEnd 2]

/-- S4: version sum 20 and value 1. -/
theorem test_queries :
    versionSumQuery equalEvents = 20 ∧
    evaluationQuery { domain := .naturals, strict := true } equalEvents = .ok 1 ∧
    evaluationQuery { domain := .naturals, strict := true } [] = .error .noPacket := by decide +kernel

/-- T10 and T1 (R161): five non-zero trailing bits are a failed decode to a strict host, three zero bits are not. -/
theorem test_strictTrailing :
    strictTrailing [0xD1, 0x50] (Response.success 0 1 2 11) = true ∧
    strictTrailing literalBytes (Response.success 0 1 2 21) = false := by decide +kernel

/-- R233: the host's sequence for S2. -/
theorem test_decodeActs : decodeActs literalBytes =
    [.place 0 0xD2, .place 1 0xFE, .place 2 0x28, .command 0x20 3, .command 0xC0 0] := by decide +kernel

/-! ### Witnesses: for each obligation with hypotheses, a state and operands that meet them, one for each clause -/

/-- ResetBlockReadsEmptyBuffer: the counts at the ends of each clause. -/
theorem witness_ResetBlockReadsEmptyBuffer :
    (0 : Count5).toNat = 0 ∧ (1 ≤ (1 : Count5).toNat ∧ (8 : Count5).toNat ≤ 8) ∧
    (1 ≤ (16 : Count5).toNat ∧ (16 : Count5).toNat ≤ 16) := by decide

theorem witness_ResetStepGivesResetValues : ∃ (s : State) (rest : List HostAct), s.busy = false ∧ s.inbox = .reset :: rest :=
  ⟨{ onBytes literalBytes 6 with fault := true, inbox := [.reset] }, [], rfl, rfl⟩

theorem witness_EveryStepKeepsInvariant : ∃ s t : State, Inv s ∧ step s = .next t :=
  ⟨withCommand 0x80 0 (onBytes literalBytes 6), _, inv_of _ (by decide +kernel), eq_next _ (by decide +kernel)⟩

/-- EveryCommandAnsweredOnce, and the first two clauses of StepRunsTheDecodedCommand. -/
theorem witness_commands : ∃ (s : State) (rest : List HostAct), s.busy = false ∧ s.inbox = .command 0x43 0 :: rest ∧
    decode (.command 0x43 0) = .ok (.consume8 3) ∧ decode (.command 0x81 0) = .error (.reservedCount 4 1) :=
  ⟨withCommand 0x43 0 (onBytes literalBytes), [], rfl, rfl, by decide, by decide⟩

/-- StepRunsTheDecodedCommand, third clause, at both widths. -/
theorem witness_StepRunsTheDecodedCommand :
    decodeTableWord 8 0xC0 = some .stream ∧ decodeTableWord 40 0xFFFFFFFF20 = some (.load 0xFFFFFFFF) := by decide +kernel

/-- OnlyLoadWritesTheBuffer: LOAD changes BUF and LEN, reset changes LEN, the host changes its memory. -/
theorem witness_OnlyLoadWritesTheBuffer :
    (∃ s t : State, step s = .next t ∧ t.buf ≠ s.buf ∧ t.len ≠ s.len) ∧
    (∃ s t : State, step s = .next t ∧ s.inbox = [.reset] ∧ t.len ≠ s.len) ∧
    ∃ s t : State, step s = .next t ∧ t.hostMem ≠ s.hostMem :=
  ⟨⟨withCommand 0x20 1 (onBytes literalBytes 6), _, eq_next _ (by decide +kernel), by decide +kernel, by decide +kernel⟩,
    ⟨{ onBytes literalBytes 6 with inbox := [.reset] }, _, eq_next _ (by decide +kernel), rfl, by decide +kernel⟩,
    ⟨{ onBytes literalBytes 6 with inbox := [.place 0xFFFFFFFF 7] }, _, eq_next _ (by decide +kernel), by decide +kernel⟩⟩

/-- CursorNeverMovesBack: by LOAD and by reset. -/
theorem witness_CursorNeverMovesBack :
    (∃ s t : State, step s = .next t ∧ t.bitOffset < s.bitOffset ∧ s.inbox = [.command 0x20 3]) ∧
    ∃ s t : State, step s = .next t ∧ t.bitOffset < s.bitOffset ∧ s.inbox = [.reset] :=
  ⟨⟨withCommand 0x20 3 (onBytes literalBytes 6), _, eq_next _ (by decide +kernel), by decide +kernel, rfl⟩,
    ⟨{ onBytes literalBytes 6 with inbox := [.reset] }, _, eq_next _ (by decide +kernel), by decide +kernel, rfl⟩⟩

/-- LatchSetAndCleared (both clauses), and FaultedRefusesEveryCommand (its second). -/
theorem witness_LatchSetAndCleared :
    (∃ s t : State, step s = .next t ∧ s.fault = true ∧ t.fault = false) ∧
    ∃ s t : State, step s = .next t ∧ s.fault = false ∧ t.fault = true :=
  ⟨⟨{ onBytes literalBytes 6 with fault := true, inbox := [.reset] }, _, eq_next _ (by decide +kernel), rfl,
      by decide +kernel⟩,
    ⟨withCommand 0x49 0 (onBytes literalBytes 6), _, eq_next _ (by decide +kernel), rfl, by decide +kernel⟩⟩

/-- One command that fails. -/
def Fails (s : State) (op : BitVec 8) (r : Response) : Prop :=
  Inv s ∧ s.inbox = [.command op 0] ∧ step s = .next (nextOf (step s)) ∧
    (nextOf (step s)).delivered = s.delivered ++ [] ++ [.response r] ∧ r.status ≠ 0

/-- FailedCommandLeaves: every cause of a failed command. -/
theorem witness_FailedCommandLeaves :
    Fails { withCommand 0x43 0 (onBytes literalBytes 6) with fault := true } 0x43 (Response.failure .faulted) ∧
    Fails (withCommand 0xE0 0 (onBytes literalBytes 6)) 0xE0 (Response.failure .illegalCmd) ∧
    Fails (withCommand 0x71 0 (onBytes literalBytes 6)) 0x71 (Response.failure .contract) ∧
    Fails (withCommand 0x41 0 (onBytes literalBytes 24)) 0x41 (Response.failure .exhausted) ∧
    Fails (withCommand 0x80 0 (onBytes longVarintBytes)) 0x80 (Response.failure .varintOverflow) ∧
    Fails { withCommand 0xC0 0 (onBytes nestedBytes) with cfg := { Config.default with stackDepth := 2 } } 0xC0
      (Response.failure .stackOverflow) :=
  ⟨⟨inv_of _ (by decide +kernel), rfl, eq_next _ (by decide +kernel), by decide +kernel, by decide⟩,
    ⟨inv_of _ (by decide +kernel), rfl, eq_next _ (by decide +kernel), by decide +kernel, by decide⟩,
    ⟨inv_of _ (by decide +kernel), rfl, eq_next _ (by decide +kernel), by decide +kernel, by decide⟩,
    ⟨inv_of _ (by decide +kernel), rfl, eq_next _ (by decide +kernel), by decide +kernel, by decide⟩,
    ⟨inv_of _ (by decide +kernel), rfl, eq_next _ (by decide +kernel), by decide +kernel, by decide⟩,
    ⟨inv_of _ (by decide +kernel), rfl, eq_next _ (by decide +kernel), by decide +kernel, by decide⟩⟩

theorem witness_FaultedRefusesEveryCommand : ∃ s : State, s.busy = false ∧ s.fault = true ∧ s.inbox = [.command 0xFF 0] :=
  ⟨{ withCommand 0xFF 0 State.reset with fault := true }, rfl, rfl, rfl⟩

/-- ReservedWordIsIllegal: the ends of each range of words, and the shortest LOAD that is too long. -/
theorem witness_ReservedWordIsIllegal :
    (∃ s : State, s.busy = false ∧ s.fault = false ∧ s.inbox = [.command 0x20 65537] ∧ s.cfg.bufMaxBytes < 65537) ∧
    (0x1F : BitVec 8).toNat / 32 = 0 ∧ (0xE0 : BitVec 8).toNat / 32 = 7 ∧
    ((0x21 : BitVec 8).toNat / 32 = 1 ∧ (0x21 : BitVec 8).toNat % 32 ≠ 0) ∧
    ((0x9F : BitVec 8).toNat / 32 = 4 ∧ (0x9F : BitVec 8).toNat % 32 ≠ 0) ∧
    ((0xA1 : BitVec 8).toNat / 32 = 5 ∧ (0xA1 : BitVec 8).toNat % 32 ≠ 0) ∧
    ((0xDF : BitVec 8).toNat / 32 = 6 ∧ (0xDF : BitVec 8).toNat % 32 ≠ 0) :=
  ⟨⟨withCommand 0x20 65537 State.reset, rfl, rfl, rfl, by decide⟩, by decide⟩

/-- StatusOutputsShowState: not busy; and a register at the last value of 16 bits. -/
theorem witness_StatusOutputsShowState : (onBytes literalBytes 21).busy = false ∧
    let s : State := { State.reset with
      cfg := { offsetW := 16, bufMaxBytes := 4095, stackDepth := 1, countRegW := 13 }, len := 4095, bitOffset := 2 ^ 16 - 1 }
    s.cfg.Valid ∧ WidthsFit s ∧ s.cfg.offsetW ≤ 32 :=
  ⟨rfl, by decide, ⟨by decide, by decide, by decide, by decide, by decide⟩, by decide⟩

/-- DecodeOfEncode is over `test_wellFormed_admits_boundaries`, EncodeOfDecode over the decode tests; one of each kind. -/
theorem witness_EncodeOfDecode :
    decode (.command 0x20 5) = .ok (.load 5) ∧ decode (.stream .header (bitsOfNat 6 52)) = .ok (.pktHeader 6 4) ∧
    decode (.event 0x8000000002_0000000000000000#104) = .ok (.evOpEnd 2) := by decide

/-- LoadOutcome: FAULT, one byte too many, and the largest legal buffer. -/
theorem witness_LoadOutcome :
    ((onBytes []).buf.wf ∧ ({ State.reset with fault := true } : State).fault = true) ∧
    (State.reset.fault = false ∧ State.reset.cfg.bufMaxBytes < (65537 : Word32).toNat) ∧
    (State.reset.fault = false ∧ (65536 : Word32).toNat ≤ State.reset.cfg.bufMaxBytes) := by decide

/-- ReservedRowsAnswer, both clauses, and the first clauses of the command statements. -/
theorem witness_fault : (∃ s : State, s.fault = false) ∧ ∃ s : State, s.fault = true :=
  ⟨⟨State.reset, rfl⟩, ⟨{ State.reset with fault := true }, rfl⟩⟩

/-- ConsumeEightOutcome: each clause at its boundary. -/
theorem witness_ConsumeEightOutcome :
    (onBytes literalBytes 16).bitOffset ≤ (onBytes literalBytes 16).endOfBuffer ∧
    ({ onBytes literalBytes 24 with fault := true } : State).fault = true ∧
    ((onBytes literalBytes 16).fault = false ∧ 8 < (9 : Count5).toNat) ∧
    ((8 : Count5).toNat ≤ 8 ∧ (onBytes literalBytes 17).endOfBuffer < (onBytes literalBytes 17).bitOffset + (8 : Count5).toNat) ∧
    ((8 : Count5).toNat ≤ 8 ∧ (onBytes literalBytes 16).bitOffset + (8 : Count5).toNat ≤ (onBytes literalBytes 16).endOfBuffer) := by
  decide +kernel

/-- ConsumeSixteenOutcome: each clause at its boundary. -/
theorem witness_ConsumeSixteenOutcome :
    (onBytes literalBytes 8).bitOffset ≤ (onBytes literalBytes 8).endOfBuffer ∧
    ({ onBytes literalBytes 24 with fault := true } : State).fault = true ∧
    ((onBytes literalBytes 8).fault = false ∧ 16 < (17 : Count5).toNat) ∧
    ((16 : Count5).toNat ≤ 16 ∧ (onBytes literalBytes 9).endOfBuffer < (onBytes literalBytes 9).bitOffset + (16 : Count5).toNat) ∧
    ((16 : Count5).toNat ≤ 16 ∧ (onBytes literalBytes 8).bitOffset + (16 : Count5).toNat ≤ (onBytes literalBytes 8).endOfBuffer) := by
  decide +kernel

theorem witness_ConsumeZeroAlwaysSucceeds : (onBytes []).fault = false := rfl

/-- ConsumeWidthsAgree: a read that returns and one that raises. -/
theorem witness_ConsumeWidthsAgree :
    (∃ v t, consume8 8 (onBytes literalBytes 16) = .ok v t) ∧ (∃ t, consume8 8 (onBytes literalBytes 17) = .raise .exhausted t) ∧
    (onBytes literalBytes).fault = false :=
  ⟨exists_ok _ (by decide +kernel), exists_raise _ _ (by decide +kernel), rfl⟩

/-- SuccessiveReadsConcatenate: 1 bit of width 8, then 15 of width 16. -/
theorem witness_SuccessiveReadsConcatenate : ∃ (x : BitVec 8) (y : BitVec 16) (u t : State),
    consume 8 1 (onBytes literalBytes 1) = .ok x u ∧ consume 16 15 u = .ok y t ∧ 1 + 15 ≤ 16 := by
  obtain ⟨x, u, hx⟩ := exists_ok (consume 8 1 (onBytes literalBytes 1)) (by decide +kernel)
  have hu : returned (consume 16 15 (consume 8 1 (onBytes literalBytes 1)).state) = true := by decide +kernel
  rw [hx] at hu
  obtain ⟨y, t, hy⟩ := exists_ok _ hu
  exact ⟨x, y, u, t, hx, hy, by decide⟩

theorem witness_AlignedSixteenBitsAreBigEndian :
    (onBytes literalBytes 8).fault = false ∧ (onBytes literalBytes 8).bitOffset = 8 * 1 ∧ 1 + 2 ≤ (onBytes literalBytes 8).len := by
  decide

theorem witness_PseudoInstructionsAreCommands : (Instr.read 16).WellFormed := by decide

/-- PseudoInstructionsComplete: each clause where its bits are the last of the buffer. -/
theorem witness_PseudoInstructionsComplete :
    (onBytes literalBytes 21).fault = false ∧ (onBytes literalBytes 21).bitOffset + 3 ≤ (onBytes literalBytes 21).endOfBuffer ∧
    (onBytes literalBytes 23).bitOffset + 1 ≤ (onBytes literalBytes 23).endOfBuffer ∧
    (onBytes literalBytes 19).bitOffset + 5 ≤ (onBytes literalBytes 19).endOfBuffer ∧
    (onBytes literalBytes 9).bitOffset + 15 ≤ (onBytes literalBytes 9).endOfBuffer ∧
    (onBytes literalBytes 13).bitOffset + 11 ≤ (onBytes literalBytes 13).endOfBuffer ∧
    ((16 : Count5).toNat ≤ 16 ∧ (onBytes literalBytes 8).bitOffset + (16 : Count5).toNat ≤ (onBytes literalBytes 8).endOfBuffer) ∧
    16 < (17 : Count5).toNat := by decide

/-- VarintGuardIsExact: both sides of `2^60`. -/
theorem witness_VarintGuardIsExact :
    varintGuardFails 0x0FFFFFFFFFFFFFFF = false ∧ varintGuardFails 0x1000000000000000 = true := by decide +kernel

theorem witness_GroupCountIsBitsTaken : ∃ (v : Word64) (k : Nat) (t : State), varint (onBytes literalBytes 6) = .ok (v, k) t := by
  obtain ⟨⟨v, k⟩, t, h⟩ := exists_ok (varint (onBytes literalBytes 6)) (by decide +kernel)
  exact ⟨v, k, t, h⟩

/-- VarintClosedForm, the first clause: V15, no group at all. -/
theorem witness_VarintClosedForm_runsOut :
    (onBytes []).fault = false ∧ (onBytes []).bitOffset ≤ (onBytes []).endOfBuffer ∧ (onBytes []).groupRunsOut 0 := by
  simp only [State.groupRunsOut]; decide

theorem groupGoesOn_of (s : State) (i : Nat)
    (h : s.bitOffset + 5 * (i + 1) ≤ s.endOfBuffer ∧ i < 16 ∧ 16 ≤ s.groupAt i) : s.groupGoesOn i := by
  refine ⟨fun hr => ?_, fun ⟨j, _, _, hj⟩ => by omega, fun he => ?_⟩
  · simp only [State.groupRunsOut] at hr; omega
  · simp only [State.groupEnds] at he; omega

theorem groupsGoOn_of (s : State) (n : Nat)
    (h : ∀ i : Fin n, s.bitOffset + 5 * (i.val + 1) ≤ s.endOfBuffer ∧ i.val < 16 ∧ 16 ≤ s.groupAt i.val) :
    ∀ i < n, s.groupGoesOn i := fun i hi => groupGoesOn_of s i (h ⟨i, hi⟩)

/-- The second clause: V5, group 16 counted from 0. -/
theorem witness_VarintClosedForm_overflows : (∀ i < 16, (onBytes longVarintBytes).groupGoesOn i) ∧
    ¬ (onBytes longVarintBytes).groupRunsOut 16 ∧ (onBytes longVarintBytes).groupOverflows 16 :=
  ⟨groupsGoOn_of _ 16 (by decide +kernel), by simp only [State.groupRunsOut]; decide +kernel,
    ⟨0, by decide +kernel, by intro i h; omega, by decide⟩⟩

/-- The third clause: V4, the largest value, in 16 groups. -/
theorem witness_VarintClosedForm_ends :
    let s := onBytes [0xFF, 0xFF, 0xFF, 0xFF, 0xFF, 0xFF, 0xFF, 0xFF, 0xFF, 0xEF]
    (∀ i < 15, s.groupGoesOn i) ∧ ¬ s.groupRunsOut 15 ∧ ¬ s.groupOverflows 15 ∧ s.groupEnds 15 :=
  ⟨groupsGoOn_of _ 15 (by decide +kernel), by simp only [State.groupRunsOut]; decide +kernel,
    fun ⟨j, _, _, hj⟩ => by omega, by simp only [State.groupEnds]; decide +kernel⟩

/-- VarintDecodesEveryEncoding: V4 again. -/
theorem witness_VarintDecodesEveryEncoding :
    (0xFFFFFFFFFFFFFFFF : Word64).toNat < 16 ^ 16 ∧
    (onBytes [0xFF, 0xFF, 0xFF, 0xFF, 0xFF, 0xFF, 0xFF, 0xFF, 0xFF, 0xEF]).BitsAt 0
      (varintBits (payloadsOf 0xFFFFFFFFFFFFFFFF 16)) :=
  ⟨by decide +kernel, bitsAt_of _ _ _ (by decide +kernel)⟩

/-- EngineMatchesRecursiveAlgorithm and DepthLimitOnlyRestricts: P4 at limits 3 and 2, and P7, which runs out. -/
theorem witness_packetReference :
    ((onBytes nestedBytes).stk = [] ∧ ∃ p u, packetReference (some 3) (onBytes nestedBytes) = .ok p u) ∧
    (∃ p u, packetReference none (onBytes nestedBytes) = .ok p u) ∧
    (∃ u, packetReference (some 2) (onBytes nestedBytes) = .raise .stackOverflow u) ∧
    ∃ u, packetReference (some 64) (onBytes (lessBytes.take 5)) = .raise .exhausted u :=
  ⟨⟨rfl, exists_ok _ (by decide +kernel)⟩, exists_ok _ (by decide +kernel), exists_raise _ _ (by decide +kernel),
    exists_raise _ _ (by decide +kernel)⟩

/-- DeepEnoughStackNeverOverflows: a buffer of nine bytes and four frames. -/
theorem witness_DeepEnoughStackNeverOverflows : ∃ s : State, Inv s ∧ 8 * s.cfg.bufMaxBytes / 18 ≤ s.cfg.stackDepth :=
  ⟨{ onBytes nestedBytes with cfg := { Config.default with bufMaxBytes := 9, stackDepth := 4 } },
    inv_of _ (by decide +kernel), by decide⟩

/-- UnknownTypeNeverRaised and PacketTakesElevenBits: P7, and the shortest packet. -/
theorem witness_packet :
    (∃ t, packet (onBytes (lessBytes.take 5)) = .raise .exhausted t) ∧ ∃ a t, packet (onBytes [0xD1, 0x50]) = .ok a t :=
  ⟨exists_raise _ _ (by decide +kernel), exists_ok _ (by decide +kernel)⟩

/-- P4's packet. -/
def nestedPacket : Packet :=
  .operator 4 2 .packetCount 1 [.operator 1 2 .packetCount 1 [.operator 5 2 .totalBits 11 [.literal 6 15 1]]]

/-- PacketDecodesEveryPacket, and StreamDecodesEverySequence: P4 with exactly three frames; three bits follow it. -/
theorem witness_PacketDecodesEveryPacket :
    let s : State := { onBytes nestedBytes with cfg := { Config.default with stackDepth := 3 } }
    s.fault = false ∧ s.stk = [] ∧ nestedPacket.wellFormed = true ∧ nestedPacket.nesting ≤ s.cfg.stackDepth ∧
    s.BitsAt s.bitOffset nestedPacket.bits ∧ packetsWellFormed [nestedPacket] = true ∧
    packetsNesting [nestedPacket] ≤ s.cfg.stackDepth ∧ s.BitsAt s.bitOffset (packetsBits [nestedPacket]) ∧
    s.endOfBuffer < s.bitOffset + (packetsBits [nestedPacket]).length + 11 :=
  ⟨rfl, rfl, by decide +kernel, by decide +kernel, bitsAt_of _ _ _ (by decide +kernel), by decide +kernel,
    by decide +kernel, bitsAt_of _ _ _ (by decide +kernel), by decide +kernel⟩

/-- EmptyOperatorAccepted: P5 and P6. -/
theorem witness_EmptyOperatorAccepted :
    (onBytes [0xA0, 0x00, 0x00]).fault = false ∧ (onBytes [0xA0, 0x00, 0x00]).stk = [] ∧
    1 ≤ (onBytes [0xA0, 0x00, 0x00]).cfg.stackDepth ∧ (0 : BitVec 3) ≠ 4 ∧ (7 : BitVec 3) ≠ 4 ∧
    (onBytes [0xA0, 0x00, 0x00]).BitsAt 0 (headerM0Bits 0 5 0) ∧ (onBytes [0x7E, 0x00, 0x00]).BitsAt 0 (headerM1Bits 7 3 0) :=
  ⟨rfl, rfl, by decide, by decide, by decide, bitsAt_of _ _ _ (by decide +kernel), bitsAt_of _ _ _ (by decide +kernel)⟩

/-- OverrunningChildAccepted: P9. -/
theorem witness_OverrunningChildAccepted :
    (Packet.literal 6 10 1).wellFormed = true ∧ 0 < (5 : BitVec 15).toNat ∧ (5 : BitVec 15).toNat < 6 + 5 * (1 : Word32).toNat ∧
    (onBytes [0x20, 0x00, 0x17, 0x45, 0x00]).BitsAt 0 (headerM0Bits 0 1 5 ++ (Packet.literal 6 10 1).bits) :=
  ⟨by decide +kernel, by decide, by decide, bitsAt_of _ _ _ (by decide +kernel)⟩

/-- PacketCommandOutcome, StreamCommandOutcome, PacketAndStreamFrame and StreamCommitsWholePackets: T4's two packets. -/
theorem witness_PacketAndStream :
    let s := onBytes [0xD2, 0xFE, 0x29, 0x87]
    (s.fault = false ∧ s.stk = [] ∧ s.bitOffset ≤ s.endOfBuffer) ∧
    exec .packet s = .next (nextOf (exec .packet s)) ∧ exec .stream s = .next (nextOf (exec .stream s)) :=
  ⟨by decide +kernel, eq_next _ (by decide +kernel), eq_next _ (by decide +kernel)⟩

/-- StreamIsPacketThenStream: T4. -/
theorem witness_StreamIsPacketThenStream :
    let s := onBytes [0xD2, 0xFE, 0x29, 0x87]
    let t := nextOf (exec .packet s)
    let u := nextOf (exec .stream t)
    exec .packet s = .next t ∧
    t.delivered = s.delivered ++ [Event.literal 6 3 2021].map .event ++ [.response (Response.success 0 1 0 0)] ∧
    exec .stream t = .next u ∧
    u.delivered = t.delivered ++ [Event.literal 1 1 7].map .event ++ [.response (Response.success 0 1 1 32)] ∧
    (Response.success 0 1 1 32).status = 0 :=
  ⟨eq_next _ (by decide +kernel), by decide +kernel, eq_next _ (by decide +kernel), by decide +kernel, by decide⟩

/-- OperatorHeaderOpensFrame with one frame left, and OperatorHeaderOverflowsStack with none. -/
theorem witness_operatorHeaders :
    let f : Frame := { mode := .totalBits, limit := 49, nchild := 0 }
    let c : Config := { Config.default with stackDepth := 1 }
    (7 : BitVec 3) ≠ 4 ∧ ({ State.reset with cfg := c } : State).sp ≠ c.stackDepth ∧
    ({ State.reset with cfg := c, stk := [f] } : State).sp = c.stackDepth := by decide

/-- LiteralFormatFolds: the largest value that folds and the smallest that does not. -/
theorem witness_LiteralFormatFolds :
    payloadsNat (List.replicate 16 15).dropLast < 2 ^ 60 ∧ 2 ^ 60 ≤ payloadsNat (1 :: List.replicate 16 0).dropLast := by
  decide +kernel

/-- GroupAndHeaderFormats: both sides of `2^60`. -/
theorem witness_GroupAndHeaderFormats :
    (0x0FFFFFFFFFFFFFFF : Word64).toNat < 2 ^ 60 ∧ 2 ^ 60 ≤ (0x1000000000000000 : Word64).toNat := by decide

/-- EngineRunsStreamFormats: the headers of S3 and P3, and the literal of S2. -/
theorem witness_EngineRunsStreamFormats :
    ({ onBytes lessBytes with pgState := .version } : State).pgState = .version ∧
    ({ onBytes lessBytes with pgState := .version } : State).sp ≠ Config.default.stackDepth ∧
    ({ onBytes lessBytes with pgState := .version } : State).BitsAt 0 (headerM0Bits 6 1 27) ∧
    ({ onBytes maximumBytes with pgState := .version } : State).BitsAt 0 (headerM1Bits 3 7 3) ∧
    payloadsNat [7, 14] < 2 ^ 60 ∧
    ({ onBytes literalBytes with pgState := .version } : State).BitsAt 0
      (fieldBits (6 : BitVec 3) ++ fieldBits 4#3 ++ varintBits [7, 14, 5]) :=
  ⟨rfl, by decide, bitsAt_of _ _ _ (by decide +kernel), bitsAt_of _ _ _ (by decide +kernel), by decide,
    bitsAt_of _ _ _ (by decide +kernel)⟩

theorem witness_HostPlacesAByte : ∃ s : State, s.busy = false ∧ s.hostMem.wf ∧ s.inbox = [.place 0xFFFFFFFF 7] :=
  ⟨{ State.reset with inbox := [.place 0xFFFFFFFF 7] }, rfl, by decide, rfl⟩

theorem witness_HexDecoderAcceptsHexPairs : hexDecode "fF".toList = .ok [0xFF] ∧ 1 < "fF".toList.length ∧ 3 < 4 := by
  decide +kernel

/-- The comparison of two literals, more than two children and the lax parameter. -/
def comparison (t : BitVec 3) : Packet := .operator 1 t .packetCount 3 [.literal 0 10 1, .literal 0 20 2, .literal 0 3 1]

/-- ComparisonsGiveZeroOrOne: H2 with a third child, each relation. -/
theorem witness_ComparisonsGiveZeroOrOne :
    let cfg : EvalConfig := { domain := .modulo64, strict := false }
    (comparison 5).eval cfg = .ok 0 ∧ (comparison 6).eval cfg = .ok 1 ∧ (comparison 7).eval cfg = .ok 0 ∧
    (Packet.literal 0 10 1).eval cfg = .ok 10 ∧ (Packet.literal 0 20 2).eval cfg = .ok 20 := by decide +kernel

/-- OnlyBytesBelowLenMatter: two buffers that differ at LEN only, and a read up to there. -/
theorem witness_OnlyBytesBelowLenMatter :
    let s := withCommand 0x48 0 (onBytes literalBytes 16)
    let b := placeBytes 0 (literalBytes ++ [7]) ⟨[]⟩
    s.buf.wf ∧ b.wf ∧ b ≠ s.buf ∧ (∀ i < s.len, b.read i = s.buf.read i) ∧ step s = .next (nextOf (step s)) :=
  ⟨by decide +kernel, by decide +kernel, by decide +kernel, by decide +kernel, eq_next _ (by decide +kernel)⟩

/-! ### The pipeline -/

/-- The evaluator of the vectors of section 2.7. -/
def vectorEval : EvalConfig := { domain := .naturals, strict := true }

/-- H1: version sum 6 and value 2021, the strict end of R161 asked for. -/
theorem test_pipeline :
    versionSumOfText true "D2FE28".toList State.reset = .ok 6 ∧
    valueOfText vectorEval true "D2FE28".toList State.reset = .ok 2021 := by decide +kernel

/-- T6 (R190): a truncated packet is no packet, so the version sum is 0 and the evaluation fails. T10 (R161): non-zero bits
after the last packet. -/
theorem test_pipeline_errors :
    versionSumOfText false "38006F".toList State.reset = .ok 0 ∧
    valueOfText vectorEval false "38006F".toList State.reset = .error .decodeOrEvaluate ∧
    versionSumOfText false "D150".toList State.reset = .ok 6 ∧
    versionSumOfText true "D150".toList State.reset = .error .decodeOrEvaluate ∧
    versionSumOfText false "D2F".toList State.reset = .error .decodeOrEvaluate := by decide +kernel

/-- The packets of T4, which T9 follows with eight padding bits. -/
def twoPackets : List Packet := [.literal 6 2021 3, .literal 1 7 1]

/-- PipelineDecodesTransmission: T4 with nothing after it and the strict end, T9 with the lax one. -/
theorem witness_PipelineDecodesTransmission :
    Inv (onBytes lessBytes 6) ∧ (onBytes lessBytes 6).fault = false ∧
    hexDecode "D2FE2987".toList = .ok [0xD2, 0xFE, 0x29, 0x87] ∧
    streamBits [0xD2, 0xFE, 0x29, 0x87] = packetsBits twoPackets ++ [] ∧
    streamBits [0xD2, 0xFE, 0x29, 0x87, 0] = packetsBits twoPackets ++ List.replicate 8 false ∧
    packetsWellFormed twoPackets = true ∧ packetsNesting twoPackets ≤ (onBytes lessBytes 6).cfg.stackDepth :=
  ⟨inv_of _ (by decide +kernel), rfl, by decide +kernel, by decide +kernel, by decide +kernel, by decide +kernel,
    by decide +kernel⟩

/-- PipelineReportsOneError: an odd text; a buffer of one byte, too small for S2, so LOAD fails; FAULT; no packet. -/
theorem witness_PipelineReportsOneError :
    let small : State := { State.reset with cfg := { Config.default with bufMaxBytes := 1 } }
    hexDecode "D2F".toList = .error .malformedHex ∧
    (hexDecode "D2FE28".toList = .ok literalBytes ∧ decodeOnBlock literalBytes small = .next (nextOf (decodeOnBlock literalBytes small)) ∧
      .response (Response.failure .illegalCmd) ∈
        (nextOf (decodeOnBlock literalBytes small)).delivered.drop small.delivered.length) ∧
    (∃ s : State, s.fault = true) ∧
    (decodeText false "38006F".toList State.reset = .ok [] ∧ evaluationQuery vectorEval [] = .error .noPacket) :=
  ⟨by decide +kernel, ⟨by decide +kernel, eq_next _ (by decide +kernel), by decide +kernel⟩,
    ⟨{ State.reset with fault := true }, rfl⟩, by decide +kernel⟩

/-- PipelineIsPure: a state in the middle of another buffer and one after a decode. -/
theorem witness_PipelineIsPure :
    Inv (onBytes lessBytes 6) ∧ Inv (onBytes nestedBytes 18) ∧ (onBytes nestedBytes 18).cfg = (onBytes lessBytes 6).cfg ∧
    (onBytes nestedBytes 18).fault = (onBytes lessBytes 6).fault ∧ hexDecode "D2FE28".toList = .ok literalBytes ∧
    decodeOnBlock literalBytes (onBytes lessBytes 6) = .next (nextOf (decodeOnBlock literalBytes (onBytes lessBytes 6))) :=
  ⟨inv_of _ (by decide +kernel), inv_of _ (by decide +kernel), rfl, rfl, by decide +kernel, eq_next _ (by decide +kernel)⟩

end Sys2Proof.Tests
end

section
/-! The event records (R15, R78): each event has one row of the opcode table, which emits that event and is written with
its 104 bits. -/

namespace Sys2Proof.Machine

/-- The row of the opcode table that stands for an event (R78): an `OP_BEGIN` row carries the length mode as a bit. -/
def Event.row : Event → Instr
  | .literal v g x => .evLiteral v g x
  | .opBegin v t .totalBits l => .evOpBegin v t false l
  | .opBegin v t .packetCount l => .evOpBegin v t true l
  | .opEnd k => .evOpEnd k

/-- The length mode is a bit of the row and a constructor of the event, so `OP_BEGIN` is two cases. -/
@[simp] theorem exec_eventRow (e : Event) (s : State) : exec e.row s = .next (s.emit e) := by
  cases e with
  | literal v g x => rfl
  | opBegin v t mode l =>
    cases mode with
    | totalBits => rfl
    | packetCount => rfl
  | opEnd k => rfl

@[simp] theorem encode_eventRow (e : Event) : encode e.row = .event e.word := by
  cases e with
  | literal v g x => rfl
  | opBegin v t mode l =>
    cases mode with
    | totalBits => rfl
    | packetCount => rfl
  | opEnd k => rfl

/-- Settles O50: each clause is `exec_eventRow` or `encode_eventRow` at the event of its row. -/
theorem eventRecordsAreEmitted : Obligations.EventRecordsAreEmitted := by
  intro s
  refine ⟨fun v a d => ?literal, fun v t l => ?opBegin, fun a => ?opEnd⟩
  case literal =>
    exact ⟨exec_eventRow (.literal v a d) s, encode_eventRow (.literal v a d)⟩
  case opBegin =>
    exact ⟨exec_eventRow (.opBegin v t .totalBits l) s, exec_eventRow (.opBegin v t .packetCount l) s,
      encode_eventRow (.opBegin v t .totalBits l), encode_eventRow (.opBegin v t .packetCount l)⟩
  case opEnd =>
    exact ⟨exec_eventRow (.opEnd a) s, encode_eventRow (.opEnd a)⟩

end Sys2Proof.Machine
end

section
/-! What a command leaves of the state: the registers it keeps, how far the cursor goes, and that every counter is paid for
with bits of the stream (R23, R24, R31, R157). -/

namespace Sys2Proof.Machine

/-! ### Micro-operations -/

theorem Micro.bind_keeps {α β : Type} {R : State → State → Prop} (trans : ∀ {s t u}, R s t → R t u → R s u)
    {m : Micro α} {f : α → State → Micro β} {s : State} (hm : R s m.state) (hf : ∀ a t, R t (f a t).state) :
    R s (m.bind f).state := by
  cases m with
  | ok a t => exact trans hm (hf a t)
  | raise c t => exact hm

/-- Everything `consume_W` can do to the state: only the cursor moves, forward and within the buffer (R101, R107). -/
theorem consume_state (W count : Nat) (s : State) :
    ∃ n, (consume W count s).state = { s with bitOffset := n } ∧ s.bitOffset ≤ n ∧ n ≤ max s.bitOffset (8 * s.len) := by
  by_cases h : W < count
  · rw [consume_contract s h]
    exact ⟨s.bitOffset, rfl, Nat.le_refl _, Nat.le_max_left _ _⟩
  · rcases consume_cases s (Nat.le_of_not_lt h) with ⟨ho, hc⟩ | ⟨ho, hc⟩ <;> rw [hc]
    · exact ⟨s.bitOffset + count, rfl, by omega, by omega⟩
    · exact ⟨max s.bitOffset (8 * s.len), rfl, by omega, by omega⟩

/-- A read that succeeds takes its bits and does nothing else. -/
theorem consume_eq_ok {W count : Nat} {s t : State} {v : BitVec W} (h : consume W count s = .ok v t) :
    t = { s with bitOffset := s.bitOffset + count } := by
  by_cases hw : W < count
  · rw [consume_contract s hw] at h
    cases h
  · rcases consume_cases s (Nat.le_of_not_lt hw) with ⟨ho, hc⟩ | ⟨ho, hc⟩ <;> rw [hc] at h <;> cases h
    rfl

theorem consume_moved (W count : Nat) (s : State) : Moved s (consume W count s).state := by
  obtain ⟨n, hn, hf, hb⟩ := consume_state W count s
  rw [hn]
  constructor <;> first | rfl | assumption

/-! ### `GROUPS` is paid for -/

/-- The cursor has not moved back, and `GROUPS` is as before or counts groups of five bits each, all before the cursor. -/
structure GroupsPaid (s t : State) : Prop where
  forward : s.bitOffset ≤ t.bitOffset
  groups : t.groups = s.groups ∨ 5 * t.groups ≤ t.bitOffset

theorem GroupsPaid.trans {s t u : State} (h : GroupsPaid s t) (h' : GroupsPaid t u) : GroupsPaid s u := by
  have := h.forward
  have := h.groups
  have := h'.forward
  have := h'.groups
  exact ⟨by omega, by omega⟩

/-- The group count alone cannot fall behind where it and the cursor stay. -/
theorem GroupsPaid.of_eq {s t : State} (hb : t.bitOffset = s.bitOffset) (hg : t.groups = s.groups) : GroupsPaid s t :=
  ⟨hb.ge, .inl hg⟩

theorem consume_groupsPaid (W count : Nat) (s : State) : GroupsPaid s (consume W count s).state := by
  obtain ⟨n, hn, hf, -⟩ := consume_state W count s
  rw [hn]
  exact ⟨hf, .inl rfl⟩

/-- Each round takes five bits before it counts its group. -/
theorem varintLoop_groups_le (rounds : Nat) (s : State) (h : 5 * s.groups ≤ s.bitOffset) :
    5 * (varintLoop rounds s).state.groups ≤ (varintLoop rounds s).state.bitOffset := by
  induction rounds generalizing s with
  | zero => exact h
  | succ rounds ih =>
    have ha : 5 * s.afterGroup.groups ≤ s.afterGroup.bitOffset := by
      simp only [State.afterGroup]
      omega
    rw [varintLoop_succ]
    split_ifs
    · simp only [Micro.state]
      omega
    · exact ih _ ha
    · exact ha
    · simp only [Micro.state]
      omega

theorem varint_groupsPaid (s : State) : GroupsPaid s (varint s).state where
  forward := (varint_moved s).forward
  groups := .inr (varintLoop_groups_le _ _ (Nat.zero_le _))

theorem pushOperator_groupsPaid (mode : LengthMode) (l : BitVec 15) (s : State) :
    GroupsPaid s (pushOperator mode l s).state := by
  rcases pushOperator_cases mode l s with ⟨-, hp⟩ | ⟨-, f, -, -, -, hp⟩ <;> rw [hp]
  · exact .of_eq rfl rfl
  · exact .of_eq rfl rfl

theorem nextChild_groupsPaid (s : State) : GroupsPaid s (nextChild s) := by
  unfold nextChild
  split
  · exact .of_eq rfl rfl
  · split <;> split_ifs <;> exact .of_eq rfl rfl

theorem closeOperator_groupsPaid (s : State) : GroupsPaid s (closeOperator s) := by
  unfold closeOperator
  split <;> exact .of_eq rfl rfl

theorem packetDone_groupsPaid (s : State) : GroupsPaid s (packetDone s) := by
  unfold packetDone
  split <;> exact .of_eq rfl rfl

theorem pgAction_groupsPaid (s : State) : GroupsPaid s (pgAction s).state := by
  cases hpg : s.pgState <;> simp only [pgAction, hpg]
  case idle => exact .of_eq rfl rfl
  case version => exact Micro.bind_keeps .trans (consume_groupsPaid 8 3 s) fun _ _ => .of_eq rfl rfl
  case type => exact Micro.bind_keeps .trans (consume_groupsPaid 8 3 s) fun _ _ => .of_eq rfl rfl
  case literal => exact Micro.bind_keeps .trans (varint_groupsPaid s) fun _ _ => .of_eq rfl rfl
  case ltype => exact Micro.bind_keeps .trans (consume_groupsPaid 8 1 s) fun _ _ => .of_eq rfl rfl
  case len15 => exact Micro.bind_keeps .trans (consume_groupsPaid 16 15 s) fun _ _ => pushOperator_groupsPaid _ _ _
  case len11 => exact Micro.bind_keeps .trans (consume_groupsPaid 16 11 s) fun _ _ => pushOperator_groupsPaid _ _ _
  case next => exact nextChild_groupsPaid s
  case close => exact closeOperator_groupsPaid s
  case done => exact packetDone_groupsPaid s

theorem packet_groupsPaid (s : State) : GroupsPaid s (packet s).state := by
  have h0 : GroupsPaid s { s with pgState := .version } := .of_eq rfl rfl
  have he := engineRun_induction (P := GroupsPaid s) (fun t ht _ => ht.trans (pgAction_groupsPaid t)) _ h0
  rw [packet_eq]
  cases hr : engineRun { s with pgState := .version } with
  | ok u t => rwa [hr] at he
  | raise c t =>
    rw [hr] at he
    exact he.trans (.of_eq rfl rfl)

end Sys2Proof.Machine
end

section
/-! What a packet that is completed has done: at least eleven bits are taken (R164) and every frame is popped (R157). -/

namespace Sys2Proof.Machine

/-- The bits an attempt still takes before its first packet header is complete: 3 of version, 3 of type id, then at least 5
of a literal's first group, or of the length type and the length field. -/
def PgState.bitsOwed : PgState → Nat
  | .version => 11
  | .type => 8
  | .literal | .ltype | .len15 | .len11 => 5
  | .idle | .next | .close | .done => 0

/-- An action of the engine from `s` to `t`: what is owed falls by no more than the bits taken, and the engine stops only
with no frame open. -/
structure Onward (s t : State) : Prop where
  paid : s.bitOffset + s.pgState.bitsOwed ≤ t.bitOffset + t.pgState.bitsOwed
  noFrame : t.pgState = .idle → t.stk = []

theorem Onward.trans {s t u : State} (h : Onward s t) (h' : Onward t u) : Onward s u :=
  ⟨h.paid.trans h'.paid, h'.noFrame⟩

theorem pushOperator_onward {s t u : State} {mode : LengthMode} {l : BitVec 15} (hs : s.pgState.bitsOwed = 5)
    (ht : s.bitOffset + 5 ≤ t.bitOffset) (h : pushOperator mode l t = .ok () u) : Onward s u := by
  rcases pushOperator_cases mode l t with ⟨-, hp⟩ | ⟨-, f, -, -, -, hp⟩ <;> rw [hp] at h <;> cases h
  exact ⟨by rw [hs]; exact Nat.le_add_right_of_le ht, fun hi => nomatch hi⟩

theorem Onward.of_owes_nothing {s t : State} (hs : s.pgState.bitsOwed = 0) (hf : GroupsPaid s t)
    (hk : t.pgState = .idle → t.stk = []) : Onward s t :=
  ⟨by rw [hs]; exact Nat.le_add_right_of_le hf.forward, hk⟩

theorem nextChild_onward {s : State} (hs : s.pgState.bitsOwed = 0) : Onward s (nextChild s) := by
  refine .of_owes_nothing hs (nextChild_groupsPaid s) ?_
  unfold nextChild
  split
  · rename_i hk
    exact fun _ => hk
  · split <;> split_ifs <;> exact fun hi => nomatch hi

theorem closeOperator_onward {s : State} (hs : s.pgState.bitsOwed = 0) : Onward s (closeOperator s) := by
  refine .of_owes_nothing hs (closeOperator_groupsPaid s) ?_
  unfold closeOperator
  split
  · rename_i hk
    exact fun _ => hk
  · exact fun hi => nomatch hi

theorem packetDone_onward {s : State} (hs : s.pgState.bitsOwed = 0) : Onward s (packetDone s) := by
  refine .of_owes_nothing hs (packetDone_groupsPaid s) ?_
  unfold packetDone
  split
  · rename_i hk
    exact fun _ => hk
  · exact fun hi => nomatch hi

/-- Every action that succeeds (R152). -/
theorem pgAction_onward {s t : State} (hs : s.pgState ≠ .idle) (h : pgAction s = .ok () t) : Onward s t := by
  cases hpg : s.pgState <;> simp only [pgAction, hpg, Micro.bind_eq_ok, Micro.ok.injEq, true_and] at h
  case idle => exact absurd hpg hs
  case version =>
    obtain ⟨v, u, hc, rfl⟩ := h
    obtain rfl := consume_eq_ok hc
    exact ⟨by simp [hpg, PgState.bitsOwed], fun hi => nomatch hi⟩
  case type =>
    obtain ⟨v, u, hc, rfl⟩ := h
    obtain rfl := consume_eq_ok hc
    split_ifs
    · exact ⟨by simp [hpg, PgState.bitsOwed], fun hi => nomatch hi⟩
    · exact ⟨by simp [hpg, PgState.bitsOwed], fun hi => nomatch hi⟩
  case literal =>
    obtain ⟨r, u, hv, rfl⟩ := h
    have hf : s.bitOffset + 5 ≤ u.bitOffset := by
      rcases varint_cases s with ⟨w, hw, -, h5, -⟩ | ⟨w, hw, -⟩ | ⟨w, hw, -⟩ <;> rw [hw] at hv <;> cases hv
      exact h5
    exact ⟨by simpa [hpg, PgState.bitsOwed, finishLiteral] using hf, fun hi => nomatch hi⟩
  case ltype =>
    obtain ⟨v, u, hc, rfl⟩ := h
    obtain rfl := consume_eq_ok hc
    split_ifs
    · exact ⟨by simp [hpg, PgState.bitsOwed], fun hi => nomatch hi⟩
    · exact ⟨by simp [hpg, PgState.bitsOwed], fun hi => nomatch hi⟩
  case len15 =>
    obtain ⟨v, u, hc, hp⟩ := h
    obtain rfl := consume_eq_ok hc
    exact pushOperator_onward (by simp [hpg, PgState.bitsOwed]) (by simp) hp
  case len11 =>
    obtain ⟨v, u, hc, hp⟩ := h
    obtain rfl := consume_eq_ok hc
    exact pushOperator_onward (by simp [hpg, PgState.bitsOwed]) (by simp) hp
  case next => exact h ▸ nextChild_onward (by rw [hpg]; rfl)
  case close => exact h ▸ closeOperator_onward (by rw [hpg]; rfl)
  case done => exact h ▸ packetDone_onward (by rw [hpg]; rfl)

/-- A property that every action that succeeds keeps holds where the engine's run ends well. -/
theorem engineRun_ok_induction {P : State → Prop}
    (visit : ∀ s t, P s → s.pgState ≠ .idle → pgAction s = .ok () t → P t) {s t : State} (hs : P s)
    (h : engineRun s = .ok () t) : P t := by
  induction hn : s.engineWork using Nat.strong_induction_on generalizing s with
  | _ n ih =>
    subst hn
    rw [engineRun_eq] at h
    split_ifs at h with hi
    · cases h
      exact hs
    · obtain ⟨u, v, hv, hr⟩ := Micro.bind_eq_ok.mp h
      exact ih _ ((pgAction_visited s hi).less v hv) (visit s v hs hi hv) hr rfl

/-- A completed attempt has taken at least eleven bits, and no frame is open after it (R157, R164). -/
theorem packet_eq_ok {s t : State} (h : packet s = .ok () t) : s.bitOffset + 11 ≤ t.bitOffset ∧ t.stk = [] := by
  rw [packet_eq] at h
  cases hr : engineRun { s with pgState := .version } with
  | raise c v => rw [hr] at h; cases h
  | ok u v =>
    rw [hr] at h
    cases h
    have h0 : Onward { s with pgState := .version } { s with pgState := .version } :=
      ⟨Nat.le_refl _, fun hi => nomatch hi⟩
    obtain ⟨hpaid, hnoFrame⟩ := engineRun_ok_induction
      (fun _ _ hv hi hact => hv.trans (pgAction_onward hi hact)) h0 hr
    have hidle := engineRun_idle hr
    rw [hidle] at hpaid
    exact ⟨hpaid, hnoFrame hidle⟩

end Sys2Proof.Machine
end

section
/-! What a command on the port does to the state, said once: every command but a LOAD that is carried out, and every word that
is no instruction, keeps what `Answered` says (R21 to R31, R157, R200, R240). -/

namespace Sys2Proof.Machine

/-! ### Inside a command -/

/-- A whole micro-operation between two states of a command: it has moved, its groups are paid for, and an engine that was
idle with no frame open is so again (R157). -/
structure Worked (s t : State) : Prop extends Moved s t, GroupsPaid s t where
  idle : s.pgState = .idle → t.pgState = .idle
  noFrame : s.stk = [] → t.stk = []

theorem consume_worked (W count : Nat) (s : State) : Worked s (consume W count s).state := by
  refine { consume_moved W count s, consume_groupsPaid W count s with idle := ?_, noFrame := ?_ } <;>
    · obtain ⟨n, hn, -⟩ := consume_state W count s
      rw [hn]
      exact id

theorem varint_worked (s : State) : Worked s (varint s).state := by
  refine { varint_moved s, varint_groupsPaid s with idle := ?_, noFrame := ?_ } <;>
    · rcases varint_cases s with ⟨t, hv, ht, -⟩ | ⟨t, hv, ht⟩ | ⟨t, hv, ht, -⟩ <;> rw [hv, Micro.state, ht] <;> exact id

theorem packet_noFrame (s : State) : (packet s).state.stk = [] := by
  cases hp : packet s with
  | ok u t => exact (packet_eq_ok hp).2
  | raise c t =>
    rw [packet_eq] at hp
    cases hr : engineRun { s with pgState := .version } <;> rw [hr] at hp <;> cases hp
    rfl

theorem packet_worked (s : State) : Worked s (packet s).state :=
  { (packet_moved s).1, packet_groupsPaid s with
    idle := fun _ => (packet_moved s).2
    noFrame := fun _ => packet_noFrame s }

/-- What stands in the registers of the block after part of a command that began in `s`: the counters are as before the
command, or counted by it and paid for with bits of the stream. -/
structure Progress (s t : State) : Prop where
  cfg : t.cfg = s.cfg
  buf : t.buf = s.buf
  len : t.len = s.len
  hostMem : t.hostMem = s.hostMem
  forward : s.bitOffset ≤ t.bitOffset
  bounded : t.bitOffset ≤ max s.bitOffset (8 * s.len)
  groups : t.groups = s.groups ∨ 5 * t.groups ≤ t.bitOffset
  pktCount : t.pktCount = s.pktCount ∨ 5 * t.pktCount ≤ t.bitOffset
  attemptStart : t.attemptStart = s.attemptStart ∨ t.attemptStart ≤ t.bitOffset
  idle : s.pgState = .idle → t.pgState = .idle
  noFrame : s.stk = [] → t.stk = []

/-- A command that began in `s` is still running in `t`: the latch is as it was and nothing has been handed to the host. -/
structure Running (s t : State) : Prop extends Progress s t where
  fault : t.fault = s.fault
  delivered : t.delivered = s.delivered

/-- A command that began in `s` has been answered in `t`: `FAULT` is as it was, or is set and the one thing handed to the host
is the failure response of a cause that sets it (R24, R200). -/
structure Answered (s t : State) : Prop extends Progress s t where
  notBusy : t.busy = false
  noProvisional : s.provisional = [] → t.provisional = []
  fault : t.fault = s.fault ∨
    t.fault = true ∧ ∃ c : Cause, c.sticky = true ∧ t.delivered = s.delivered ++ [.response (Response.failure c)]

theorem Progress.refl (s : State) : Progress s s := by
  constructor <;> first | rfl | exact .inl rfl | exact id | exact Nat.le_refl _ | exact Nat.le_max_left _ _

/-- A command that has been accepted has done nothing but make `BUSY` 1 (R30). -/
theorem Running.accepted (s : State) : Running s { s with busy := true } :=
  { Progress.refl s with fault := rfl, delivered := rfl }

theorem Running.trans_worked {s t u : State} (h : Running s t) (hw : Worked t u) : Running s u := by
  have hf := hw.forward
  have hb := hw.bounded
  have hg := hw.groups
  rw [h.len] at hb
  exact
    { cfg := hw.cfg.trans h.cfg
      buf := hw.buf.trans h.buf
      len := hw.len.trans h.len
      hostMem := hw.hostMem.trans h.hostMem
      forward := h.forward.trans hf
      bounded := by have := h.bounded; omega
      groups := by have := h.groups; omega
      pktCount := by have := h.pktCount; have := hw.pktCount; omega
      attemptStart := by have := h.attemptStart; have := hw.attemptStart; omega
      idle := fun hi => hw.idle (h.idle hi)
      noFrame := fun hk => hw.noFrame (h.noFrame hk)
      fault := hw.fault.trans h.fault
      delivered := hw.delivered.trans h.delivered }

/-- `PKT_COUNT` set to a number of packets that the bits before the cursor hold. -/
theorem Running.count {s t : State} (h : Running s t) {n : Nat} (hn : 5 * n ≤ t.bitOffset) :
    Running s { t with pktCount := n } :=
  { h with pktCount := .inr hn }

/-- `ATTEMPT_START` set to the cursor. -/
theorem Running.attempt {s t : State} (h : Running s t) : Running s { t with attemptStart := t.bitOffset } :=
  { h with attemptStart := .inr (Nat.le_refl _) }

/-! ### The response -/

theorem Running.respond {s t : State} (h : Running s t) (hp : s.provisional = [] → t.provisional = []) (r : Response) :
    Answered s (t.respond r) :=
  { h with notBusy := rfl, noProvisional := hp, fault := .inl h.fault }

theorem Running.commit_respond {s t : State} (h : Running s t) (n : Nat) (r : Response) :
    Answered s ((t.commit n).respond r) :=
  { h with notBusy := rfl, noProvisional := fun _ => rfl, fault := .inl h.fault }

theorem Running.fail {s t : State} (h : Running s t) (hp : s.provisional = [] → t.provisional = []) (c : Cause) :
    Answered s (t.fail c) := by
  refine { h with notBusy := rfl, noProvisional := hp, fault := ?_ }
  cases hc : c.sticky with
  | false => exact .inl (by simp [hc, h.fault])
  | true => exact .inr ⟨by simp [hc], c, hc, by simp [h.delivered]⟩

theorem Running.discard_fail {s t : State} (h : Running s t) (c : Cause) : Answered s (t.discard.fail c) :=
  Running.fail (t := t.discard) { h with } (fun _ => rfl) c

/-- A command is answered if its body answers it; where `FAULT` is 1 the answer is `Faulted` (R208). -/
theorem answered_accept {s : State} {body : State → State}
    (h : Running s { s with busy := true } → Answered s (body { s with busy := true })) : Answered s (s.accept body) := by
  unfold State.accept
  dsimp only
  split_ifs
  · exact (Running.accepted s).fail id _
  · exact h (Running.accepted s)

/-! ### The commands -/

/-- VARINT as a function of the state (R120). -/
def varintCommand (s : State) : State :=
  s.accept fun s =>
    match varint s with
    | .ok (v, k) s => s.respond (Response.success v (BitVec.ofNat 32 k) 0 0)
    | .raise c s => s.fail c

/-- PACKET as a function of the state (R156). -/
def packetCommand (s : State) : State :=
  s.accept fun s =>
    match packet { s with pktCount := 0, attemptStart := s.bitOffset, provisional := [] } with
    | .ok _ s => ({ s with pktCount := 1 }.commit 1).respond (Response.success 0 1 0 0)
    | .raise c s => s.discard.fail c

/-- STREAM as a function of the state (R158). -/
def streamCommand (s : State) : State :=
  s.accept fun s => streamLoop (s.remaining + 1) { s with pktCount := 0, provisional := [] }

/-- LOAD as a function of the state (R91). -/
def loadCommand (arg : Word32) (s : State) : State :=
  s.accept fun s =>
    if s.cfg.bufMaxBytes < arg.toNat then s.fail .illegalCmd
    else
      State.respond (Response.success 0 0 0 0)
        { s with buf := copyBytes arg.toNat s.hostMem s.buf, len := arg.toNat, bitOffset := 0 }

theorem execVarint_eq (s : State) : execVarint s = .next (varintCommand s) := rfl
theorem execPacket_eq (s : State) : execPacket s = .next (packetCommand s) := rfl
theorem execStream_eq (s : State) : execStream s = .next (streamCommand s) := rfl
theorem execLoad_eq (arg : Word32) (s : State) : execLoad arg s = .next (loadCommand arg s) := rfl

/-- What a word on the command port other than LOAD's runs, as a function of the state (R65, R67). -/
inductive Reader : (State → State) → Prop where
  | reject : Reader State.rejectCommand
  | consume (W count : Nat) : Reader (consumeCommand W count)
  | varint : Reader varintCommand
  | packet : Reader packetCommand
  | stream : Reader streamCommand

/-- Only the word 0x20 is LOAD (R65). -/
theorem decodeCommand_load {op : BitVec 8} {arg a : Word32} (h : decodeCommand op arg = .ok (.load a)) :
    op = 0x20 ∧ a = arg := by
  unfold decodeCommand at h
  dsimp only at h
  by_cases hn : BitVec.extractLsb' 0 5 op = (0 : Count5)
  · simp only [hn, if_true] at h
    split at h <;> cases h
    rename_i hop
    have hlow : (BitVec.extractLsb' 0 5 op).toNat = 0 := congrArg BitVec.toNat hn
    simp only [BitVec.extractLsb'_toNat, Nat.shiftRight_eq_div_pow] at hop hlow
    have hlt := op.isLt
    exact ⟨BitVec.eq_of_toNat_eq (show op.toNat = 32 by omega), rfl⟩
  · simp only [hn, if_false] at h
    split at h <;> cases h

/-- Everything a word on the command port can be: LOAD, or one of the others, in every state. -/
theorem runCommand_eq (op : BitVec 8) (arg : Word32) :
    op = 0x20 ∧ (∀ s, runCommand op arg s = .next (loadCommand arg s)) ∨
      ∃ f, Reader f ∧ ∀ s, runCommand op arg s = .next (f s) := by
  unfold runCommand
  simp only [decode]
  rcases decodeCommand_cases op arg with ⟨e, hd⟩ | hd | ⟨n, hd⟩ | ⟨n, hd⟩ | hd | hd | hd | ⟨x, hd⟩ | ⟨x, hd⟩ <;> rw [hd]
  · exact .inr ⟨_, .reject, fun _ => rfl⟩
  · exact .inl ⟨(decodeCommand_load hd).1, fun _ => rfl⟩
  · exact .inr ⟨_, .consume 8 n.toNat, fun _ => rfl⟩
  · exact .inr ⟨_, .consume 16 n.toNat, fun _ => rfl⟩
  · exact .inr ⟨_, .varint, fun _ => rfl⟩
  · exact .inr ⟨_, .packet, fun _ => rfl⟩
  · exact .inr ⟨_, .stream, fun _ => rfl⟩
  · exact .inr ⟨_, .reject, fun _ => rfl⟩
  · exact .inr ⟨_, .reject, fun _ => rfl⟩

theorem consumeCommand_answered (W count : Nat) (s : State) : Answered s (consumeCommand W count s) := by
  refine answered_accept fun h => ?_
  have hw := h.trans_worked (consume_worked W count _)
  have hp : (consume W count { s with busy := true }).state.provisional = s.provisional := by
    obtain ⟨n, hn, -⟩ := consume_state W count { s with busy := true }
    rw [hn]
  cases hc : consume W count { s with busy := true } with
  | ok v t => rw [hc] at hw hp; exact hw.respond hp.trans _
  | raise c t => rw [hc] at hw hp; exact hw.fail hp.trans _

theorem varintCommand_answered (s : State) : Answered s (varintCommand s) := by
  refine answered_accept fun h => ?_
  have hw := h.trans_worked (varint_worked _)
  have hp : (varint { s with busy := true }).state.provisional = s.provisional := by
    rcases varint_cases { s with busy := true } with ⟨t, hv, ht, -⟩ | ⟨t, hv, ht⟩ | ⟨t, hv, ht, -⟩ <;>
      rw [hv, Micro.state, ht]
  cases hv : varint { s with busy := true } with
  | ok r t => rw [hv] at hw hp; exact hw.respond hp.trans _
  | raise c t => rw [hv] at hw hp; exact hw.fail hp.trans _

/-- The packet counted took eleven bits, so `PKT_COUNT` is paid for. -/
theorem packetCommand_answered (s : State) : Answered s (packetCommand s) := by
  refine answered_accept fun h => ?_
  have h0 : Running s { s with busy := true, pktCount := 0, attemptStart := s.bitOffset, provisional := [] } :=
    { h with pktCount := .inr (Nat.zero_le _), attemptStart := .inr (Nat.le_refl _) }
  have hw := h0.trans_worked (packet_worked _)
  dsimp only
  cases hp : packet { s with busy := true, pktCount := 0, attemptStart := s.bitOffset, provisional := [] } with
  | ok u t =>
    rw [hp] at hw
    have h11 := (packet_eq_ok hp).1
    exact (hw.count (show 5 * 1 ≤ t.bitOffset by omega)).commit_respond _ _
  | raise c t => rw [hp] at hw; exact hw.discard_fail c

theorem streamLoop_answered {s₀ : State} (attempts : Nat) {s : State} (h : Running s₀ s)
    (hn : 5 * s.pktCount ≤ s.bitOffset) : Answered s₀ (streamLoop attempts s) := by
  induction attempts generalizing s with
  | zero => exact h.commit_respond _ _
  | succ attempts ih =>
    have hw := h.attempt.trans_worked (packet_worked _)
    have hm := (packet_moved { s with attemptStart := s.bitOffset }).1
    simp only [streamLoop]
    cases hp : packet { s with attemptStart := s.bitOffset } with
    | ok u t =>
      rw [hp] at hw hm
      have h11 : s.bitOffset + 11 ≤ t.bitOffset := (packet_eq_ok hp).1
      have hc : t.pktCount = s.pktCount := hm.pktCount
      have hpaid : 5 * (t.pktCount + 1) ≤ t.bitOffset := by omega
      exact ih (hw.count hpaid) hpaid
    | raise c t =>
      rw [hp] at hw
      cases c
      case exhausted => exact hw.commit_respond _ _
      all_goals exact hw.discard_fail _

theorem streamCommand_answered (s : State) : Answered s (streamCommand s) :=
  answered_accept fun h =>
    streamLoop_answered _ { h with pktCount := .inr (Nat.zero_le _) } (Nat.zero_le _)

theorem Reader.answered {f : State → State} (hf : Reader f) (s : State) : Answered s (f s) := by
  cases hf with
  | reject => exact answered_accept fun h => h.fail id _
  | consume W count => exact consumeCommand_answered W count s
  | varint => exact varintCommand_answered s
  | packet => exact packetCommand_answered s
  | stream => exact streamCommand_answered s

/-! ### LOAD (R91) -/

theorem loadCommand_faulted (arg : Word32) {s : State} (hf : s.fault = true) :
    loadCommand arg s = State.fail .faulted { s with busy := true } := by
  simp [loadCommand, State.accept, hf]

theorem loadCommand_tooLong {arg : Word32} {s : State} (hf : s.fault = false) (h : s.cfg.bufMaxBytes < arg.toNat) :
    loadCommand arg s = State.fail .illegalCmd { s with busy := true } := by
  rw [loadCommand, accept_ok _ hf, if_pos h]

theorem loadCommand_loads {arg : Word32} {s : State} (hf : s.fault = false) (h : arg.toNat ≤ s.cfg.bufMaxBytes) :
    loadCommand arg s = { s with
      buf := copyBytes arg.toNat s.hostMem s.buf, len := arg.toNat, bitOffset := 0, busy := false
      delivered := s.delivered ++ [.response (Response.success 0 0 0 0)] } := by
  rw [loadCommand, accept_ok _ hf, if_neg (Nat.not_lt.mpr h)]
  rfl

/-- Everything LOAD can do: it fails as other commands do, or the buffer is replaced. -/
theorem loadCommand_cases (arg : Word32) (s : State) :
    Answered s (loadCommand arg s) ∨
      arg.toNat ≤ s.cfg.bufMaxBytes ∧
        loadCommand arg s = { s with
          buf := copyBytes arg.toNat s.hostMem s.buf, len := arg.toNat, bitOffset := 0, busy := false
          delivered := s.delivered ++ [.response (Response.success 0 0 0 0)] } := by
  rcases Bool.eq_false_or_eq_true s.fault with hf | hf
  · rw [loadCommand_faulted arg hf]
    exact .inl ((Running.accepted s).fail id _)
  · rcases Nat.lt_or_ge s.cfg.bufMaxBytes arg.toNat with hlt | hle
    · rw [loadCommand_tooLong hf hlt]
      exact .inl ((Running.accepted s).fail id _)
    · exact .inr ⟨hle, loadCommand_loads hf hle⟩

end Sys2Proof.Machine
end

section
/-! The statements about every step between commands: what `Answered` says of a command, with LOAD, reset and the host's own
writes beside it. -/

namespace Sys2Proof.Machine

/-- Everything a step that answers a next state can do, the host's action being done. -/
theorem step_effect {s t : State} (h : step s = .next t) :
    s.inbox = [] ∧ t = s ∨
      (∃ op arg rest, s.inbox = .command op arg :: rest ∧ Answered { s with inbox := rest } t) ∨
      (∃ arg rest, s.inbox = .command 0x20 arg :: rest ∧ arg.toNat ≤ s.cfg.bufMaxBytes ∧
        t = { s with
          buf := copyBytes arg.toNat s.hostMem s.buf, len := arg.toNat, bitOffset := 0, busy := false, inbox := rest
          delivered := s.delivered ++ [.response (Response.success 0 0 0 0)] }) ∨
      (∃ rest, s.inbox = .reset :: rest ∧ t = State.resetBlock { s with inbox := rest }) ∨
      ∃ addr b rest, s.inbox = .place addr b :: rest ∧ t = State.placeByte addr b { s with inbox := rest } := by
  rcases step_cases h with ⟨-, hi | ⟨op, arg, rest, hi, hr⟩ | hi | hi⟩
  · exact .inl hi
  · rcases runCommand_eq op arg with ⟨rfl, hload⟩ | ⟨f, hf, hrun⟩
    · obtain rfl := Host.Outcome.next.inj ((hload _).symm.trans hr)
      rcases loadCommand_cases arg { s with inbox := rest } with ha | ⟨hle, heq⟩
      · exact .inr (.inl ⟨_, arg, rest, hi, ha⟩)
      · exact .inr (.inr (.inl ⟨arg, rest, hi, hle, heq⟩))
    · obtain rfl := Host.Outcome.next.inj ((hrun _).symm.trans hr)
      exact .inr (.inl ⟨op, arg, rest, hi, hf.answered _⟩)
  · exact .inr (.inr (.inr (.inl hi)))
  · exact .inr (.inr (.inr (.inr hi)))

/-! ### The invariant -/

/-- A count of five-bit pieces before the cursor fits its register (R9). -/
theorem count_lt_of_valid {c : Config} (h : c.Valid) {n o : Nat} (hn : 5 * n ≤ o) (ho : o ≤ 8 * c.bufMaxBytes) :
    n < 2 ^ c.countRegW := by
  have := h.2.1
  omega

/-- A bit offset in the buffer fits its register (R9). -/
theorem offset_lt_of_valid {c : Config} (h : c.Valid) {o : Nat} (ho : o ≤ 8 * c.bufMaxBytes) : o < 2 ^ c.offsetW := by
  have := h.1
  omega

theorem Answered.inv {s t : State} (ha : Answered s t) (h : Inv s) : Inv t := by
  obtain ⟨hcfg, hbuf, hhost, hlen, hcur, ⟨hidle, hstk, -, hprov⟩, hw⟩ := h
  have hend : t.bitOffset ≤ 8 * s.len := by
    have := ha.bounded
    simp only [State.endOfBuffer] at hcur
    omega
  have hmax : t.bitOffset ≤ 8 * s.cfg.bufMaxBytes := by omega
  have hwidths : WidthsFit t := by
    refine { len := ?_, bitOffset := ?_, attemptStart := ?_, groups := ?_, pktCount := ?_ } <;> rw [ha.cfg]
    · rw [ha.len]; exact hw.len
    · exact offset_lt_of_valid hcfg hmax
    · rcases ha.attemptStart with he | hle
      · rw [he]; exact hw.attemptStart
      · exact offset_lt_of_valid hcfg (hle.trans hmax)
    · rcases ha.groups with he | hle
      · rw [he]; exact hw.groups
      · exact count_lt_of_valid hcfg hle hmax
    · rcases ha.pktCount with he | hle
      · rw [he]; exact hw.pktCount
      · exact count_lt_of_valid hcfg hle hmax
  exact
    { config := ha.cfg ▸ hcfg
      bufWf := ha.buf ▸ hbuf
      hostMemWf := ha.hostMem ▸ hhost
      lenBound := by rw [ha.len, ha.cfg]; exact hlen
      cursorBound := by simpa only [State.endOfBuffer, ha.len] using hend
      boundary := ⟨ha.idle hidle, ha.noFrame hstk, ha.notBusy, ha.noProvisional hprov⟩
      widths := hwidths }

theorem resetBlock_inv {s : State} (h : Inv s) : Inv s.resetBlock where
  config := h.config
  bufWf := memory_wf_nil
  hostMemWf := h.hostMemWf
  lenBound := Nat.zero_le _
  cursorBound := Nat.zero_le _
  boundary := ⟨rfl, rfl, rfl, rfl⟩
  widths := by constructor <;> exact Nat.two_pow_pos _

theorem placeByte_inv {s : State} (h : Inv s) (addr : Word32) (b : Byte) : Inv (s.placeByte addr b) :=
  { h with
    hostMemWf := Memory.write_wf _ _ h.hostMemWf
    boundary := { h.boundary with }
    widths := { h.widths with } }

/-- Settles O4: by what the step's action does. -/
theorem everyStepKeepsInvariant : Obligations.EveryStepKeepsInvariant := by
  intro s t h hstep
  have hq : ∀ rest, Inv { s with inbox := rest } := fun rest =>
    { h with boundary := { h.boundary with }, widths := { h.widths with } }
  rcases step_effect hstep with
    ⟨-, rfl⟩ | ⟨op, arg, rest, -, ha⟩ | ⟨arg, rest, -, hle, rfl⟩ | ⟨rest, -, rfl⟩ | ⟨addr, b, rest, -, rfl⟩
  · exact h
  · exact ha.inv (hq rest)
  · exact
      { h with
        bufWf := copyBytes_wf _ _ h.bufWf
        lenBound := hle
        cursorBound := Nat.zero_le _
        boundary := { h.boundary with notBusy := rfl }
        widths := { h.widths with
          len := offset_lt_of_valid h.config (hle.trans (Nat.le_mul_of_pos_left _ (by decide)))
          bitOffset := Nat.two_pow_pos _ } }
  · exact resetBlock_inv (hq rest)
  · exact placeByte_inv (hq rest) addr b

/-- Settles O3: the parameters are the defaults, and every other clause is about zero or about nothing. -/
theorem resetMeetsInvariant : Obligations.ResetMeetsInvariant where
  config := by decide
  bufWf := reset_memories_wf.1
  hostMemWf := reset_memories_wf.2
  lenBound := Nat.zero_le _
  cursorBound := Nat.zero_le _
  boundary := ⟨rfl, rfl, rfl, rfl⟩
  widths := by constructor <;> exact Nat.two_pow_pos _

/-! ### What a step leaves alone -/

/-- Settles O7: a command that is no LOAD keeps all of it, as `Progress` says. -/
theorem onlyLoadWritesTheBuffer : Obligations.OnlyLoadWritesTheBuffer := by
  intro s t hstep
  rcases step_effect hstep with
    ⟨-, rfl⟩ | ⟨op, arg, rest, -, ha⟩ | ⟨arg, rest, hi, -, rfl⟩ | ⟨rest, hi, rfl⟩ | ⟨addr, b, rest, hi, rfl⟩
  · exact ⟨rfl, by simp, by simp⟩
  · have hbuf : t.buf = s.buf := ha.buf
    have hlen : t.len = s.len := ha.len
    exact ⟨ha.cfg, by simp [hbuf, hlen], fun hm => absurd ha.hostMem hm⟩
  · exact ⟨rfl, fun _ => .inr ⟨arg, rest, hi⟩, fun hm => absurd rfl hm⟩
  · exact ⟨rfl, fun _ => .inl ⟨rest, hi⟩, fun hm => absurd rfl hm⟩
  · exact ⟨rfl, by simp, fun _ => ⟨addr, b, rest, hi⟩⟩

/-- Settles O8: `Progress` has the cursor forward. -/
theorem cursorNeverMovesBack : Obligations.CursorNeverMovesBack := by
  intro s t hstep hback
  rcases step_effect hstep with
    ⟨-, rfl⟩ | ⟨op, arg, rest, -, ha⟩ | ⟨arg, rest, hi, -, rfl⟩ | ⟨rest, hi, rfl⟩ | ⟨addr, b, rest, -, rfl⟩
  · exact absurd hback (Nat.lt_irrefl _)
  · exact absurd hback (Nat.not_lt.mpr ha.forward)
  · exact .inr ⟨arg, rest, hi⟩
  · exact .inl ⟨rest, hi⟩
  · exact absurd hback (Nat.lt_irrefl _)

/-- The causes that set the latch are two (R200). -/
theorem Cause.sticky_iff (c : Cause) : c.sticky = true ↔ c = .contract ∨ c = .illegalCmd := by
  cases c <;> decide

/-- A latch that stays as it was is neither cleared nor set. -/
theorem latch_of_fault_eq {s t : State} (he : t.fault = s.fault) {P Q : Prop} :
    (s.fault = true → t.fault = false → P) ∧ (s.fault = false → t.fault = true → Q) := by
  rw [he]
  exact ⟨fun hs ht => absurd (hs.symm.trans ht) (by decide), fun hs ht => absurd (hs.symm.trans ht) (by decide)⟩

/-- What the answer of a command has to do with the latch: it is never cleared, and a failure sets it (R24). -/
theorem Answered.latch {s t : State} (ha : Answered s t) {P : Prop} :
    (s.fault = true → t.fault = false → P) ∧
      (s.fault = false → t.fault = true →
        ∃ r, t.delivered = s.delivered ++ [.response r] ∧
          (r = Response.failure .contract ∨ r = Response.failure .illegalCmd)) := by
  rcases ha.fault with he | ⟨ht, c, hc, hd⟩
  · exact latch_of_fault_eq he
  · refine ⟨fun _ ht' => absurd (ht.symm.trans ht') (by decide), fun _ _ => ⟨Response.failure c, hd, ?_⟩⟩
    rcases c.sticky_iff.mp hc with rfl | rfl
    · exact .inl rfl
    · exact .inr rfl

/-- Settles O9: by how a command that answers leaves the latch; nothing else but reset touches it. -/
theorem latchSetAndCleared : Obligations.LatchSetAndCleared := by
  intro s t hstep
  rcases step_effect hstep with
    ⟨-, rfl⟩ | ⟨op, arg, rest, -, ha⟩ | ⟨arg, rest, -, -, rfl⟩ | ⟨rest, hi, rfl⟩ | ⟨addr, b, rest, -, rfl⟩
  · exact latch_of_fault_eq rfl
  · exact ha.latch
  · exact latch_of_fault_eq rfl
  · exact ⟨fun _ _ => ⟨rest, hi⟩, fun _ ht => nomatch ht⟩
  · exact latch_of_fault_eq rfl

end Sys2Proof.Machine
end

section
/-! The status outputs (R30, R63). -/

namespace Sys2Proof.Machine

@[simp] theorem State.sr_flags (s : State) : s.sr 2 = s.fault.toNat + 2 * s.busy.toNat := rfl

/-- Two flags as the two low bits of a number. -/
theorem testBit_flags (a b : Bool) :
    (a.toNat + 2 * b.toNat).testBit 0 = a ∧ (a.toNat + 2 * b.toNat).testBit 1 = b ∧
      ∀ k, 2 ≤ k → (a.toNat + 2 * b.toNat).testBit k = false := by
  refine ⟨by cases a <;> cases b <;> rfl, by cases a <;> cases b <;> rfl, fun k hk => Nat.testBit_lt_two_pow ?_⟩
  have ha := a.toNat_lt
  have hb := b.toNat_lt
  calc a.toNat + 2 * b.toNat < 2 ^ 2 := by omega
    _ ≤ 2 ^ k := Nat.pow_le_pow_right (by decide) hk

/-- Each output fits `OFFSET_W` bits; while `BUSY` is 1 the free value is cut to them (R9, R30). -/
theorem State.sr_lt {s : State} (hv : s.cfg.Valid) (hw : WidthsFit s) (i : Fin 3) : s.sr i < 2 ^ s.cfg.offsetW := by
  have hfree (j : Nat) : s.srWhileBusy j < 2 ^ s.cfg.offsetW := Nat.mod_lt _ (Nat.two_pow_pos _)
  match i with
  | 0 =>
    simp only [State.sr]
    split_ifs
    · exact hfree 0
    · exact hw.bitOffset
  | 1 =>
    simp only [State.sr]
    split_ifs
    · exact hfree 1
    · exact hw.len
  | 2 =>
    have hf := s.fault.toNat_lt
    have hb := s.busy.toNat_lt
    have ho := hv.1
    rw [State.sr_flags]
    omega

/-- Settles O13: the three clauses are how `sr` reads, `testBit_flags` and `State.sr_lt`. -/
theorem statusOutputsShowState : Obligations.StatusOutputsShowState := by
  refine ⟨fun s hb => ?shown, fun s => ?flags, fun s hv hw i => ?widths⟩
  case shown => simp [State.sr, hb]
  case flags => exact testBit_flags s.fault s.busy
  case widths =>
    refine ⟨State.sr_lt hv hw i, fun h32 => ?_⟩
    have hlt : s.sr i < 2 ^ 32 := (State.sr_lt hv hw i).trans_le (Nat.pow_le_pow_right (by decide) h32)
    simp only [State.srWire, BitVec.toNat_ofNat, Nat.mod_eq_of_lt hlt]

end Sys2Proof.Machine
end

section
/-! The block never reads a byte of BUF at or above LEN (R21, R91). Every micro-operation commutes with a change of such
bytes, one after another commute if each does, and so do the commands. -/

namespace Sys2Proof.Machine

/-- The state with another buffer. -/
def State.withBuf (b : Memory) (s : State) : State := { s with buf := b }

@[simp] theorem State.withBuf_pgState (b : Memory) (s : State) : (s.withBuf b).pgState = s.pgState := rfl
@[simp] theorem State.withBuf_stk (b : Memory) (s : State) : (s.withBuf b).stk = s.stk := rfl

/-- How a micro-operation ends, with another buffer. -/
def Micro.withBuf {α : Type} (b : Memory) : Micro α → Micro α
  | .ok a s => .ok a (s.withBuf b)
  | .raise c s => .raise c (s.withBuf b)

/-- `b` holds what BUF holds below LEN. -/
def State.AgreesBelowLen (s : State) (b : Memory) : Prop := ∀ i < s.len, b.read i = s.buf.read i

theorem State.AgreesBelowLen.congr {s t : State} {b : Memory} (h : s.AgreesBelowLen b) (hb : t.buf = s.buf)
    (hl : t.len = s.len) : t.AgreesBelowLen b := by
  simpa only [State.AgreesBelowLen, hb, hl] using h

/-- A micro-operation that no byte at or above LEN has an effect on, and that leaves BUF and LEN alone. -/
structure BlindAboveLen {α : Type} (f : State → Micro α) : Prop where
  commutes : ∀ s b, s.AgreesBelowLen b → f (s.withBuf b) = (f s).withBuf b
  buf : ∀ s, (f s).state.buf = s.buf
  len : ∀ s, (f s).state.len = s.len

namespace BlindAboveLen

theorem agrees {α : Type} {f : State → Micro α} (hf : BlindAboveLen f) {s : State} {b : Memory}
    (h : s.AgreesBelowLen b) : (f s).state.AgreesBelowLen b := h.congr (hf.buf s) (hf.len s)

theorem bind {α β : Type} {f : State → Micro α} {g : α → State → Micro β} (hf : BlindAboveLen f)
    (hg : ∀ a, BlindAboveLen (g a)) : BlindAboveLen fun s => (f s).bind g where
  commutes s b h := by
    have ha := hf.agrees h
    rw [hf.commutes s b h]
    cases hm : f s with
    | ok a t =>
      rw [hm] at ha
      exact (hg a).commutes t b ha
    | raise c t => rfl
  buf s := by
    have hb := hf.buf s
    cases hm : f s with
    | ok a t => rw [hm] at hb; exact ((hg a).buf t).trans hb
    | raise c t => rw [hm] at hb; exact hb
  len s := by
    have hl := hf.len s
    cases hm : f s with
    | ok a t => rw [hm] at hl; exact ((hg a).len t).trans hl
    | raise c t => rw [hm] at hl; exact hl

theorem bind_commutes {α β : Type} {f : State → Micro α} {g : α → State → Micro β} (hf : BlindAboveLen f) {s : State}
    {b : Memory} (h : s.AgreesBelowLen b) (hg : ∀ a, BlindAboveLen (g a)) :
    (f (s.withBuf b)).bind g = ((f s).bind g).withBuf b :=
  (hf.bind hg).commutes s b h

/-- A change of registers in which the buffer has no part. -/
theorem ok {α : Type} (a : α) {u : State → State} (hc : ∀ s b, u (s.withBuf b) = (u s).withBuf b)
    (hb : ∀ s, (u s).buf = s.buf) (hl : ∀ s, (u s).len = s.len) : BlindAboveLen fun s => .ok a (u s) :=
  ⟨fun s b _ => congrArg (Micro.ok a) (hc s b), hb, hl⟩

theorem raise {α : Type} (c : Cause) : BlindAboveLen fun s => (.raise c s : Micro α) :=
  ⟨fun _ _ _ => rfl, fun _ => rfl, fun _ => rfl⟩

/-- A choice by a condition in which the buffer has no part. -/
theorem ite {α : Type} {p : State → Prop} [DecidablePred p] {f g : State → Micro α}
    (hp : ∀ s b, p (s.withBuf b) ↔ p s) (hf : BlindAboveLen f) (hg : BlindAboveLen g) :
    BlindAboveLen fun s => if p s then f s else g s where
  commutes s b h := by
    by_cases hs : p s
    · rw [if_pos hs, if_pos ((hp s b).mpr hs)]
      exact hf.commutes s b h
    · rw [if_neg hs, if_neg (mt (hp s b).mp hs)]
      exact hg.commutes s b h
  buf s := by
    split_ifs
    · exact hf.buf s
    · exact hg.buf s
  len s := by
    split_ifs
    · exact hf.len s
    · exact hg.len s

end BlindAboveLen

/-- A read looks at the byte under the cursor, and only where the cursor is below LEN. -/
theorem consumeLoop_blind (W rounds need : Nat) (a : BitVec W) : BlindAboveLen (consumeLoop W rounds need a) := by
  induction rounds generalizing need a with
  | zero => exact .ok a (fun _ _ => rfl) (fun _ => rfl) fun _ => rfl
  | succ rounds ih =>
    refine ⟨fun s b h => ?commutes, fun s => ?buf, fun s => ?len⟩ <;> simp only [consumeLoop]
    case commutes =>
      by_cases hn : need = 0
      · rw [if_pos hn, if_pos hn]
        rfl
      · rw [if_neg hn, if_neg hn]
        by_cases hl : s.len ≤ s.bitOffset / 8
        · rw [if_pos hl, if_pos (show (s.withBuf b).len ≤ (s.withBuf b).bitOffset / 8 from hl)]
          rfl
        · rw [if_neg hl, if_neg (show ¬(s.withBuf b).len ≤ (s.withBuf b).bitOffset / 8 from hl)]
          have hread : (s.withBuf b).buf.read ((s.withBuf b).bitOffset / 8) = s.buf.read (s.bitOffset / 8) :=
            h _ (Nat.lt_of_not_le hl)
          rw [hread]
          exact (ih _ _).commutes { s with bitOffset := s.bitOffset + min (8 - s.bitOffset % 8) need } b h
    case buf =>
      split_ifs
      · rfl
      · rfl
      · exact (ih _ _).buf _
    case len =>
      split_ifs
      · rfl
      · rfl
      · exact (ih _ _).len _

theorem consume_blind (W count : Nat) : BlindAboveLen (consume W count) :=
  .ite (p := fun _ => W < count) (fun _ _ => Iff.rfl) (.raise .contract) (consumeLoop_blind W count count 0)

theorem foldGroup_blind (p : BitVec 4) : BlindAboveLen (foldGroup p) :=
  .ite (p := fun s => varintGuardFails s.acc = true) (fun _ _ => Iff.rfl) (.raise .varintOverflow)
    (.ok () (fun _ _ => rfl) (fun _ => rfl) fun _ => rfl)

theorem varintLoop_blind (rounds : Nat) : BlindAboveLen (varintLoop rounds) := by
  induction rounds with
  | zero => exact .raise .exhausted
  | succ rounds ih =>
    refine (consume_blind 8 5).bind fun g => (foldGroup_blind _).bind fun _ => ?_
    split_ifs
    · exact ih
    · exact ⟨fun _ _ _ => rfl, fun _ => rfl, fun _ => rfl⟩

theorem varint_blind : BlindAboveLen varint where
  commutes s b h := (varintLoop_blind (s.remaining + 1)).commutes { s with acc := 0, groups := 0 } b h
  buf s := (varint_moved s).buf
  len s := (varint_moved s).len

theorem pushOperator_blind (mode : LengthMode) (l : BitVec 15) : BlindAboveLen (pushOperator mode l) :=
  .ite (p := fun s => s.sp = s.cfg.stackDepth) (fun _ _ => Iff.rfl) (.raise .stackOverflow)
    (.ok () (fun _ _ => rfl) (fun _ => rfl) fun _ => rfl)

theorem nextChild_withBuf (b : Memory) (s : State) : nextChild (s.withBuf b) = (nextChild s).withBuf b := by
  simp only [nextChild, State.withBuf_stk]
  split
  · rfl
  · split <;>
      · rw [apply_ite (State.withBuf b)]
        rfl

theorem closeOperator_withBuf (b : Memory) (s : State) :
    closeOperator (s.withBuf b) = (closeOperator s).withBuf b := by
  simp only [closeOperator, State.withBuf_stk]
  split <;> rfl

theorem packetDone_withBuf (b : Memory) (s : State) : packetDone (s.withBuf b) = (packetDone s).withBuf b := by
  simp only [packetDone, State.withBuf_stk]
  split <;> rfl

/-- The action of every control state (R152): the reads, then changes of registers. -/
theorem pgAction_withBuf {s : State} {b : Memory} (h : s.AgreesBelowLen b) :
    pgAction (s.withBuf b) = (pgAction s).withBuf b := by
  cases hpg : s.pgState <;> simp only [pgAction, State.withBuf_pgState, hpg]
  case idle => rfl
  case version =>
    exact (consume_blind 8 3).bind_commutes h fun _ => .ok () (fun _ _ => rfl) (fun _ => rfl) fun _ => rfl
  case type =>
    exact (consume_blind 8 3).bind_commutes h fun _ => .ok () (fun _ _ => rfl) (fun _ => rfl) fun _ => rfl
  case literal =>
    exact varint_blind.bind_commutes h fun _ => .ok () (fun _ _ => rfl) (fun _ => rfl) fun _ => rfl
  case ltype =>
    exact (consume_blind 8 1).bind_commutes h fun _ => .ok () (fun _ _ => rfl) (fun _ => rfl) fun _ => rfl
  case len15 => exact (consume_blind 16 15).bind_commutes h fun _ => pushOperator_blind _ _
  case len11 => exact (consume_blind 16 11).bind_commutes h fun _ => pushOperator_blind _ _
  case next => exact congrArg (Micro.ok ()) (nextChild_withBuf b s)
  case close => exact congrArg (Micro.ok ()) (closeOperator_withBuf b s)
  case done => exact congrArg (Micro.ok ()) (packetDone_withBuf b s)

theorem pgAction_moved (s : State) : Moved s (pgAction s).state := by
  by_cases hs : s.pgState = .idle
  · simp only [pgAction, hs]
    exact Moved.refl s
  · exact (pgAction_visited s hs).moved

theorem pgAction_blind : BlindAboveLen pgAction :=
  ⟨fun _ _ h => pgAction_withBuf h, fun s => (pgAction_moved s).buf, fun s => (pgAction_moved s).len⟩

theorem runEngine_blind (visits : Nat) : BlindAboveLen (runEngine visits) := by
  have keep : BlindAboveLen fun s => Micro.ok () s := .ok () (fun _ _ => rfl) (fun _ => rfl) fun _ => rfl
  induction visits with
  | zero => exact keep
  | succ visits ih =>
    exact .ite (p := fun s => s.pgState = .idle) (fun _ _ => Iff.rfl) keep (pgAction_blind.bind fun _ => ih)

theorem packet_blind : BlindAboveLen packet where
  commutes s b h := by
    have he : engineRun { s.withBuf b with pgState := .version } =
        (engineRun { s with pgState := .version }).withBuf b :=
      (runEngine_blind _).commutes { s with pgState := .version } b h
    rw [packet_eq s, packet_eq, he]
    cases engineRun { s with pgState := .version } <;> rfl
  buf s := (packet_moved s).1.buf
  len s := (packet_moved s).1.len

/-! ### The commands -/

theorem accept_withBuf {body : State → State} {s : State} {b : Memory} (h : s.AgreesBelowLen b)
    (hbody : ∀ t : State, t.AgreesBelowLen b → body (t.withBuf b) = (body t).withBuf b) :
    (s.withBuf b).accept body = (s.accept body).withBuf b := by
  by_cases hf : s.fault = true
  · rw [accept_faulted _ hf, accept_faulted (s := s.withBuf b) _ hf]
    rfl
  · have hf' : s.fault = false := by simpa using hf
    rw [accept_ok _ hf', accept_ok (s := s.withBuf b) _ hf']
    exact hbody { s with busy := true } h

theorem consumeCommand_withBuf (W count : Nat) {s : State} {b : Memory} (h : s.AgreesBelowLen b) :
    consumeCommand W count (s.withBuf b) = (consumeCommand W count s).withBuf b := by
  refine accept_withBuf h fun t ht => ?_
  rw [(consume_blind W count).commutes t b ht]
  cases consume W count t <;> rfl

theorem varintCommand_withBuf {s : State} {b : Memory} (h : s.AgreesBelowLen b) :
    varintCommand (s.withBuf b) = (varintCommand s).withBuf b := by
  refine accept_withBuf h fun t ht => ?_
  rw [varint_blind.commutes t b ht]
  cases varint t <;> rfl

theorem packetCommand_withBuf {s : State} {b : Memory} (h : s.AgreesBelowLen b) :
    packetCommand (s.withBuf b) = (packetCommand s).withBuf b := by
  refine accept_withBuf h fun t ht => ?_
  have hp := packet_blind.commutes { t with pktCount := 0, attemptStart := t.bitOffset, provisional := [] } b ht
  simp only [State.withBuf] at hp ⊢
  rw [hp]
  cases packet { t with pktCount := 0, attemptStart := t.bitOffset, provisional := [] } <;> rfl

theorem streamLoop_withBuf (attempts : Nat) {s : State} {b : Memory} (h : s.AgreesBelowLen b) :
    streamLoop attempts (s.withBuf b) = (streamLoop attempts s).withBuf b := by
  induction attempts generalizing s with
  | zero => rfl
  | succ attempts ih =>
    have hp := packet_blind.commutes { s with attemptStart := s.bitOffset } b h
    have ha := packet_blind.agrees (s := { s with attemptStart := s.bitOffset }) h
    simp only [streamLoop, State.withBuf] at hp ⊢
    rw [hp]
    cases hr : packet { s with attemptStart := s.bitOffset } with
    | ok u t =>
      rw [hr] at ha
      exact ih (s := { t with pktCount := t.pktCount + 1 }) ha
    | raise c t => cases c <;> rfl

theorem Reader.withBuf {f : State → State} (hf : Reader f) {s : State} {b : Memory} (h : s.AgreesBelowLen b) :
    f (s.withBuf b) = (f s).withBuf b := by
  cases hf with
  | reject => exact accept_withBuf h fun _ _ => rfl
  | consume W count => exact consumeCommand_withBuf W count h
  | varint => exact varintCommand_withBuf h
  | packet => exact packetCommand_withBuf h
  | stream =>
    exact accept_withBuf h fun t ht => streamLoop_withBuf _ (s := { t with pktCount := 0, provisional := [] }) ht

end Sys2Proof.Machine
end

section
/-! Two runs of one step over buffers that agree below LEN (R21). -/

namespace Sys2Proof.Machine

theorem step_of_inbox {s : State} {a : HostAct} {rest : List HostAct} (hb : s.busy = false) (hi : s.inbox = a :: rest) :
    step s = hostAct a { s with inbox := rest } := by
  simp [step, hb, hi]

/-- LOAD's copy gives every byte below the new LEN, whatever the buffer held (R91). -/
theorem loadCommand_withBuf (arg : Word32) {s : State} {b : Memory} (hs : s.buf.wf) (hb : b.wf) (h : s.AgreesBelowLen b) :
    ∃ b', loadCommand arg (s.withBuf b) = (loadCommand arg s).withBuf b' ∧ (loadCommand arg s).AgreesBelowLen b' := by
  rcases Bool.eq_false_or_eq_true s.fault with hf | hf
  · rw [loadCommand_faulted arg hf, loadCommand_faulted arg (s := s.withBuf b) hf]
    exact ⟨b, rfl, h⟩
  · rcases Nat.lt_or_ge s.cfg.bufMaxBytes arg.toNat with hlt | hle
    · rw [loadCommand_tooLong hf hlt, loadCommand_tooLong (s := s.withBuf b) hf hlt]
      exact ⟨b, rfl, h⟩
    · rw [loadCommand_loads hf hle, loadCommand_loads (s := s.withBuf b) hf hle]
      refine ⟨copyBytes arg.toNat s.hostMem b, rfl, fun i (hi : i < arg.toNat) => ?_⟩
      dsimp only
      rw [copyBytes_read _ _ hb, copyBytes_read _ _ hs, if_pos hi, if_pos hi]

/-- One action of the host, on two buffers. -/
theorem hostAct_withBuf {a : HostAct} {s t : State} {b : Memory} (hs : s.buf.wf) (hb : b.wf) (h : s.AgreesBelowLen b)
    (hact : hostAct a s = .next t) : ∃ b', hostAct a (s.withBuf b) = .next (t.withBuf b') ∧ t.AgreesBelowLen b' := by
  cases a with
  | command op arg =>
    simp only [hostAct] at hact ⊢
    rcases runCommand_eq op arg with ⟨-, hload⟩ | ⟨f, hf, hrun⟩
    · rw [hload] at hact ⊢
      obtain rfl := Host.Outcome.next.inj hact
      obtain ⟨b', heq, hagree⟩ := loadCommand_withBuf arg hs hb h
      exact ⟨b', congrArg _ heq, hagree⟩
    · rw [hrun] at hact ⊢
      obtain rfl := Host.Outcome.next.inj hact
      exact ⟨b, congrArg _ (hf.withBuf h), h.congr (hf.answered s).buf (hf.answered s).len⟩
  | reset =>
    obtain rfl := Host.Outcome.next.inj hact
    exact ⟨⟨[]⟩, rfl, fun _ _ => rfl⟩
  | place addr v =>
    obtain rfl := Host.Outcome.next.inj hact
    exact ⟨b, rfl, h⟩

/-- Settles O57: the host's action runs on both buffers alike. -/
theorem onlyBytesBelowLenMatter : Obligations.OnlyBytesBelowLenMatter := by
  intro s t b hs hb h hstep
  unfold step at hstep
  split_ifs at hstep with hbusy
  have hbusy' : s.busy = false := by simpa using hbusy
  split at hstep
  · rename_i hi
    obtain rfl := Host.Outcome.next.inj hstep
    exact ⟨b, by simp [step, hbusy', hi], h⟩
  · rename_i a rest hi
    obtain ⟨b', hact, hagree⟩ := hostAct_withBuf (s := { s with inbox := rest }) hs hb h hstep
    exact ⟨b', (step_of_inbox (s := { s with buf := b }) hbusy' hi).trans hact, hagree⟩

end Sys2Proof.Machine
end

section
/-! What a read that returns tells of its value and of the cursor, and from it: two reads are the halves of one (R46), and an
aligned 16-bit read is two bytes (R45). -/

namespace Sys2Proof.Machine

/-- The value of a field in a word wide enough for it (R108). -/
theorem State.toNat_ofNat_field (s : State) (o : Nat) {W c : Nat} (h : c ≤ W) :
    (BitVec.ofNat W (s.field o c)).toNat = s.field o c :=
  Nat.mod_eq_of_lt (Nat.lt_of_lt_of_le (s.field_lt o c) (Nat.pow_le_pow_right (by decide) h))

/-- R104(a) and (b), read backwards from a read that returns. -/
theorem consume_ok_inv {W count : Nat} {s t : State} {v : BitVec W} (h : consume W count s = .ok v t) :
    (count = 0 ∨ s.bitOffset + count ≤ 8 * s.len) ∧ v.toNat = s.field s.bitOffset count ∧
      t = { s with bitOffset := s.bitOffset + count } := by
  by_cases hw : W < count
  · rw [consume_contract s hw] at h
    cases h
  · have hle : count ≤ W := Nat.le_of_not_lt hw
    rcases consume_cases s hle with ⟨ho, hc⟩ | ⟨-, hc⟩ <;> rw [hc] at h <;> cases h
    exact ⟨ho, s.toNat_ofNat_field s.bitOffset hle, rfl⟩

/-- Settles O23: each read returns a field of the stream, the second field starts where the first ends, and `field_append`
joins the two. -/
theorem successiveReadsConcatenate : Obligations.SuccessiveReadsConcatenate := by
  unfold Obligations.SuccessiveReadsConcatenate
  intro U V W _ _ _ s u t a b x y hU hx hy
  obtain ⟨ha, hxv, rfl⟩ := consume_ok_inv hx
  obtain ⟨hb, hyv, rfl⟩ := consume_ok_inv hy
  have hroom : a + b = 0 ∨ s.bitOffset + (a + b) ≤ 8 * s.len := by
    have hb : b = 0 ∨ s.bitOffset + a + b ≤ 8 * s.len := hb
    omega
  have hyv : y.toNat = s.field (s.bitOffset + a) b := hyv.trans (s.field_set_bitOffset (s.bitOffset + a) (s.bitOffset + a) b)
  refine ⟨BitVec.ofNat U (s.field s.bitOffset (a + b)), ?_, ?_⟩
  · rw [consume_ok s hU hroom, Nat.add_assoc]
  · rw [s.toNat_ofNat_field s.bitOffset hU, s.field_append, hxv, hyv]

/-- The eight bits at a byte boundary are that byte (R13). -/
theorem State.field_byte (s : State) (j : Nat) : s.field (8 * j) 8 = (s.buf.read j).toNat := by
  have h := s.field_in_byte j 0 8 (by decide)
  rw [Nat.add_zero] at h
  exact h.trans (Nat.mod_eq_of_lt (s.buf.read j).isLt)

/-- The sixteen bits at a byte boundary are two bytes, the lower address more significant (R45). -/
theorem State.field_two_bytes (s : State) (j : Nat) :
    s.field (8 * j) 16 = 256 * (s.buf.read j).toNat + (s.buf.read (j + 1)).toNat := by
  rw [s.field_append (8 * j) 8 8, show 8 * j + 8 = 8 * (j + 1) by omega, s.field_byte, s.field_byte]
  omega

/-- A read the buffer has the bits for answers with their field, zero-extended, and moves the cursor over them (R102, R103). -/
theorem consumeCommand_returns {W count : Nat} {s : State} (hf : s.fault = false) (h : count ≤ W)
    (ho : count = 0 ∨ s.bitOffset + count ≤ 8 * s.len) :
    consumeCommand W count s = { s with
      bitOffset := s.bitOffset + count, busy := false
      delivered := s.delivered ++ [.response (Response.success (BitVec.ofNat 64 (s.field s.bitOffset count)) 0 0 0)] } := by
  have hread := consume_ok (W := W) (count := count) { s with busy := true } h ho
  have hfield : State.field { s with busy := true } s.bitOffset count = s.field s.bitOffset count :=
    State.field_congr (s := s) (t := { s with busy := true }) rfl s.bitOffset count
  have hword : (BitVec.ofNat W (s.field s.bitOffset count)).setWidth 64 = BitVec.ofNat 64 (s.field s.bitOffset count) :=
    BitVec.eq_of_toNat_eq (by rw [BitVec.toNat_setWidth, s.toNat_ofNat_field s.bitOffset h, BitVec.toNat_ofNat])
  rw [consumeCommand_ok hf, hread, hfield]
  simp only [State.respond, hword]

/-- Settles O24: the read answers with a field of the stream, and this field is two whole bytes. -/
theorem alignedSixteenBitsAreBigEndian : Obligations.AlignedSixteenBitsAreBigEndian := by
  unfold Obligations.AlignedSixteenBitsAreBigEndian
  intro s j hf ho hlen
  have hexec : exec (.consume16 16) s = .next (consumeCommand 16 16 s) := rfl
  rw [hexec, consumeCommand_returns hf (by decide) (.inr (by omega)), ho, s.field_two_bytes]

end Sys2Proof.Machine
end

section
/-! Fields and bit strings (R11 to R13, R44): a field and its bits determine each other, so taking a field from the front of a
bit string and putting its bits there are inverse. -/

namespace Sys2Proof

/-! ### Bits and numbers -/

theorem natOfBits_append_bit (bs : List Bool) (b : Bool) : natOfBits (bs ++ [b]) = 2 * natOfBits bs + b.toNat := by
  simp [natOfBits]

theorem natOfBits_append (bs cs : List Bool) : natOfBits (bs ++ cs) = natOfBits bs * 2 ^ cs.length + natOfBits cs := by
  induction cs using List.reverseRecOn with
  | nil => simp [natOfBits]
  | append_singleton cs c ih =>
    rw [← List.append_assoc, natOfBits_append_bit, natOfBits_append_bit, ih, List.length_append, List.length_singleton,
      Nat.pow_succ]
    ring

theorem natOfBits_cons (b : Bool) (bs : List Bool) : natOfBits (b :: bs) = b.toNat * 2 ^ bs.length + natOfBits bs := by
  simpa [natOfBits] using natOfBits_append [b] bs

theorem natOfBits_lt (bs : List Bool) : natOfBits bs < 2 ^ bs.length := by
  induction bs with
  | nil => decide
  | cons b bs ih =>
    rw [natOfBits_cons, List.length_cons, Nat.pow_succ]
    cases b <;> simp <;> omega

theorem natOfBits_bitsOfNat (w n : Nat) : natOfBits (bitsOfNat w n) = n % 2 ^ w := by
  induction w with
  | zero => simp [bitsOfNat, natOfBits, Nat.mod_one]
  | succ w ih =>
    rw [bitsOfNat, natOfBits_cons, bitsOfNat_length, ih, Nat.toNat_testBit, Nat.mod_pow_succ]
    ring

theorem bitsOfNat_mod (w n k : Nat) (h : w ≤ k) : bitsOfNat w (n % 2 ^ k) = bitsOfNat w n := by
  induction w with
  | zero => rfl
  | succ w ih => rw [bitsOfNat, bitsOfNat, ih (by omega), Nat.testBit_mod_two_pow]; simp [show w < k by omega]

theorem bitsOfNat_natOfBits (bs : List Bool) : bitsOfNat bs.length (natOfBits bs) = bs := by
  induction bs with
  | nil => rfl
  | cons b bs ih =>
    have hlt := natOfBits_lt bs
    have hmod : natOfBits (b :: bs) % 2 ^ bs.length = natOfBits bs := by
      rw [natOfBits_cons, Nat.add_comm, Nat.add_mul_mod_self_right, Nat.mod_eq_of_lt hlt]
    have hbit : (natOfBits (b :: bs)).testBit bs.length = b := by
      rw [natOfBits_cons, Nat.testBit_eq_decide_div_mod_eq, Nat.add_comm,
        Nat.add_mul_div_right _ _ (Nat.two_pow_pos _), Nat.div_eq_of_lt hlt]
      cases b <;> rfl
    rw [List.length_cons, bitsOfNat, hbit, ← bitsOfNat_mod _ _ _ (Nat.le_refl _), hmod, ih]

/-! ### Fields -/

@[simp] theorem natOfBits_fieldBits {w : Nat} (v : BitVec w) : natOfBits (fieldBits v) = v.toNat := by
  rw [fieldBits, natOfBits_bitsOfNat, Nat.mod_eq_of_lt v.isLt]

/-- Any `w` bits are the bits of the field that they make. -/
theorem fieldBits_ofNat_natOfBits {w : Nat} {bs : List Bool} (h : bs.length = w) :
    fieldBits (BitVec.ofNat w (natOfBits bs)) = bs := by
  subst h
  rw [fieldBits, BitVec.toNat_ofNat, Nat.mod_eq_of_lt (natOfBits_lt bs), bitsOfNat_natOfBits]

/-- A one-bit field is its bit. -/
theorem fieldBits_ofBool (b : Bool) : fieldBits (BitVec.ofBool b) = [b] := by
  cases b <;> rfl

/-- Everything `takeField` can answer: the field whose bits come first. -/
theorem takeField_eq_ok {w : Nat} {bs r : List Bool} {v : BitVec w} :
    takeField w bs = .ok (v, r) ↔ bs = fieldBits v ++ r := by
  unfold takeField
  constructor
  · intro h
    split at h <;> cases h
    rw [fieldBits_ofNat_natOfBits (by rw [List.length_take]; omega), List.take_append_drop]
  · rintro rfl
    simp
end Sys2Proof
end

section
/-! The stream formats (R70 to R76): at each place of the stream the decoder answers exactly the formats of that place, each
at the bits that the encoder writes for it. -/

namespace Sys2Proof

/-! ### Sequencing in the decoder -/

theorem decoder_bind_eq_ok {α β : Type} {x : Except DecodeError α} {f : α → Except DecodeError β} {b : β} :
    (x >>= f) = .ok b ↔ ∃ a, x = .ok a ∧ f a = .ok b := by
  cases x with
  | error e => exact ⟨nofun, fun ⟨_, h, _⟩ => nomatch h⟩
  | ok a => exact ⟨fun h => ⟨a, rfl, h⟩, fun ⟨_, rfl, h⟩ => h⟩

@[simp] theorem decoder_ok_bind {α β : Type} (a : α) (f : α → Except DecodeError β) : (Except.ok a >>= f) = f a := rfl

@[simp] theorem takeField_fieldBits {w : Nat} (v : BitVec w) (r : List Bool) : takeField w (fieldBits v ++ r) = .ok (v, r) :=
  takeField_eq_ok.mpr rfl

/-! ### Varint groups (R70, R71) -/

theorem varintBits_cons_cons (p q : BitVec 4) (ps : List (BitVec 4)) :
    varintBits (p :: q :: ps) = groupBits true p ++ varintBits (q :: ps) := rfl

/-- Five bits are a group. -/
theorem groupBits_ofNat_natOfBits (c b3 b2 b1 b0 : Bool) :
    groupBits c (BitVec.ofNat 4 (natOfBits [b3, b2, b1, b0])) = [c, b3, b2, b1, b0] :=
  congrArg (c :: ·) (fieldBits_ofNat_natOfBits rfl)

theorem decodeGroups_last (p : BitVec 4) (r : List Bool) : decodeGroups (groupBits false p ++ r) = .ok ([p], r) := by
  have hp : BitVec.ofNat 4 (natOfBits (fieldBits p)) = p := by simp
  exact congrArg (fun p => Except.ok ([p], r)) hp

theorem decodeGroups_more {p : BitVec 4} {ps : List (BitVec 4)} {bs r : List Bool} (h : decodeGroups bs = .ok (ps, r)) :
    decodeGroups (groupBits true p ++ bs) = .ok (p :: ps, r) := by
  have hp : BitVec.ofNat 4 (natOfBits (fieldBits p)) = p := by simp
  simp only [groupBits, fieldBits, bitsOfNat, List.cons_append, List.nil_append, decodeGroups, h, if_true] at hp ⊢
  rw [hp]

theorem decodeGroups_varintBits {ps : List (BitVec 4)} (h : ps ≠ []) (r : List Bool) :
    decodeGroups (varintBits ps ++ r) = .ok (ps, r) := by
  match ps, h with
  | [p], _ => exact decodeGroups_last p r
  | p :: q :: ps, _ =>
    rw [varintBits_cons_cons, List.append_assoc]
    exact decodeGroups_more (decodeGroups_varintBits (List.cons_ne_nil q ps) r)

theorem eq_varintBits_of_decodeGroups {bs r : List Bool} {ps : List (BitVec 4)} (h : decodeGroups bs = .ok (ps, r)) :
    ps ≠ [] ∧ bs = varintBits ps ++ r := by
  induction bs using decodeGroups.induct generalizing ps r with
  | case1 b3 b2 b1 b0 rest qs r' hrest ih =>
    simp only [decodeGroups, hrest, if_true] at h
    cases h
    obtain ⟨hne, hbits⟩ := ih hrest
    obtain ⟨q, qs, rfl⟩ := List.exists_cons_of_ne_nil hne
    refine ⟨List.cons_ne_nil _ _, ?_⟩
    rw [varintBits_cons_cons, List.append_assoc, ← hbits, groupBits_ofNat_natOfBits]
    rfl
  | case2 b3 b2 b1 b0 rest e hrest =>
    simp only [decodeGroups, hrest, if_true] at h
    cases h
  | case3 c b3 b2 b1 b0 rest hc =>
    simp only [decodeGroups, if_neg hc] at h
    cases h
    obtain rfl : c = false := by simpa using hc
    refine ⟨List.cons_ne_nil _ _, ?_⟩
    rw [varintBits, groupBits_ofNat_natOfBits]
    rfl
  | case4 bs hshort =>
    rw [decodeGroups] at h
    · cases h
    · exact hshort

/-- Everything `decodeGroups` can answer: the groups of a varint of at least one group. -/
theorem decodeGroups_eq_ok {bs r : List Bool} {ps : List (BitVec 4)} :
    decodeGroups bs = .ok (ps, r) ↔ ps ≠ [] ∧ bs = varintBits ps ++ r := by
  constructor
  · exact eq_varintBits_of_decodeGroups
  · rintro ⟨hne, rfl⟩
    exact decodeGroups_varintBits hne r

/-! ### The formats at each place -/

/-! ### The packet formats (R72 to R76) -/

theorem decodePacket_literal (v : BitVec 3) {ps : List (BitVec 4)} (h : ps ≠ []) (r : List Bool) :
    decodePacket (fieldBits v ++ fieldBits 4#3 ++ varintBits ps ++ r) = .ok (.pktLiteral v ps, r) := by
  simp only [decodePacket, List.append_assoc, takeField_fieldBits, decoder_ok_bind, if_true, decodeGroups_varintBits h]
  rfl

theorem decodePacket_headerM0 {t : BitVec 3} (h : t ≠ 4#3) (v : BitVec 3) (l : BitVec 15) (r : List Bool) :
    decodePacket (headerM0Bits t v l ++ r) = .ok (operatorM0 t v l, r) := by
  have hm : [false] = fieldBits 0#1 := rfl
  simp only [decodePacket, headerM0Bits, hm, List.append_assoc, takeField_fieldBits, decoder_ok_bind, if_neg h, if_true]
  rfl

theorem decodePacket_headerM1 {t : BitVec 3} (h : t ≠ 4#3) (v : BitVec 3) (c : BitVec 11) (r : List Bool) :
    decodePacket (headerM1Bits t v c ++ r) = .ok (operatorM1 t v c, r) := by
  have hm : [true] = fieldBits 1#1 := rfl
  simp only [decodePacket, headerM1Bits, hm, List.append_assoc, takeField_fieldBits, decoder_ok_bind, if_neg h,
    if_neg (show ¬ 1#1 = 0#1 by decide)]
  rfl

/-- Everything `decodePacket` can answer: a literal, or an operator header in one of the two length modes. -/
theorem decodePacket_ok_cases {bs r : List Bool} {i : Instr} (h : decodePacket bs = .ok (i, r)) :
    (∃ v ps, ps ≠ [] ∧ i = .pktLiteral v ps ∧ bs = fieldBits v ++ fieldBits 4#3 ++ varintBits ps ++ r) ∨
      (∃ t v l, t ≠ 4#3 ∧ i = operatorM0 t v l ∧ bs = headerM0Bits t v l ++ r) ∨
      ∃ t v c, t ≠ 4#3 ∧ i = operatorM1 t v c ∧ bs = headerM1Bits t v c ++ r := by
  simp only [decodePacket, decoder_bind_eq_ok, Prod.exists, takeField_eq_ok] at h
  obtain ⟨v, _, rfl, t, b, rfl, h⟩ := h
  by_cases ht : t = 4#3
  · simp only [if_pos ht, decoder_bind_eq_ok, Prod.exists, decodeGroups_eq_ok] at h
    obtain ⟨ps, _, ⟨hne, rfl⟩, h⟩ := h
    cases h
    exact .inl ⟨v, ps, hne, rfl, by simp [ht]⟩
  · simp only [if_neg ht, decoder_bind_eq_ok, Prod.exists, takeField_eq_ok] at h
    obtain ⟨m, b, rfl, h⟩ := h
    rcases BitVec.eq_zero_or_eq_one m with rfl | rfl
    · simp only [if_true, decoder_bind_eq_ok, Prod.exists, takeField_eq_ok] at h
      obtain ⟨l, _, rfl, h⟩ := h
      cases h
      refine .inr (.inl ⟨t, v, l, ht, rfl, ?_⟩)
      simp only [headerM0Bits, List.append_assoc]
      rfl
    · simp only [if_neg (show ¬ 1#1 = 0#1 by decide), decoder_bind_eq_ok, Prod.exists, takeField_eq_ok] at h
      obtain ⟨c, _, rfl, h⟩ := h
      cases h
      refine .inr (.inr ⟨t, v, c, ht, rfl, ?_⟩)
      simp only [headerM1Bits, List.append_assoc]
      rfl

/-! ### The formats at each place of the stream -/

theorem decodeStream_group_eq_ok {bs r : List Bool} {i : Instr} :
    decodeStream .group bs = .ok (i, r) ↔ ∃ c p, i = .varintGroup c p ∧ bs = groupBits c p ++ r := by
  simp only [decodeStream, decoder_bind_eq_ok, Prod.exists, takeField_eq_ok]
  constructor
  · rintro ⟨c, _, rfl, p, _, rfl, h⟩
    cases h
    refine ⟨c = 1#1, p, rfl, ?_⟩
    rcases BitVec.eq_zero_or_eq_one c with rfl | rfl <;> rfl
  · rintro ⟨c, p, rfl, rfl⟩
    refine ⟨BitVec.ofBool c, fieldBits p ++ r, by rw [fieldBits_ofBool]; rfl, p, r, rfl, ?_⟩
    cases c <;> rfl

theorem decodeStream_header_eq_ok {bs r : List Bool} {i : Instr} :
    decodeStream .header bs = .ok (i, r) ↔ ∃ v t, i = .pktHeader v t ∧ bs = fieldBits v ++ fieldBits t ++ r := by
  simp only [decodeStream, decoder_bind_eq_ok, Prod.exists, takeField_eq_ok]
  constructor
  · rintro ⟨v, _, rfl, t, _, rfl, h⟩
    cases h
    exact ⟨v, t, rfl, (List.append_assoc _ _ _).symm⟩
  · rintro ⟨v, t, rfl, rfl⟩
    exact ⟨v, _, List.append_assoc _ _ _, t, r, rfl, rfl⟩

/-- A word of stream bits is a format with nothing after it. -/
theorem decode_stream_eq_ok {pos : StreamPos} {bs : List Bool} {i : Instr} :
    decode (.stream pos bs) = .ok i ↔ decodeStream pos bs = .ok (i, []) := by
  simp only [decode]
  split <;> simp_all

/-! ### The fourteen operator headers (R76) -/

theorem operatorTypeId_cases {t : BitVec 3} (h : t ≠ 4#3) :
    t = 0 ∨ t = 1 ∨ t = 2 ∨ t = 3 ∨ t = 5 ∨ t = 6 ∨ t = 7 := by
  decide +revert

theorem operatorM0_row {t : BitVec 3} (h : t ≠ 4#3) (v : BitVec 3) (l : BitVec 15) :
    (operatorM0 t v l).WellFormed ∧ encode (operatorM0 t v l) = .stream .packet (headerM0Bits t v l) := by
  rcases operatorTypeId_cases h with rfl | rfl | rfl | rfl | rfl | rfl | rfl <;> exact ⟨rfl, rfl⟩

theorem operatorM1_row {t : BitVec 3} (h : t ≠ 4#3) (v : BitVec 3) (c : BitVec 11) :
    (operatorM1 t v c).WellFormed ∧ encode (operatorM1 t v c) = .stream .packet (headerM1Bits t v c) := by
  rcases operatorTypeId_cases h with rfl | rfl | rfl | rfl | rfl | rfl | rfl <;> exact ⟨rfl, rfl⟩

end Sys2Proof
end

section
/-! Command words and event records (R64 to R67, R78): every word is made of its fields, and the decoder reads the fields
back. -/

namespace Sys2Proof

/-! ### The checks that field types do not make -/

theorem Instr.wellFormed_read {n : Count5} : (Instr.read n).WellFormed ↔ n.toNat ≤ 16 := decide_eq_true_iff

theorem Instr.wellFormed_pktLiteral {v : BitVec 3} {ps : List (BitVec 4)} : (Instr.pktLiteral v ps).WellFormed ↔ ps ≠ [] :=
  decide_eq_true_iff

theorem Instr.wellFormed_evOpBegin {v t : BitVec 3} {m : Bool} {l : BitVec 15} :
    (Instr.evOpBegin v t m l).WellFormed ↔ t ≠ 4#3 ∧ (m = true → l.toNat < 2 ^ 11) :=
  decide_eq_true_iff

/-! ### Command words (R64) -/

@[simp] theorem commandWord_op (op : BitVec 3) (n : Count5) : (commandWord op n).extractLsb' 5 3 = op :=
  BitVec.extractLsb'_append_eq_left

@[simp] theorem commandWord_count (op : BitVec 3) (n : Count5) : (commandWord op n).extractLsb' 0 5 = n :=
  BitVec.extractLsb'_append_eq_right

theorem exists_eq_commandWord (w : BitVec 8) : ∃ op n, w = commandWord op n := by
  refine ⟨w.extractLsb' 5 3, w.extractLsb' 0 5, ?_⟩
  rw [commandWord, BitVec.extractLsb'_append_extractLsb'_eq_extractLsb' (show 5 = 0 + 5 from rfl)]
  exact BitVec.extractLsb'_eq_self.symm

theorem commandOp_cases (op : BitVec 3) :
    op = 0 ∨ op = 1 ∨ op = 2 ∨ op = 3 ∨ op = 4 ∨ op = 5 ∨ op = 6 ∨ op = 7 := by
  decide +revert

/-- What a command keeps of `cmd_arg`: LOAD all of it, every other command nothing (R64). -/
def Instr.keptArg (arg : Word32) : Instr → Word32
  | .load _ => arg
  | _ => 0

/-- A command word with a row of its own is the word of that row (R65, R67). -/
theorem encode_of_decodeCommand {w : BitVec 8} {arg : Word32} {i : Instr} (h : decodeCommand w arg = .ok i) :
    i.WellFormed ∧ encode i = .command w (i.keptArg arg) := by
  obtain ⟨op, n, rfl⟩ := exists_eq_commandWord w
  simp only [decodeCommand, commandWord_op, commandWord_count] at h
  by_cases hn : n = 0
  · subst hn
    rcases commandOp_cases op with rfl | rfl | rfl | rfl | rfl | rfl | rfl | rfl <;> cases h <;> exact ⟨rfl, rfl⟩
  · simp only [if_neg hn] at h
    rcases commandOp_cases op with rfl | rfl | rfl | rfl | rfl | rfl | rfl | rfl <;> cases h <;> exact ⟨rfl, rfl⟩

/-! ### The fields of an event record (R78) -/

section EventFields
variable (kind : BitVec 2) (v t : BitVec 3) (aux : Word32) (value : Word64)

@[simp] theorem eventWord_value : (eventWord kind v t aux value).extractLsb' 0 64 = value :=
  BitVec.extractLsb'_append_eq_right

/-- A piece of an event record inside `aux`. -/
theorem eventWord_auxPiece {start len : Nat} (h : start + len ≤ 32) :
    (eventWord kind v t aux value).extractLsb' (64 + start) len = aux.extractLsb' start len := by
  rw [eventWord, BitVec.extractLsb'_append_eq_of_le (Nat.le_add_right _ _),
    BitVec.extractLsb'_append_eq_of_add_le (by omega), Nat.add_sub_cancel_left]

@[simp] theorem eventWord_aux : (eventWord kind v t aux value).extractLsb' 64 32 = aux :=
  (eventWord_auxPiece kind v t aux value (start := 0) (by decide)).trans BitVec.extractLsb'_eq_self

@[simp] theorem eventWord_typeId : (eventWord kind v t aux value).extractLsb' 96 3 = t := by
  rw [eventWord, BitVec.extractLsb'_append_eq_of_le (by decide), BitVec.extractLsb'_append_eq_of_le (by decide)]
  exact BitVec.extractLsb'_append_eq_right

@[simp] theorem eventWord_version : (eventWord kind v t aux value).extractLsb' 99 3 = v := by
  rw [eventWord, BitVec.extractLsb'_append_eq_of_le (by decide), BitVec.extractLsb'_append_eq_of_le (by decide),
    BitVec.extractLsb'_append_eq_of_le (by decide)]
  exact BitVec.extractLsb'_append_eq_right

@[simp] theorem eventWord_kind : (eventWord kind v t aux value).extractLsb' 102 2 = kind := by
  rw [eventWord, BitVec.extractLsb'_append_eq_of_le (by decide), BitVec.extractLsb'_append_eq_of_le (by decide),
    BitVec.extractLsb'_append_eq_of_le (by decide)]
  exact BitVec.extractLsb'_append_eq_left

/-- The bits above an `OP_BEGIN`'s length field and mode. -/
@[simp] theorem eventWord_spare : (eventWord kind v t aux value).extractLsb' 80 16 = aux.extractLsb' 16 16 :=
  eventWord_auxPiece kind v t aux value (start := 16) (by decide)

/-- An `OP_BEGIN`'s length field. -/
@[simp] theorem eventWord_length : (eventWord kind v t aux value).extractLsb' 64 15 = aux.extractLsb' 0 15 :=
  eventWord_auxPiece kind v t aux value (start := 0) (by decide)

/-- An `OP_BEGIN`'s length mode. -/
@[simp] theorem eventWord_mode : (eventWord kind v t aux value).getLsbD 79 = aux.getLsbD 15 := by
  have h := congrArg (BitVec.getLsbD · 0) (eventWord_auxPiece kind v t aux value (start := 15) (len := 1) (by decide))
  simpa using h

end EventFields

theorem exists_eq_eventWord (w : EventWord) : ∃ kind v t aux value, w = eventWord kind v t aux value := by
  refine ⟨w.extractLsb' 102 2, w.extractLsb' 99 3, w.extractLsb' 96 3, w.extractLsb' 64 32, w.extractLsb' 0 64, ?_⟩
  rw [eventWord, BitVec.extractLsb'_append_extractLsb'_eq_extractLsb' (show 102 = 99 + 3 from rfl),
    BitVec.extractLsb'_append_extractLsb'_eq_extractLsb' (show 99 = 96 + 3 from rfl),
    BitVec.extractLsb'_append_extractLsb'_eq_extractLsb' (show 96 = 64 + 32 from rfl),
    BitVec.extractLsb'_append_extractLsb'_eq_extractLsb' (show 64 = 0 + 64 from rfl)]
  exact BitVec.extractLsb'_eq_self.symm

/-! ### `aux` of `OP_BEGIN` -/

@[simp] theorem opBeginAux_length (m : Bool) (l : BitVec 15) : (opBeginAux m l).extractLsb' 0 15 = l :=
  BitVec.extractLsb'_append_eq_right

@[simp] theorem opBeginAux_spare (m : Bool) (l : BitVec 15) : (opBeginAux m l).extractLsb' 16 16 = 0#16 := by
  rw [opBeginAux, BitVec.extractLsb'_append_eq_of_le (by decide)]
  exact BitVec.extractLsb'_append_eq_left

@[simp] theorem opBeginAux_mode (m : Bool) (l : BitVec 15) : (opBeginAux m l).getLsbD 15 = m := by
  rw [opBeginAux, BitVec.getLsbD_append, BitVec.getLsbD_append]
  cases m <;> rfl

/-- An `aux` whose upper half is 0 is made of a mode and a length. -/
theorem opBeginAux_eta {a : Word32} (h : a.extractLsb' 16 16 = 0#16) :
    opBeginAux (a.getLsbD 15) (a.extractLsb' 0 15) = a := by
  have hm : BitVec.ofBool (a.getLsbD 15) = a.extractLsb' 15 1 := by
    ext i hi
    obtain rfl : i = 0 := by omega
    simp
  rw [opBeginAux, ← h, hm, BitVec.extractLsb'_append_extractLsb'_eq_extractLsb' (show 16 = 15 + 1 from rfl),
    BitVec.extractLsb'_append_extractLsb'_eq_extractLsb' (show 15 = 0 + 15 from rfl)]
  exact BitVec.extractLsb'_eq_self

/-! ### Decoding an event record -/

theorem eventKind_cases (kind : BitVec 2) : kind = 0 ∨ kind = 1 ∨ kind = 2 ∨ kind = 3 := by
  decide +revert

theorem checked_eq_ok {α : Type} {c : Prop} [Decidable c] {a b : α} {e : DecodeError} :
    (if c then .ok a else .error e : Except DecodeError α) = .ok b ↔ c ∧ a = b := by
  split <;> simp [*]


theorem decodeEvent_literal (v : BitVec 3) (a : Word32) (d : Word64) :
    decodeEvent (eventWord 0 v 4 a d) = .ok (.evLiteral v a d) := by
  simp [decodeEvent]

theorem decodeEvent_opEnd (a : Word32) : decodeEvent (eventWord 2 0 0 a 0) = .ok (.evOpEnd a) := by
  simp [decodeEvent]

theorem decodeEvent_opBegin {v t : BitVec 3} {m : Bool} {l : BitVec 15} (ht : t ≠ 4#3) (hl : m = true → l.toNat < 2 ^ 11) :
    decodeEvent (eventWord 1 v t (opBeginAux m l) 0) = .ok (.evOpBegin v t m l) := by
  simp only [decodeEvent, eventWord_kind, eventWord_version, eventWord_typeId, eventWord_value, eventWord_mode,
    eventWord_spare, eventWord_length, opBeginAux_spare, opBeginAux_mode, opBeginAux_length]
  exact if_pos ⟨ht, trivial, rfl, hl⟩

/-- An event record with a row of its own is the word of that row (R78). -/
theorem encode_of_decodeEvent {w : EventWord} {i : Instr} (h : decodeEvent w = .ok i) :
    i.WellFormed ∧ encode i = .event w := by
  obtain ⟨kind, v, t, aux, value, rfl⟩ := exists_eq_eventWord w
  simp only [decodeEvent, eventWord_kind, eventWord_version, eventWord_typeId, eventWord_aux, eventWord_value,
    eventWord_mode, eventWord_spare, eventWord_length] at h
  rcases eventKind_cases kind with rfl | rfl | rfl | rfl
  · obtain ⟨rfl, rfl⟩ := checked_eq_ok.mp h
    exact ⟨rfl, rfl⟩
  · obtain ⟨⟨ht, hspare, rfl, hl⟩, rfl⟩ := checked_eq_ok.mp h
    exact ⟨Instr.wellFormed_evOpBegin.mpr ⟨ht, hl⟩, by rw [encode, opBeginAux_eta hspare]; rfl⟩
  · obtain ⟨⟨rfl, rfl, rfl⟩, rfl⟩ := checked_eq_ok.mp h
    exact ⟨rfl, rfl⟩
  · cases h

end Sys2Proof
end

section
/-! Decoder and encoder are inverse to each other on the rows of the opcode table (R64 to R81). -/

namespace Sys2Proof

/-! ### A packet format with nothing after it -/

theorem decode_headerM0 {t : BitVec 3} (h : t ≠ 4#3) (v : BitVec 3) (l : BitVec 15) :
    decode (.stream .packet (headerM0Bits t v l)) = .ok (operatorM0 t v l) := by
  have hd := decodePacket_headerM0 h v l []
  rw [List.append_nil] at hd
  exact decode_stream_eq_ok.mpr hd

theorem decode_headerM1 {t : BitVec 3} (h : t ≠ 4#3) (v : BitVec 3) (c : BitVec 11) :
    decode (.stream .packet (headerM1Bits t v c)) = .ok (operatorM1 t v c) := by
  have hd := decodePacket_headerM1 h v c []
  rw [List.append_nil] at hd
  exact decode_stream_eq_ok.mpr hd

theorem decode_literal (v : BitVec 3) {ps : List (BitVec 4)} (h : ps ≠ []) :
    decode (.stream .packet (fieldBits v ++ fieldBits 4#3 ++ varintBits ps)) = .ok (.pktLiteral v ps) := by
  have hd := decodePacket_literal v h []
  rw [List.append_nil] at hd
  exact decode_stream_eq_ok.mpr hd

/-! ### CONSUME8's and CONSUME16's words, which the pseudo-instructions share (R81) -/

theorem decode_consume8 (n : Count5) : decode (.command (commandWord 0b010 n) 0) = .ok (.consume8 n) := by
  simp [decode, decodeCommand]

theorem decode_consume16 (n : Count5) : decode (.command (commandWord 0b011 n) 0) = .ok (.consume16 n) := by
  simp [decode, decodeCommand]

/-! ### Both directions -/

/-- Settles O14: row by row; an operator header's row is `operatorM0` or `operatorM1` at its type id, and a pseudo-instruction
has the word of CONSUME8 or CONSUME16. -/
theorem decodeOfEncode : Obligations.DecodeOfEncode := by
  intro i hi
  cases i with
  | load arg => rfl
  | consume8 n => exact decode_consume8 n
  | consume16 n => exact decode_consume16 n
  | varint => rfl
  | packet => rfl
  | stream => rfl
  | reservedOp0 x => simp [encode, decode, decodeCommand, Instr.canonical]
  | reservedOp7 x => simp [encode, decode, decodeCommand, Instr.canonical]
  | version => exact decode_consume8 3
  | typeid => exact decode_consume8 3
  | ltype => exact decode_consume8 1
  | group => exact decode_consume8 5
  | totalbits => exact decode_consume16 15
  | npackets => exact decode_consume16 11
  | read n =>
    by_cases h : n.toNat ≤ 8
    · simp only [encode, Instr.canonical, if_pos h, decode_consume8]
    · simp only [encode, Instr.canonical, if_neg h, decode_consume16]
  | varintGroup c p =>
    exact decode_stream_eq_ok.mpr (decodeStream_group_eq_ok.mpr ⟨c, p, rfl, (List.append_nil _).symm⟩)
  | pktHeader v t =>
    exact decode_stream_eq_ok.mpr (decodeStream_header_eq_ok.mpr ⟨v, t, rfl, (List.append_nil _).symm⟩)
  | pktLiteral v ps => exact decode_literal v (Instr.wellFormed_pktLiteral.mp hi)
  | pktSumM0 v l => exact decode_headerM0 (t := 0) (by decide) v l
  | pktSumM1 v c => exact decode_headerM1 (t := 0) (by decide) v c
  | pktProductM0 v l => exact decode_headerM0 (t := 1) (by decide) v l
  | pktProductM1 v c => exact decode_headerM1 (t := 1) (by decide) v c
  | pktMinimumM0 v l => exact decode_headerM0 (t := 2) (by decide) v l
  | pktMinimumM1 v c => exact decode_headerM1 (t := 2) (by decide) v c
  | pktMaximumM0 v l => exact decode_headerM0 (t := 3) (by decide) v l
  | pktMaximumM1 v c => exact decode_headerM1 (t := 3) (by decide) v c
  | pktGreaterM0 v l => exact decode_headerM0 (t := 5) (by decide) v l
  | pktGreaterM1 v c => exact decode_headerM1 (t := 5) (by decide) v c
  | pktLessM0 v l => exact decode_headerM0 (t := 6) (by decide) v l
  | pktLessM1 v c => exact decode_headerM1 (t := 6) (by decide) v c
  | pktEqualM0 v l => exact decode_headerM0 (t := 7) (by decide) v l
  | pktEqualM1 v c => exact decode_headerM1 (t := 7) (by decide) v c
  | evLiteral v a d => exact decodeEvent_literal v a d
  | evOpBegin v t m l =>
    obtain ⟨ht, hl⟩ := Instr.wellFormed_evOpBegin.mp hi
    exact decodeEvent_opBegin ht hl
  | evOpEnd a => exact decodeEvent_opEnd a

/-- Settles O15: everything that the decoder can answer to a word is a row whose word that is. -/
theorem encodeOfDecode : Obligations.EncodeOfDecode := by
  refine ⟨fun op arg i h => encode_of_decodeCommand h, fun pos bs i h => ?_, fun w i h => encode_of_decodeEvent h⟩
  have hd := decode_stream_eq_ok.mp h
  cases pos with
  | group =>
    obtain ⟨c, p, rfl, rfl⟩ := decodeStream_group_eq_ok.mp hd
    exact ⟨rfl, by rw [List.append_nil]; rfl⟩
  | header =>
    obtain ⟨v, t, rfl, rfl⟩ := decodeStream_header_eq_ok.mp hd
    exact ⟨rfl, by rw [List.append_nil]; rfl⟩
  | packet =>
    rcases decodePacket_ok_cases hd with ⟨v, ps, hne, rfl, rfl⟩ | ⟨t, v, l, ht, rfl, rfl⟩ | ⟨t, v, c, ht, rfl, rfl⟩
    · exact ⟨Instr.wellFormed_pktLiteral.mpr hne, by rw [List.append_nil]; rfl⟩
    · rw [List.append_nil]
      exact operatorM0_row ht v l
    · rw [List.append_nil]
      exact operatorM1_row ht v c

/-- Settles O16: the decoder runs on each word. -/
theorem sampleWordsDecode : Obligations.SampleWordsDecode := by
  unfold Obligations.SampleWordsDecode
  and_intros <;> rfl

end Sys2Proof
end

section
/-! Groups folded into `ACC` (R121, R126): one group, the groups of a whole varint, and the row of a literal (R73). -/

namespace Sys2Proof.Machine

/-! ### One group -/

/-- The guard fails exactly where the shift by four would lose a set bit (R126). -/
theorem varintGuardFails_iff (a : Word64) : varintGuardFails a = true ↔ 2 ^ 60 ≤ a.toNat := by
  unfold varintGuardFails clz64
  by_cases h : a = 0
  · subst h; decide
  · have hne : a.toNat ≠ 0 := fun h0 => h (BitVec.eq_of_toNat_eq h0)
    have hlog : 60 ≤ Nat.log2 a.toNat ↔ 2 ^ 60 ≤ a.toNat := Nat.le_log2 hne
    have hlt : Nat.log2 a.toNat < 64 := (Nat.log2_lt hne).mpr a.isLt
    rw [if_neg h, decide_eq_true_eq, ← hlog]
    omega

/-- A payload goes into the four bits that the shift clears (R126). -/
theorem shiftIn_payload {a : Word64} (p : BitVec 4) (h : a.toNat < 2 ^ 60) :
    (a <<< 4) ||| p.setWidth 64 = BitVec.ofNat 64 (16 * a.toNat + p.toNat) := by
  rw [← BitVec.ofNat_toNat, shiftIn_eq a 4 p.toNat p.isLt (by omega), Nat.mul_comm]
  rfl

theorem foldGroup_folds (p : BitVec 4) {s : State} (h : s.acc.toNat < 2 ^ 60) :
    foldGroup p s = .ok () { s with acc := BitVec.ofNat 64 (16 * s.acc.toNat + p.toNat), groups := s.groups + 1 } := by
  have hguard : ¬ varintGuardFails s.acc = true := by rw [varintGuardFails_iff]; omega
  rw [foldGroup, if_neg hguard, shiftIn_payload p h]

theorem foldGroup_overflows (p : BitVec 4) {s : State} (h : 2 ^ 60 ≤ s.acc.toNat) :
    foldGroup p s = .raise .varintOverflow s := by
  rw [foldGroup, if_pos ((varintGuardFails_iff s.acc).mpr h)]

/-- A raise whose cause does not set `FAULT` fails the running command and leaves the latch (R24, R153). -/
theorem endFormat_raise {c : Cause} (h : c.sticky = false) (s : State) :
    endFormat (.raise c s) = .next { s with
      pgState := .idle, stk := [], provisional := [], busy := false
      delivered := s.delivered ++ [.response (Response.failure c)] } := by
  simp [endFormat, State.fail, State.respond, State.latch, State.discard, State.unwind, h]

/-- Settles O49: the guard splits a group's clause in two, and a header has no guard. -/
theorem groupAndHeaderFormats : Obligations.GroupAndHeaderFormats := by
  intro s
  refine ⟨fun v t => rfl, fun c p h => ?_, fun c p h => ?_⟩
  · have hfold := foldGroup_folds p (s := { s with bitOffset := s.bitOffset + 5 }) h
    exact congrArg endFormat hfold
  · have hfold := foldGroup_overflows p (s := { s with bitOffset := s.bitOffset + 5 }) h
    exact (congrArg endFormat hfold).trans (endFormat_raise rfl _)

/-! ### The number that payloads make -/

theorem payloadsNat_append_singleton (ps : List (BitVec 4)) (p : BitVec 4) :
    payloadsNat (ps ++ [p]) = 16 * payloadsNat ps + p.toNat := by
  simp [payloadsNat]

theorem payloadsNat_dropLast_le (ps : List (BitVec 4)) : 16 * payloadsNat ps.dropLast ≤ payloadsNat ps := by
  induction ps using List.reverseRecOn with
  | nil => decide
  | append_singleton ps p _ =>
    rw [List.dropLast_concat, payloadsNat_append_singleton]
    omega

/-- A payload has four bits. -/
theorem payloadsNat_lt_of_dropLast {ps : List (BitVec 4)} (h : payloadsNat ps.dropLast < 2 ^ 60) :
    payloadsNat ps < 2 ^ 64 := by
  induction ps using List.reverseRecOn with
  | nil => decide
  | append_singleton ps p _ =>
    rw [List.dropLast_concat] at h
    rw [payloadsNat_append_singleton]
    omega

/-! ### The groups of a varint -/

theorem foldGroups_append (ps qs : List (BitVec 4)) (s : State) :
    foldGroups (ps ++ qs) s = (foldGroups ps s).bind fun _ t => foldGroups qs t := by
  induction ps generalizing s with
  | nil => rfl
  | cons p ps ih =>
    simp only [List.cons_append, foldGroups, ih]
    cases foldGroup p { s with bitOffset := s.bitOffset + 5 } <;> rfl

theorem foldGroups_singleton (p : BitVec 4) (s : State) :
    foldGroups [p] s = foldGroup p { s with bitOffset := s.bitOffset + 5 } := by
  simp only [foldGroups]
  cases foldGroup p { s with bitOffset := s.bitOffset + 5 } <;> rfl

/-- Groups whose payloads before the last make a number of at most 60 bits fold into the number that all of them make. -/
theorem foldGroups_folds {ps : List (BitVec 4)} {s : State} (hacc : s.acc = 0) (h : payloadsNat ps.dropLast < 2 ^ 60) :
    foldGroups ps s = .ok () { s with
      bitOffset := s.bitOffset + 5 * ps.length, acc := BitVec.ofNat 64 (payloadsNat ps), groups := s.groups + ps.length } := by
  induction ps using List.reverseRecOn with
  | nil =>
    show Micro.ok () s = .ok () { s with acc := 0 }
    rw [← hacc]
  | append_singleton ps p ih =>
    rw [List.dropLast_concat] at h
    have hle := payloadsNat_dropLast_le ps
    have hval : (BitVec.ofNat 64 (payloadsNat ps)).toNat = payloadsNat ps := Nat.mod_eq_of_lt (by omega)
    rw [foldGroups_append, ih (by omega), Micro.bind_ok, foldGroups_singleton, foldGroup_folds p (by rw [hval]; exact h),
      payloadsNat_append_singleton, hval]
    simp only [List.length_append, List.length_singleton]
    rfl

/-- Groups whose payloads before the last make more are folded up to the first group that the guard stops. -/
theorem foldGroups_overflows {ps : List (BitVec 4)} {s : State} (hacc : s.acc = 0) (h : 2 ^ 60 ≤ payloadsNat ps.dropLast) :
    ∃ k, k < ps.length ∧ 2 ^ 60 ≤ payloadsNat (ps.take k) ∧ payloadsNat (ps.take (k - 1)) < 2 ^ 60 ∧
      foldGroups ps s = .raise .varintOverflow { s with
        bitOffset := s.bitOffset + 5 * (k + 1), acc := BitVec.ofNat 64 (payloadsNat (ps.take k)), groups := s.groups + k } := by
  induction ps using List.reverseRecOn with
  | nil => exact absurd h (by decide)
  | append_singleton ps p ih =>
    rw [List.dropLast_concat] at h
    rw [foldGroups_append]
    rcases Nat.lt_or_ge (payloadsNat ps.dropLast) (2 ^ 60) with hlt | hge
    · have hval : (BitVec.ofNat 64 (payloadsNat ps)).toNat = payloadsNat ps :=
        Nat.mod_eq_of_lt (payloadsNat_lt_of_dropLast hlt)
      refine ⟨ps.length, by simp, by simpa using h, ?_, ?_⟩
      · rw [List.take_append_of_le_length (Nat.sub_le _ _), ← List.dropLast_eq_take]
        exact hlt
      · rw [foldGroups_folds hacc hlt, Micro.bind_ok, foldGroups_singleton, foldGroup_overflows p (by rw [hval]; exact h)]
        rw [List.take_left]
        rfl
    · obtain ⟨k, hk, hover, hbelow, hrun⟩ := ih hge
      rw [hrun, Micro.bind_raise]
      refine ⟨k, by simp; omega, ?_, ?_, ?_⟩
      · rwa [List.take_append_of_le_length (by omega)]
      · rwa [List.take_append_of_le_length (by omega)]
      · rw [List.take_append_of_le_length (by omega)]

/-! ### The literal format (R73, R152) -/

theorem execPktLiteral_eq (v : BitVec 3) (ps : List (BitVec 4)) (s : State) :
    exec (.pktLiteral v ps) s =
      endFormat ((foldGroups ps { readHeader v 4 s with acc := 0, groups := 0 }).bind fun _ t =>
        .ok () (finishLiteral t.acc t.groups t)) := rfl

/-- Settles O48: the header starts `ACC` at 0, and the groups then fold or the guard stops them. -/
theorem literalFormatFolds : Obligations.LiteralFormatFolds := by
  intro s v ps _
  refine ⟨fun h => ?_, fun h => ?_⟩
  · rw [execPktLiteral_eq, foldGroups_folds rfl h, Micro.bind_ok]
    simp [endFormat, finishLiteral, State.emit, readHeader]
  · obtain ⟨k, hk, hover, hbelow, hrun⟩ := foldGroups_overflows (s := { readHeader v 4 s with acc := 0, groups := 0 }) rfl h
    refine ⟨k, hk, hover, hbelow, ?_⟩
    rw [execPktLiteral_eq, hrun, Micro.bind_raise, endFormat_raise rfl]
    simp [readHeader]

end Sys2Proof.Machine
end

section
/-! Groups that stand in the stream (R70, R71): `varint` reads them and folds them, and the groups of a 64-bit value fold back
to it (R127). -/

namespace Sys2Proof.Machine

/-! ### Bits at a place of the stream -/

theorem State.BitsAt.left {s : State} {o : Nat} {bs cs : List Bool} (h : s.BitsAt o (bs ++ cs)) : s.BitsAt o bs := by
  obtain ⟨hin, hbit⟩ := h
  rw [List.length_append] at hin
  refine ⟨by omega, fun i hi => ?_⟩
  rw [hbit i (by rw [List.length_append]; omega), List.getElem_append_left hi]

theorem State.BitsAt.right {s : State} {o : Nat} {bs cs : List Bool} (h : s.BitsAt o (bs ++ cs)) :
    s.BitsAt (o + bs.length) cs := by
  obtain ⟨hin, hbit⟩ := h
  rw [List.length_append] at hin
  refine ⟨by omega, fun i hi => ?_⟩
  rw [Nat.add_assoc, hbit (bs.length + i) (by rw [List.length_append]; omega),
    List.getElem_append_right (Nat.le_add_right _ _)]
  simp

/-- Bits at a place depend on the buffer alone. -/
theorem State.BitsAt.congr {s t : State} {o : Nat} {bs : List Bool} (h : s.BitsAt o bs) (hb : t.buf = s.buf)
    (hl : t.len = s.len) : t.BitsAt o bs := by
  obtain ⟨hin, hbit⟩ := h
  refine ⟨by rw [State.endOfBuffer, hl]; exact hin, fun i hi => ?_⟩
  rw [State.sbit, hb]
  exact hbit i hi

/-- The field over bits that are known is their number (R13, R44). -/
theorem State.BitsAt.field_eq {s : State} {o : Nat} {bs : List Bool} (h : s.BitsAt o bs) :
    s.field o bs.length = natOfBits bs := by
  induction bs using List.reverseRecOn with
  | nil => rfl
  | append_singleton bs b ih =>
    have hb : s.sbit (o + bs.length) = b := by simpa using h.bit bs.length (by simp)
    rw [List.length_append, List.length_singleton, State.field, ih h.left, hb, natOfBits_append_bit]

/-! ### `varint` on groups in the stream -/

/-- Five bits of a group, read into a byte. -/
theorem groupByte (c : Bool) (p : BitVec 4) :
    (BitVec.ofNat 8 (natOfBits (groupBits c p))).setWidth 4 = p ∧
      (BitVec.ofNat 8 (natOfBits (groupBits c p))).getLsbD 4 = c := by
  rw [groupBits, natOfBits_cons, fieldBits_length, natOfBits_fieldBits]
  decide +revert

/-- One round of the loop on a group at the cursor (R122). -/
theorem varintLoop_group (rounds : Nat) {s : State} {c : Bool} {p : BitVec 4} (h : s.BitsAt s.bitOffset (groupBits c p)) :
    varintLoop (rounds + 1) s =
      (foldGroup p { s with bitOffset := s.bitOffset + 5 }).bind fun _ t =>
        if c then varintLoop rounds t else .ok (t.acc, t.groups) t := by
  have hfield : s.field s.bitOffset 5 = natOfBits (groupBits c p) := by
    simpa [groupBits] using h.field_eq
  have hroom : s.bitOffset + 5 ≤ 8 * s.len := by simpa [groupBits] using h.inBuffer
  have hread := consume_ok (W := 8) (count := 5) s (by decide) (.inr hroom)
  obtain ⟨hpayload, hflag⟩ := groupByte c p
  rw [varintLoop, consume8, hread, Micro.bind_ok, hfield, hpayload, hflag]

/-- The fold of a group leaves the buffer, and the cursor. -/
theorem foldGroup_keeps {p : BitVec 4} {s t : State} (h : foldGroup p s = .ok () t) :
    t.buf = s.buf ∧ t.len = s.len ∧ t.bitOffset = s.bitOffset := by
  rcases foldGroup_cases p s with ⟨-, hf⟩ | ⟨-, hf⟩ <;> rw [hf] at h <;> cases h
  exact ⟨rfl, rfl, rfl⟩

/-- The loop of `varint` on a whole varint at the cursor folds its groups (R121). -/
theorem varintLoop_varintBits {ps : List (BitVec 4)} (hne : ps ≠ []) {rounds : Nat} (hr : ps.length ≤ rounds) {s : State}
    (h : s.BitsAt s.bitOffset (varintBits ps)) :
    varintLoop rounds s = (foldGroups ps s).bind fun _ t => .ok (t.acc, t.groups) t := by
  induction ps generalizing rounds s with
  | nil => exact absurd rfl hne
  | cons p ps ih =>
    obtain ⟨rounds, rfl⟩ : ∃ n, rounds = n + 1 := ⟨rounds - 1, by rw [List.length_cons] at hr; omega⟩
    cases ps with
    | nil =>
      rw [foldGroups_singleton]
      exact varintLoop_group rounds (c := false) h
    | cons q qs =>
      rw [varintBits_cons_cons] at h
      rw [varintLoop_group rounds h.left, foldGroups]
      cases hfold : foldGroup p { s with bitOffset := s.bitOffset + 5 } with
      | raise c t => rfl
      | ok u t =>
        obtain ⟨hbuf, hlen, hoff⟩ := foldGroup_keeps hfold
        have hrest : t.BitsAt t.bitOffset (varintBits (q :: qs)) := by
          rw [hoff]
          have := h.right.congr hbuf hlen
          simpa [groupBits] using this
        exact ih (List.cons_ne_nil q qs) (Nat.le_of_succ_le_succ hr) hrest

/-! ### The groups of a 64-bit value -/

theorem payloadsOf_length (x : Word64) (k : Nat) : (payloadsOf x k).length = k := by
  simp [payloadsOf]

/-- The last group holds the low four bits. -/
theorem payloadsOf_succ (x : Word64) (k : Nat) :
    payloadsOf x (k + 1) = payloadsOf (x >>> 4) k ++ [BitVec.ofNat 4 x.toNat] := by
  rw [payloadsOf, List.range_succ, List.map_append]
  congr 1
  · refine List.map_congr_left fun i hi => ?_
    have hi := List.mem_range.mp hi
    rw [BitVec.toNat_ushiftRight, ← Nat.shiftRight_add]
    congr 2
    omega
  · simp

theorem payloadsNat_payloadsOf (x : Word64) (k : Nat) : payloadsNat (payloadsOf x k) = x.toNat % 16 ^ k := by
  induction k generalizing x with
  | zero => simp [payloadsOf, payloadsNat, Nat.mod_one]
  | succ k ih =>
    have hhigh : (x >>> 4).toNat = x.toNat / 16 := by rw [BitVec.toNat_ushiftRight, Nat.shiftRight_eq_div_pow]
    rw [payloadsOf_succ, payloadsNat_append_singleton, ih, hhigh, BitVec.toNat_ofNat, Nat.pow_succ' (m := 16), Nat.mod_mul]
    omega

/-- A varint at the cursor that holds a 64-bit value (R71, R127). -/
theorem varint_payloadsOf {s : State} {x : Word64} {k : Nat} (hk : 1 ≤ k) (hx : x.toNat < 16 ^ k)
    (h : s.BitsAt s.bitOffset (varintBits (payloadsOf x k))) :
    varint s = .ok (x, k) { s with bitOffset := s.bitOffset + 5 * k, acc := x, groups := k } := by
  have hlen := payloadsOf_length x k
  have hval : payloadsNat (payloadsOf x k) = x.toNat := by rw [payloadsNat_payloadsOf, Nat.mod_eq_of_lt hx]
  have hne : payloadsOf x k ≠ [] := List.ne_nil_of_length_pos (by omega)
  have hrounds : (payloadsOf x k).length ≤ s.remaining + 1 := by
    have hin : s.bitOffset + (varintBits (payloadsOf x k)).length ≤ 8 * s.len := h.inBuffer
    rw [varintBits_length, hlen] at hin
    rw [hlen, State.remaining]
    omega
  have hdrop : payloadsNat (payloadsOf x k).dropLast < 2 ^ 60 := by
    have hle := payloadsNat_dropLast_le (payloadsOf x k)
    have hlt := x.isLt
    omega
  have h0 : State.BitsAt { s with acc := 0, groups := 0 } s.bitOffset (varintBits (payloadsOf x k)) := h.congr rfl rfl
  rw [varint, varintLoop_varintBits hne hrounds h0, foldGroups_folds rfl hdrop, Micro.bind_ok, hval, hlen,
    BitVec.ofNat_toNat, BitVec.setWidth_eq, Nat.zero_add]

/-- Settles O30: `varint` reads the value, and VARINT answers with it. -/
theorem varintDecodesEveryEncoding : Obligations.VarintDecodesEveryEncoding := by
  intro s x k hf hk hx hbits
  have hbits' : State.BitsAt { s with busy := true } s.bitOffset (varintBits (payloadsOf x k)) := hbits.congr rfl rfl
  have hexec : exec .varint s = .next (varintCommand s) := rfl
  rw [hexec, varintCommand, accept_ok _ hf, varint_payloadsOf hk hx hbits']
  rfl

end Sys2Proof.Machine
end

section
/-! What one instruction or one command word does, in every state: the reserved rows (R67), the pseudo-instructions (R81), the
operator headers (R74 to R76), and the step that takes a command word from the port (R61, R62). -/

namespace Sys2Proof.Machine

/-! ### Rows of the opcode table -/

/-- Settles O18: both rows are `rejectCommand`, whose outcome the latch decides. -/
theorem reservedRowsAnswer : Obligations.ReservedRowsAnswer := by
  intro s x
  have h0 : exec (.reservedOp0 x) s = .next s.rejectCommand := rfl
  have h7 : exec (.reservedOp7 x) s = .next s.rejectCommand := rfl
  rw [h0, h7]
  refine ⟨fun hf => ?_, fun hf => ?_⟩
  · rw [rejectCommand_ok hf]
    exact ⟨rfl, rfl⟩
  · rw [State.rejectCommand, accept_faulted _ hf]
    exact ⟨rfl, rfl⟩

/-- Where READ is defined, it is CONSUME8 or CONSUME16 by its count (R81). -/
theorem exec_read {n : Count5} (h : n.toNat ≤ 16) (s : State) :
    exec (.read n) s = .next (consumeCommand (if n.toNat ≤ 8 then 8 else 16) n.toNat s) := by
  show execRead n s = _
  unfold execRead
  split <;> rfl

/-- Settles O25: but for READ, the instruction and the command it stands for have one meaning. -/
theorem pseudoInstructionsAreCommands : Obligations.PseudoInstructionsAreCommands := by
  intro i hi s
  cases i with
  | read n =>
    have hn : n.toNat ≤ 16 := Instr.wellFormed_read.mp hi
    by_cases h8 : n.toNat ≤ 8
    · rw [exec_read hn, Instr.canonical, if_pos h8, if_pos h8]
      rfl
    · rw [exec_read hn, Instr.canonical, if_neg h8, if_neg h8]
      rfl
  | _ => rfl

/-- READ of more than sixteen bits is not defined (R81; log entry 13). -/
theorem exec_read_refused {n : Count5} (h : 16 < n.toNat) (s : State) : exec (.read n) s = .refused (.readNotDefined n) := by
  have h8 : ¬ n.toNat ≤ 8 := by omega
  show execRead n s = _
  rw [execRead, if_neg h8, if_neg (Nat.not_le.mpr h)]

/-- Settles O26: each pseudo-instruction is one read of a command whose width holds its count. -/
theorem pseudoInstructionsComplete : Obligations.PseudoInstructionsComplete := by
  intro s hf
  have reads {W count : Nat} (hw : count ≤ W) (h : s.bitOffset + count ≤ s.endOfBuffer) :=
    congrArg (Host.Outcome.next (φ := Fault) (ρ := Refusal)) (consumeCommand_returns hf hw (.inr h))
  refine ⟨fun h => ⟨?version, ?typeid⟩, fun h => ?ltype, fun h => ?group, fun h => ?totalbits, fun h => ?npackets,
    fun n hn h => ?read, fun n hn => exec_read_refused hn s⟩
  case version => exact reads (W := 8) (by decide) h
  case typeid => exact reads (W := 8) (by decide) h
  case ltype => exact reads (W := 8) (by decide) h
  case group => exact reads (W := 8) (by decide) h
  case totalbits => exact reads (W := 16) (by decide) h
  case npackets => exact reads (W := 16) (by decide) h
  case read => exact (exec_read hn s).trans (reads (by split <;> omega) h)

/-! ### Operator headers -/

theorem exec_operatorM0 {t : BitVec 3} (h : t ≠ 4#3) (v : BitVec 3) (l : BitVec 15) (s : State) :
    exec (operatorM0 t v l) s = endFormat (operatorFormatM0 t v l s) := by
  rcases operatorTypeId_cases h with rfl | rfl | rfl | rfl | rfl | rfl | rfl <;> rfl

theorem exec_operatorM1 {t : BitVec 3} (h : t ≠ 4#3) (v : BitVec 3) (c : BitVec 11) (s : State) :
    exec (operatorM1 t v c) s = endFormat (operatorFormatM1 t v c s) := by
  rcases operatorTypeId_cases h with rfl | rfl | rfl | rfl | rfl | rfl | rfl <;> rfl

/-- The push of length mode 0 with a frame free: the limit is an end offset (R150, R152). -/
theorem pushOperator_totalBits {l : BitVec 15} {s : State} (h : s.sp ≠ s.cfg.stackDepth) :
    pushOperator .totalBits l s = .ok () { s with
      stk := { mode := .totalBits, limit := s.bitOffset + l.toNat, nchild := 0 } :: s.stk, pgState := .next
      provisional := s.provisional ++ [.opBegin s.ver s.tid .totalBits l] } :=
  if_neg h

/-- The push of length mode 1 with a frame free: the limit is a number of children (R152). -/
theorem pushOperator_packetCount {l : BitVec 15} {s : State} (h : s.sp ≠ s.cfg.stackDepth) :
    pushOperator .packetCount l s = .ok () { s with
      stk := { mode := .packetCount, limit := l.toNat, nchild := 0 } :: s.stk, pgState := .next
      provisional := s.provisional ++ [.opBegin s.ver s.tid .packetCount l] } :=
  if_neg h

/-- Settles O46: every row is `operatorFormatM0` or `operatorFormatM1` at its type id, which pushes a frame. -/
theorem operatorHeaderOpensFrame : Obligations.OperatorHeaderOpensFrame := by
  refine ⟨by and_intros <;> rfl, fun s t v ht hfree => ⟨fun l => ?_, fun c => ?_⟩⟩
  · have hpush := pushOperator_totalBits (l := l) (s := { s with bitOffset := s.bitOffset + 22, ver := v, tid := t }) hfree
    exact (exec_operatorM0 ht v l s).trans (congrArg endFormat hpush)
  · have hpush := pushOperator_packetCount (l := c.setWidth 15)
      (s := { s with bitOffset := s.bitOffset + 18, ver := v, tid := t }) hfree
    have hc : (c.setWidth 15).toNat = c.toNat := by rw [BitVec.toNat_setWidth, Nat.mod_eq_of_lt (by omega)]
    rw [hc] at hpush
    exact (exec_operatorM1 ht v c s).trans (congrArg endFormat hpush)

end Sys2Proof.Machine
end

section
/-! A command word on the port (R61, R62): the step runs the instruction that it decodes to, and hands the host that command's
events, then its one response. -/

namespace Sys2Proof.Machine

/-! ### What runs -/

theorem step_of_decode {s : State} {op : BitVec 8} {arg : Word32} {rest : List HostAct} {i : Instr} (hb : s.busy = false)
    (hi : s.inbox = .command op arg :: rest) (hd : decode (.command op arg) = .ok i) :
    step s = exec i { s with inbox := rest } := by
  rw [step_of_inbox hb hi, hostAct, runCommand, hd]

theorem step_of_decode_error {s : State} {op : BitVec 8} {arg : Word32} {rest : List HostAct} {e : DecodeError}
    (hb : s.busy = false) (hi : s.inbox = .command op arg :: rest) (hd : decode (.command op arg) = .error e) :
    step s = .next (State.rejectCommand { s with inbox := rest }) := by
  rw [step_of_inbox hb hi, hostAct, runCommand, hd]

theorem eq_ok_of_toOption {x : Except DecodeError Instr} {i : Instr} (h : x.toOption = some i) : x = .ok i := by
  cases x <;> cases h
  rfl

/-- Settles O6: a command word that `withFetchWord` places is the next on the port. -/
theorem stepRunsTheDecodedCommand : Obligations.StepRunsTheDecodedCommand := by
  refine ⟨fun s op arg rest i => step_of_decode, fun s op arg rest e => step_of_decode_error, fun s nbits w i hw hd => ?_⟩
  rcases hw with rfl | rfl
  · exact step_of_decode (s := s.withFetchWord 8 w) rfl rfl (eq_ok_of_toOption hd)
  · exact step_of_decode (s := s.withFetchWord 40 w) rfl rfl (eq_ok_of_toOption hd)

/-! ### What the host is handed -/

/-- A command that began in `s` has been answered in `t`: the queue is as it was, and the host has been handed events and
then one response (R57, R62). -/
structure AnsweredOnce (s t : State) : Prop where
  notBusy : t.busy = false
  inbox : t.inbox = s.inbox
  delivered : ∃ (es : List Event) (r : Response), t.delivered = s.delivered ++ es.map .event ++ [.response r]

/-- A command that began in `s` is still running in `t`: the queue is as it was, and the host has been handed nothing. -/
structure Unanswered (s t : State) : Prop where
  inbox : t.inbox = s.inbox
  delivered : t.delivered = s.delivered

theorem Unanswered.moved {s t u : State} (h : Unanswered s t) (hm : Moved t u) : Unanswered s u :=
  ⟨hm.inbox.trans h.inbox, hm.delivered.trans h.delivered⟩

theorem Unanswered.commit_respond {s t : State} (h : Unanswered s t) (n : Nat) (r : Response) :
    AnsweredOnce s ((t.commit n).respond r) :=
  ⟨rfl, h.inbox, committedPrefix n 0 t.provisional, r, by simp [h.delivered]⟩

theorem Unanswered.respond {s t : State} (h : Unanswered s t) (r : Response) : AnsweredOnce s (t.respond r) :=
  ⟨rfl, h.inbox, [], r, by simp [h.delivered]⟩

theorem Unanswered.fail {s t : State} (h : Unanswered s t) (c : Cause) : AnsweredOnce s (t.fail c) :=
  ⟨rfl, h.inbox, [], Response.failure c, by simp [h.delivered]⟩

/-- A command is answered once if its body answers once; where `FAULT` is 1 the answer is `Faulted` (R208). -/
theorem answeredOnce_accept {s : State} {body : State → State}
    (h : Unanswered s { s with busy := true } → AnsweredOnce s (body { s with busy := true })) :
    AnsweredOnce s (s.accept body) := by
  have h0 : Unanswered s { s with busy := true } := ⟨rfl, rfl⟩
  unfold State.accept
  dsimp only
  split_ifs
  · exact h0.fail .faulted
  · exact h h0

theorem consumeCommand_answeredOnce (W count : Nat) (s : State) : AnsweredOnce s (consumeCommand W count s) := by
  refine answeredOnce_accept fun h => ?_
  have hm := h.moved (consume_moved W count _)
  cases hc : consume W count { s with busy := true } with
  | ok v t => rw [hc] at hm; exact hm.respond _
  | raise c t => rw [hc] at hm; exact hm.fail c

theorem varintCommand_answeredOnce (s : State) : AnsweredOnce s (varintCommand s) := by
  refine answeredOnce_accept fun h => ?_
  have hm := h.moved (varint_moved _)
  cases hv : varint { s with busy := true } with
  | ok r t => rw [hv] at hm; exact hm.respond _
  | raise c t => rw [hv] at hm; exact hm.fail c

theorem packetCommand_answeredOnce (s : State) : AnsweredOnce s (packetCommand s) := by
  refine answeredOnce_accept fun h => ?_
  have h0 : Unanswered s { s with busy := true, pktCount := 0, attemptStart := s.bitOffset, provisional := [] } := { h with }
  have hm := h0.moved (packet_moved _).1
  dsimp only
  cases hp : packet { s with busy := true, pktCount := 0, attemptStart := s.bitOffset, provisional := [] } with
  | ok u t => rw [hp] at hm; exact Unanswered.commit_respond (t := { t with pktCount := 1 }) { hm with } 1 _
  | raise c t => rw [hp] at hm; exact Unanswered.fail (t := t.discard) { hm with } c

theorem streamLoop_answeredOnce {s₀ : State} (attempts : Nat) {s : State} (h : Unanswered s₀ s) :
    AnsweredOnce s₀ (streamLoop attempts s) := by
  induction attempts generalizing s with
  | zero => exact h.commit_respond _ _
  | succ attempts ih =>
    have h0 : Unanswered s₀ { s with attemptStart := s.bitOffset } := { h with }
    have hm := h0.moved (packet_moved _).1
    rw [streamLoop]
    cases hp : packet { s with attemptStart := s.bitOffset } with
    | ok u t => rw [hp] at hm; exact ih { hm with }
    | raise c t =>
      rw [hp] at hm
      cases c
      case exhausted => exact hm.commit_respond _ _
      all_goals exact Unanswered.fail (t := t.discard) { hm with } _

theorem loadCommand_answeredOnce (arg : Word32) (s : State) : AnsweredOnce s (loadCommand arg s) := by
  refine answeredOnce_accept fun h => ?_
  dsimp only
  split_ifs
  · exact h.fail .illegalCmd
  · have h0 : Unanswered s { s with
        busy := true, buf := copyBytes arg.toNat s.hostMem s.buf, len := arg.toNat, bitOffset := 0 } := { h with }
    exact h0.respond _

theorem Reader.answeredOnce {f : State → State} (hf : Reader f) (s : State) : AnsweredOnce s (f s) := by
  cases hf with
  | reject => exact answeredOnce_accept fun h => h.fail .illegalCmd
  | consume W count => exact consumeCommand_answeredOnce W count s
  | varint => exact varintCommand_answeredOnce s
  | packet => exact packetCommand_answeredOnce s
  | stream => exact answeredOnce_accept fun h => streamLoop_answeredOnce _ { h with }

/-- Settles O5: every word runs LOAD or a `Reader`, and each of these answers once. -/
theorem everyCommandAnsweredOnce : Obligations.EveryCommandAnsweredOnce := by
  intro s op arg rest hb hi
  obtain ⟨t, hrun, ⟨hbusy, hinbox, es, r, hd⟩⟩ :
      ∃ t, runCommand op arg { s with inbox := rest } = .next t ∧ AnsweredOnce { s with inbox := rest } t := by
    rcases runCommand_eq op arg with ⟨-, hload⟩ | ⟨f, hf, hrun⟩
    · exact ⟨_, hload _, loadCommand_answeredOnce arg _⟩
    · exact ⟨_, hrun _, hf.answeredOnce _⟩
  exact ⟨t, es, r, (step_of_inbox hb hi).trans hrun, hbusy, hinbox, hd⟩

end Sys2Proof.Machine
end

section
/-! LOAD in every case (R91): a failure is the latch and a response, a success replaces the buffer by the host's bytes. -/

namespace Sys2Proof.Machine

/-- Settles O17: the three clauses are the three cases of `loadCommand`, and `copyBytes_read` says what the new buffer holds. -/
theorem loadOutcome : Obligations.LoadOutcome := by
  intro s arg hwf
  have hexec : exec (.load arg) s = .next (loadCommand arg s) := rfl
  rw [hexec]
  refine ⟨fun hf => ?faulted, fun hf hlt => ?tooLong, fun hf hle => ?loads⟩
  case faulted =>
    rw [loadCommand, accept_faulted _ hf]
  case tooLong =>
    rw [loadCommand_tooLong hf hlt, ← rejectCommand_ok hf, State.rejectCommand, accept_ok _ hf]
  case loads =>
    refine ⟨copyBytes arg.toNat s.hostMem s.buf, copyBytes_wf _ _ hwf, ?_, fun i hi => ?_, fun i hi => ?_⟩
    · rw [loadCommand_loads hf hle]
    · rw [copyBytes_read _ _ hwf, if_pos hi]
    · rw [copyBytes_read _ _ hwf, if_neg (Nat.not_lt.mpr hi)]

end Sys2Proof.Machine
end

section
/-! Numbers as bit strings, continued (R12, R13): single bits, two numbers side by side, and strings of equal pieces. -/

namespace Sys2Proof

theorem bitsOfNat_getD {w k : Nat} (n : Nat) (h : k < w) : (bitsOfNat w n).getD k false = n.testBit (w - 1 - k) := by
  induction w generalizing k with
  | zero => omega
  | succ w ih =>
    cases k with
    | zero => simp [bitsOfNat]
    | succ k =>
      rw [bitsOfNat, List.getD_cons_succ, ih (by omega)]
      congr 1
      omega

theorem bitsOfNat_two_pow_mul_add (w : Nat) {v a b : Nat} (h : b < 2 ^ v) :
    bitsOfNat (w + v) (2 ^ v * a + b) = bitsOfNat w a ++ bitsOfNat v b := by
  induction w with
  | zero =>
    have hmod : (2 ^ v * a + b) % 2 ^ v = b := by rw [Nat.mul_add_mod, Nat.mod_eq_of_lt h]
    rw [Nat.zero_add, ← bitsOfNat_mod v _ v (Nat.le_refl v), hmod]
    rfl
  | succ w ih =>
    have hbit : (2 ^ v * a + b).testBit (w + v) = a.testBit w := by
      rw [Nat.testBit_two_pow_mul_add a h, if_neg (by omega), Nat.add_sub_cancel]
    rw [Nat.add_right_comm, bitsOfNat, hbit, ih]
    rfl

theorem streamBits_length (bytes : List Byte) : (streamBits bytes).length = 8 * bytes.length := by
  simp [streamBits, List.length_flatMap, Nat.mul_comm]

/-- Where every piece has `n` elements, element `n * d + k` of the whole is element `k` of piece `d`. -/
theorem flatMap_getD {α β : Type} {f : α → List β} {n : Nat} (hf : ∀ a, (f a).length = n) (y : β) (x : α) (xs : List α)
    {d k : Nat} (hd : d < xs.length) (hk : k < n) : (xs.flatMap f).getD (n * d + k) y = (f (xs.getD d x)).getD k y := by
  induction xs generalizing d with
  | nil => exact absurd hd (Nat.not_lt_zero d)
  | cons a xs ih =>
    rw [List.flatMap_cons]
    cases d with
    | zero => rw [List.getD_append _ _ _ _ (by rw [hf]; omega), Nat.mul_zero, Nat.zero_add, List.getD_cons_zero]
    | succ d =>
      have hidx : n * (d + 1) + k - n = n * d + k := by rw [Nat.mul_succ]; omega
      rw [List.getD_append_right _ _ _ _ (by rw [hf, Nat.mul_succ]; omega), hf, hidx, List.getD_cons_succ]
      exact ih (Nat.lt_of_succ_lt_succ hd)

end Sys2Proof
end

section
/-! HexDecoder (R94 to R97): a text of pairs of digits is accepted, and the stream bits of its bytes are the four bits of each
digit in order. -/

namespace Sys2Proof.Machine

theorem hexDigit_lt {c : Char} {x : Nat} (h : hexDigit c = some x) : x < 16 := by
  have hle (a b : Char) : a ≤ b ↔ a.toNat ≤ b.toNat := Iff.rfl
  simp only [hexDigit, hle, Char.reduceToNat] at h
  split_ifs at h
  all_goals
    cases h
    omega

/-- A pair of digits is one byte, before the bytes of the rest (R95). -/
theorem hexDecode_pair_eq_ok {c d : Char} {rest : List Char} {bytes : List Byte} :
    hexDecode (c :: d :: rest) = .ok bytes ↔ ∃ x y bs, hexDigit c = some x ∧ hexDigit d = some y ∧
      hexDecode rest = .ok bs ∧ bytes = BitVec.ofNat 8 (16 * x + y) :: bs := by
  constructor
  · intro h
    rw [hexDecode] at h
    split at h
    next x y bs hc hd hr =>
      cases h
      exact ⟨x, y, bs, hc, hd, hr, rfl⟩
    next => cases h
  · rintro ⟨x, y, bs, hc, hd, hr, rfl⟩
    rw [hexDecode, hc, hd, hr]

theorem hexDecode_accepts_iff (cs : List Char) :
    (∃ bytes, hexDecode cs = .ok bytes) ↔ cs.length % 2 = 0 ∧ ∀ c ∈ cs, (hexDigit c).isSome = true := by
  induction cs using List.twoStepInduction with
  | nil => simp [hexDecode]
  | singleton c => simp [hexDecode]
  | cons_cons c d rest ih =>
    have hpair : (∃ bytes, hexDecode (c :: d :: rest) = .ok bytes) ↔
        (hexDigit c).isSome = true ∧ (hexDigit d).isSome = true ∧ ∃ bytes, hexDecode rest = .ok bytes := by
      simp only [hexDecode_pair_eq_ok, Option.isSome_iff_exists]
      constructor
      · rintro ⟨_, x, y, bs, hc, hd, hr, -⟩
        exact ⟨⟨x, hc⟩, ⟨y, hd⟩, bs, hr⟩
      · rintro ⟨⟨x, hc⟩, ⟨y, hd⟩, bs, hr⟩
        exact ⟨_, x, y, bs, hc, hd, hr, rfl⟩
    have hlen : (c :: d :: rest).length % 2 = rest.length % 2 := Nat.add_mod_right _ 2
    rw [hpair, ih, hlen, List.forall_mem_cons, List.forall_mem_cons]
    tauto

/-- The four bits of a digit, most significant first; those of 0 where the character is no digit. -/
def digitBits (c : Char) : List Bool := bitsOfNat 4 ((hexDigit c).getD 0)

@[simp] theorem digitBits_length (c : Char) : (digitBits c).length = 4 := bitsOfNat_length 4 _

theorem digitBits_of_hexDigit {c : Char} {x : Nat} (h : hexDigit c = some x) : digitBits c = bitsOfNat 4 x := by
  rw [digitBits, h, Option.getD_some]

theorem fieldBits_digitPair (x : Nat) {y : Nat} (hy : y < 16) :
    fieldBits (BitVec.ofNat 8 (16 * x + y)) = bitsOfNat 4 x ++ bitsOfNat 4 y := by
  rw [fieldBits, BitVec.toNat_ofNat, bitsOfNat_mod 8 _ 8 (Nat.le_refl 8)]
  exact bitsOfNat_two_pow_mul_add 4 (v := 4) hy

theorem streamBits_of_hexDecode {cs : List Char} {bytes : List Byte} (h : hexDecode cs = .ok bytes) :
    streamBits bytes = cs.flatMap digitBits := by
  induction cs using List.twoStepInduction generalizing bytes with
  | nil => cases h; rfl
  | singleton c => cases h
  | cons_cons c d rest ih =>
    obtain ⟨x, y, bs, hc, hd, hr, rfl⟩ := hexDecode_pair_eq_ok.mp h
    have ih : bs.flatMap fieldBits = rest.flatMap digitBits := ih hr
    rw [streamBits, List.flatMap_cons, fieldBits_digitPair x (hexDigit_lt hd), ih, List.flatMap_cons, List.flatMap_cons,
      digitBits_of_hexDigit hc, digitBits_of_hexDigit hd, List.append_assoc]

/-- Settles O53: `hexDecode_accepts_iff`, and the length and the bits both from `streamBits_of_hexDecode`. -/
theorem hexDecoderAcceptsHexPairs : Obligations.HexDecoderAcceptsHexPairs := by
  intro cs
  refine ⟨hexDecode_accepts_iff cs, fun bytes h => ?_⟩
  have hbits := streamBits_of_hexDecode h
  obtain ⟨-, hdigits⟩ := (hexDecode_accepts_iff cs).mp ⟨bytes, h⟩
  refine ⟨?length, fun d hd k hk => ?bit⟩
  case length =>
    have hlen : 8 * bytes.length = 4 * cs.length := by
      rw [← streamBits_length, hbits]
      simp [List.length_flatMap, Nat.mul_comm]
    omega
  case bit =>
    have hmem : cs.getD d '0' ∈ cs := List.getD_eq_getElem cs '0' hd ▸ List.getElem_mem hd
    obtain ⟨x, hx⟩ := Option.isSome_iff_exists.mp (hdigits _ hmem)
    refine ⟨x, hx, ?_⟩
    rw [hbits, flatMap_getD digitBits_length false '0' cs hd hk, digitBits_of_hexDigit hx]
    exact bitsOfNat_getD x hk

end Sys2Proof.Machine
end

section
/-! CONSUME8 and CONSUME16 in every case (R102 to R104, R106, R107), and from it what the two widths share (R109). -/

namespace Sys2Proof.Machine

/-! ### How a read command ends, for every width -/

theorem exec_consume8 (n : Count5) (s : State) : exec (.consume8 n) s = .next (consumeCommand 8 n.toNat s) := rfl

theorem exec_consume16 (n : Count5) (s : State) : exec (.consume16 n) s = .next (consumeCommand 16 n.toNat s) := rfl

theorem consumeCommand_faulted {W count : Nat} {s : State} (hf : s.fault = true) :
    consumeCommand W count s = { s with
      busy := false, delivered := s.delivered ++ [.response (Response.failure .faulted)] } :=
  accept_faulted _ hf

/-- R100, R107: the cursor has not moved. -/
theorem consumeCommand_contract {W count : Nat} {s : State} (hf : s.fault = false) (h : W < count) :
    consumeCommand W count s = { s with
      fault := true, busy := false, delivered := s.delivered ++ [.response (Response.failure .contract)] } := by
  rw [consumeCommand_ok hf, consume_contract _ h]
  simp [State.fail, State.latch, State.respond, Cause.sticky]

/-- R104(c), from a cursor that may stand past the end of the buffer. -/
theorem consumeCommand_exhausted {W count : Nat} {s : State} (hf : s.fault = false) (h : count ≤ W) (hc : 0 < count)
    (ho : s.endOfBuffer < s.bitOffset + count) :
    consumeCommand W count s = { s with
      bitOffset := max s.bitOffset s.endOfBuffer, busy := false
      delivered := s.delivered ++ [.response (Response.failure .exhausted)] } := by
  rw [consumeCommand_ok hf, consume_exhausted { s with busy := true } h hc ho]
  simp [State.fail, State.latch, State.respond, Cause.sticky]

/-- R104(c), from a cursor within the buffer. -/
theorem consumeCommand_exhausted_of_le {W count : Nat} {s : State} (hf : s.fault = false) (h : count ≤ W)
    (hin : s.bitOffset ≤ s.endOfBuffer) (ho : s.endOfBuffer < s.bitOffset + count) :
    consumeCommand W count s = { s with
      bitOffset := s.endOfBuffer, busy := false
      delivered := s.delivered ++ [.response (Response.failure .exhausted)] } := by
  rw [consumeCommand_exhausted hf h (by omega) ho, Nat.max_eq_right hin]

/-! ### The commands -/

/-- Settles O19: one lemma per clause, at width 8. -/
theorem consumeEightOutcome : Obligations.ConsumeEightOutcome := by
  intro s n hin
  rw [exec_consume8]
  exact ⟨fun hf => congrArg _ (consumeCommand_faulted hf), fun hf h => congrArg _ (consumeCommand_contract hf h),
    fun hf h ho => congrArg _ (consumeCommand_exhausted_of_le hf h hin ho),
    fun hf h ho => congrArg _ (consumeCommand_returns hf h (.inr ho))⟩

/-- Settles O20: one lemma per clause, at width 16. -/
theorem consumeSixteenOutcome : Obligations.ConsumeSixteenOutcome := by
  intro s n hin
  rw [exec_consume16]
  exact ⟨fun hf => congrArg _ (consumeCommand_faulted hf), fun hf h => congrArg _ (consumeCommand_contract hf h),
    fun hf h ho => congrArg _ (consumeCommand_exhausted_of_le hf h hin ho),
    fun hf h ho => congrArg _ (consumeCommand_returns hf h (.inr ho))⟩

/-- Settles O21: zero bits are there wherever the cursor is, and their field is 0. -/
theorem consumeZeroAlwaysSucceeds : Obligations.ConsumeZeroAlwaysSucceeds := by
  intro s hf
  have reads (W : Nat) := congrArg (Host.Outcome.next (φ := Fault) (ρ := Refusal))
    (consumeCommand_returns (W := W) hf (Nat.zero_le W) (.inl rfl))
  exact ⟨reads 8, reads 16⟩

/-! ### The two widths (R109) -/

/-- A field that fits in a narrow word is the same number in every word (R108). -/
theorem State.setWidth_ofNat_field (s : State) (o : Nat) {V c : Nat} (h : c ≤ V) (W : Nat) :
    (BitVec.ofNat V (s.field o c)).setWidth W = BitVec.ofNat W (s.field o c) :=
  BitVec.eq_of_toNat_eq (by rw [BitVec.toNat_setWidth, s.toNat_ofNat_field o h, BitVec.toNat_ofNat])

/-- Two widths that hold the count read the same number, or fail alike. -/
theorem consume_widths {V W count : Nat} (s : State) (hV : count ≤ V) (hW : count ≤ W) :
    (∃ v t, consume V count s = .ok v t ∧ consume W count s = .ok (v.setWidth W) t) ∨
      ∃ e t, consume V count s = .raise e t ∧ consume W count s = .raise e t := by
  rcases consume_cases s hV with ⟨ho, hread⟩ | ⟨⟨hc, ho⟩, hread⟩
  · exact .inl ⟨_, _, hread, by rw [consume_ok s hW ho, s.setWidth_ofNat_field s.bitOffset hV W]⟩
  · exact .inr ⟨_, _, hread, consume_exhausted s hW hc ho⟩

/-- How the command ends does not name the width, once the width holds the count. -/
theorem consumeCommand_widths {V W count : Nat} {s : State} (hf : s.fault = false) (hV : count ≤ V) (hW : count ≤ W) :
    consumeCommand V count s = consumeCommand W count s := by
  by_cases ho : count = 0 ∨ s.bitOffset + count ≤ s.endOfBuffer
  · rw [consumeCommand_returns hf hV ho, consumeCommand_returns hf hW ho]
  · rw [consumeCommand_exhausted hf hV (by omega) (by omega), consumeCommand_exhausted hf hW (by omega) (by omega)]

/-- A read command sets the latch for a count above its width, and for nothing else (R102, R103). -/
theorem consumeCommand_fault_iff {W count : Nat} {s : State} (hf : s.fault = false) :
    (consumeCommand W count s).fault = true ↔ W < count := by
  by_cases hw : W < count
  · simp [consumeCommand_contract hf hw, hw]
  · have hle : count ≤ W := Nat.le_of_not_lt hw
    by_cases ho : count = 0 ∨ s.bitOffset + count ≤ s.endOfBuffer
    · simp [consumeCommand_returns hf hle ho, hf, hw]
    · simp [consumeCommand_exhausted hf hle (by omega) (by omega), hf, hw]

/-- Settles O22: the reads by `consume_widths`; the commands agree where both widths hold the count or neither does, and the
latch tells them apart between. -/
theorem consumeWidthsAgree : Obligations.ConsumeWidthsAgree := by
  refine ⟨fun s t c hc => ?reads, fun s n hf => ?commands⟩
  case reads =>
    simp only [consume8, consume16]
    rcases consume_widths (V := 8) (W := 16) s hc (by omega) with ⟨v, u, h8, h16⟩ | ⟨e, u, h8, h16⟩ <;> rw [h8, h16]
    · exact ⟨fun w h => by cases h; rfl, fun e h => (nomatch h)⟩
    · exact ⟨fun w h => (nomatch h), fun e h => by cases h; rfl⟩
  case commands =>
    rw [exec_consume8, exec_consume16, Host.Outcome.next.injEq]
    constructor
    · intro h
      have hlatch : 8 < n.toNat ↔ 16 < n.toNat := by
        rw [← consumeCommand_fault_iff (W := 8) hf, ← consumeCommand_fault_iff (W := 16) hf, h]
      omega
    · rintro (h | h)
      · exact consumeCommand_widths hf h (by omega)
      · rw [consumeCommand_contract hf (by omega), consumeCommand_contract hf h]

end Sys2Proof.Machine
end

section
/-! The varint decoder and VARINT in every case (R121 to R128): the guard and the fold, the groups counted, and the group that
decides. -/

namespace Sys2Proof.Machine

/-! ### The guard (R126) -/

/-- The shift by four and back keeps the low 60 bits. -/
theorem shift_back_ne_iff (a : Word64) : (a <<< 4) >>> 4 ≠ a ↔ 2 ^ 60 ≤ a.toNat := by
  have hlow : ((a <<< 4) >>> 4).toNat = a.toNat % 2 ^ 60 := by
    simp only [BitVec.toNat_ushiftRight, BitVec.toNat_shiftLeft, Nat.shiftLeft_eq, Nat.shiftRight_eq_div_pow]
    omega
  rw [ne_eq, ← BitVec.toNat_inj, hlow]
  omega

/-- Settles O27: the two tests by `varintGuardFails_iff` and `shift_back_ne_iff`, the fold by `shiftIn_payload`. -/
theorem varintGuardIsExact : Obligations.VarintGuardIsExact := by
  refine fun a p => ⟨varintGuardFails_iff a, shift_back_ne_iff a, fun hpass => ?_⟩
  have hlt : a.toNat < 2 ^ 60 := by
    rw [← Nat.not_le, ← varintGuardFails_iff, hpass]
    decide
  rw [shiftIn_payload p hlt, BitVec.toNat_ofNat, Nat.mod_eq_of_lt (by omega)]

/-! ### The groups counted (R125) -/

/-- A loop that returns has counted at least one group more, and has read five bits for each. -/
theorem varintLoop_counts {rounds k : Nat} {s t : State} {v : Word64} (h : varintLoop rounds s = .ok (v, k) t) :
    t.acc = v ∧ t.groups = k ∧ s.groups < k ∧ t.bitOffset + 5 * s.groups = s.bitOffset + 5 * k := by
  induction rounds generalizing s with
  | zero => cases h
  | succ rounds ih =>
    have hgroups : s.afterGroup.groups = s.groups + 1 := rfl
    have hoffset : s.afterGroup.bitOffset = s.bitOffset + 5 := rfl
    rw [varintLoop_succ] at h
    split_ifs at h
    case pos =>
      obtain ⟨hacc, hcount, hmore, hbits⟩ := ih h
      exact ⟨hacc, hcount, by omega, by omega⟩
    case neg =>
      cases h
      exact ⟨rfl, rfl, by omega, by omega⟩

/-- Settles O28: `varint` is the loop from no group counted. -/
theorem groupCountIsBitsTaken : Obligations.GroupCountIsBitsTaken := by
  intro s t v k h
  obtain ⟨hacc, hcount, hmore, hbits⟩ := varintLoop_counts h
  exact ⟨hbits, hmore, hcount, hacc⟩

/-! ### The number that the payloads of the stream make (R71) -/

theorem State.payloadAt_lt (s : State) (i : Nat) : s.payloadAt i < 16 := Nat.mod_lt _ (by decide)

/-- Groups depend on the buffer and the cursor alone. -/
theorem State.groupAt_congr {s t : State} (hbuf : t.buf = s.buf) (hoff : t.bitOffset = s.bitOffset) (i : Nat) :
    t.groupAt i = s.groupAt i := by
  rw [State.groupAt, State.groupAt, hoff, State.field_congr hbuf]

theorem State.payloadValue_congr {s t : State} (hbuf : t.buf = s.buf) (hoff : t.bitOffset = s.bitOffset) (k : Nat) :
    t.payloadValue k = s.payloadValue k := by
  induction k with
  | zero => rfl
  | succ k ih => simp only [State.payloadValue, State.payloadAt, ih, State.groupAt_congr hbuf hoff]

/-- Leading zero groups make zero. -/
theorem State.payloadValue_eq_zero {s : State} {k : Nat} (h : ∀ i < k, s.payloadAt i = 0) : s.payloadValue k = 0 := by
  induction k with
  | zero => rfl
  | succ k ih =>
    rw [State.payloadValue, ih fun i hi => h i (Nat.lt_succ_of_lt hi), h k (Nat.lt_succ_self k)]

/-- A number that is not zero has a first payload that is not zero. -/
theorem State.exists_leadingGroup {s : State} {i : Nat} (h : s.payloadValue i ≠ 0) :
    ∃ j < i, s.payloadAt j ≠ 0 ∧ ∀ i' < j, s.payloadAt i' = 0 := by
  have hsome : ∃ j, j < i ∧ s.payloadAt j ≠ 0 := by
    by_contra hnone
    push Not at hnone
    exact h (State.payloadValue_eq_zero hnone)
  obtain ⟨hlt, hj⟩ := Nat.find_spec hsome
  refine ⟨Nat.find hsome, hlt, hj, fun i' hi' => ?_⟩
  by_contra hne
  exact Nat.find_min hsome hi' ⟨by omega, hne⟩

/-- From the first payload that is not zero on, each group makes the number one hexadecimal digit longer. -/
theorem State.payloadValue_digits {s : State} {j : Nat} (hj : s.payloadAt j ≠ 0) (hzero : ∀ i < j, s.payloadAt i = 0)
    (n : Nat) : 16 ^ n ≤ s.payloadValue (j + n + 1) ∧ s.payloadValue (j + n + 1) < 16 ^ (n + 1) := by
  induction n with
  | zero =>
    have hlt := s.payloadAt_lt j
    rw [Nat.add_zero, State.payloadValue, State.payloadValue_eq_zero hzero]
    omega
  | succ n ih =>
    have hlt := s.payloadAt_lt (j + n + 1)
    rw [← Nat.add_assoc j n 1, State.payloadValue]
    omega

/-- Seventeen groups from the first payload that is not zero are where the guard fails: before group `i` the payloads make a
number of more than 60 bits (R126, R127). -/
theorem State.groupOverflows_iff (s : State) (i : Nat) : s.groupOverflows i ↔ 2 ^ 60 ≤ s.payloadValue i := by
  have hbase : (2 : Nat) ^ 60 = 16 ^ 15 := by decide
  rw [hbase]
  constructor
  · rintro ⟨j, hj, hzero, hi⟩
    obtain ⟨n, rfl⟩ : ∃ n, i = j + n + 1 := ⟨i - j - 1, by omega⟩
    calc 16 ^ 15 ≤ 16 ^ n := Nat.pow_le_pow_right (by decide) (by omega)
      _ ≤ s.payloadValue (j + n + 1) := (State.payloadValue_digits hj hzero n).1
  · intro hvalue
    obtain ⟨j, hlt, hj, hzero⟩ := State.exists_leadingGroup (s := s) (i := i) (by omega)
    obtain ⟨n, rfl⟩ : ∃ n, i = j + n + 1 := ⟨i - j - 1, by omega⟩
    have hpow : 16 ^ 15 < 16 ^ (n + 1) := Nat.lt_of_le_of_lt hvalue (State.payloadValue_digits hj hzero n).2
    have hmany : 15 < n + 1 := (Nat.pow_lt_pow_iff_right (by decide)).mp hpow
    exact ⟨j, hj, hzero, by omega⟩

/-! ### The loop of `varint` at the group that decides (R128) -/

/-- The state of `varint` that has read and folded the first `i` groups. -/
def State.afterGroups (s : State) (i : Nat) : State :=
  { s with bitOffset := s.bitOffset + 5 * i, acc := BitVec.ofNat 64 (s.payloadValue i), groups := i }

theorem State.afterGroups_acc_toNat {s : State} {i : Nat} (h : s.payloadValue i < 2 ^ 64) :
    (s.afterGroups i).acc.toNat = s.payloadValue i := Nat.mod_eq_of_lt h

theorem State.payloadValue_succ_lt {s : State} {i : Nat} (h : ¬ s.groupOverflows i) : s.payloadValue (i + 1) < 2 ^ 64 := by
  have hlt := s.payloadAt_lt i
  rw [State.groupOverflows_iff] at h
  rw [State.payloadValue]
  omega

/-- One group more (R122). -/
theorem State.afterGroups_afterGroup {s : State} {i : Nat} (h : ¬ s.groupOverflows i) :
    (s.afterGroups i).afterGroup = s.afterGroups (i + 1) := by
  rw [State.groupOverflows_iff] at h
  have hacc := State.afterGroups_acc_toNat (s := s) (i := i) (by omega)
  have hfield : (s.afterGroups i).field (s.bitOffset + 5 * i) 5 = s.groupAt i := State.field_congr rfl _ _
  have hfold : ((s.afterGroups i).acc <<< 4) ||| (BitVec.ofNat 4 (s.groupAt i)).setWidth 64 =
      BitVec.ofNat 64 (s.payloadValue (i + 1)) := by
    rw [shiftIn_payload _ (by omega), hacc, BitVec.toNat_ofNat]
    rfl
  rw [← hfield] at hfold
  simp only [State.afterGroup, State.afterGroups] at hfold ⊢
  rw [hfold, Nat.mul_succ, Nat.add_assoc]

/-- Up to the group that decides, the number fits in the accumulator (R127). -/
theorem State.payloadValue_lt_of_goesOn {s : State} {i : Nat} (h : ∀ i' < i, s.groupGoesOn i') : s.payloadValue i < 2 ^ 64 := by
  cases i with
  | zero => exact Nat.two_pow_pos 64
  | succ i =>
    obtain ⟨-, hfits, -⟩ := h i (Nat.lt_succ_self i)
    exact State.payloadValue_succ_lt hfits

theorem State.afterGroups_room {s : State} {i : Nat} :
    (s.afterGroups i).bitOffset + 5 ≤ 8 * (s.afterGroups i).len ↔ ¬ s.groupRunsOut i := by
  rw [State.groupRunsOut, Nat.not_lt, Nat.mul_succ, ← Nat.add_assoc]
  rfl

theorem State.afterGroups_guard {s : State} {i : Nat} (h : s.payloadValue i < 2 ^ 64) :
    varintGuardFails (s.afterGroups i).acc = true ↔ s.groupOverflows i := by
  rw [varintGuardFails_iff, State.afterGroups_acc_toNat h, State.groupOverflows_iff]

theorem State.afterGroups_flag {s : State} {i : Nat} :
    ((s.afterGroups i).field (s.afterGroups i).bitOffset 5).testBit 4 = true ↔ ¬ s.groupEnds i := by
  have hfield : (s.afterGroups i).field (s.afterGroups i).bitOffset 5 = s.groupAt i := State.field_congr rfl _ _
  have hlt : s.groupAt i < 2 ^ 5 := s.field_lt _ _
  rw [hfield, Nat.testBit_eq_decide_div_mod_eq, decide_eq_true_eq, State.groupEnds]
  omega

/-- While nothing ends the varint, the loop goes from group to group. -/
theorem varint_eq_loop {s : State} {i : Nat} (h : ∀ i' < i, s.groupGoesOn i') :
    varint s = varintLoop (s.remaining - i + 1) (s.afterGroups i) := by
  induction i with
  | zero => rfl
  | succ i ih =>
    have hbefore : ∀ i' < i, s.groupGoesOn i' := fun i' hi' => h i' (Nat.lt_succ_of_lt hi')
    obtain ⟨hroom, hfits, hflag⟩ := h i (Nat.lt_succ_self i)
    have hguard := (State.afterGroups_guard (State.payloadValue_lt_of_goesOn hbefore)).not.mpr hfits
    have hrounds : s.remaining - i = s.remaining - (i + 1) + 1 := by
      simp only [State.groupRunsOut, State.endOfBuffer, State.remaining] at *
      omega
    rw [ih hbefore, varintLoop_succ, if_pos (State.afterGroups_room.mpr hroom), if_neg hguard,
      if_pos (State.afterGroups_flag.mpr hflag), State.afterGroups_afterGroup hfits, hrounds]

/-- R128 (1). -/
theorem varint_runsOut {s : State} {i : Nat} (hin : s.bitOffset ≤ s.endOfBuffer) (h : ∀ i' < i, s.groupGoesOn i')
    (hout : s.groupRunsOut i) :
    varint s = .raise .exhausted { s.afterGroups i with bitOffset := s.endOfBuffer } := by
  have hcursor : s.bitOffset + 5 * i ≤ s.endOfBuffer := by
    cases i with
    | zero => exact hin
    | succ i =>
      obtain ⟨hroom, -⟩ := h i (Nat.lt_succ_self i)
      exact Nat.not_lt.mp hroom
  rw [varint_eq_loop h, varintLoop_succ, if_neg (State.afterGroups_room.not.mpr (not_not.mpr hout))]
  exact congrArg (fun o => Micro.raise .exhausted { s.afterGroups i with bitOffset := o }) (Nat.max_eq_right hcursor)

/-- R128 (2). -/
theorem varint_overflows {s : State} {i : Nat} (h : ∀ i' < i, s.groupGoesOn i') (hroom : ¬ s.groupRunsOut i)
    (hover : s.groupOverflows i) :
    varint s = .raise .varintOverflow { s.afterGroups i with bitOffset := s.bitOffset + 5 * (i + 1) } := by
  have hguard := (State.afterGroups_guard (State.payloadValue_lt_of_goesOn h)).mpr hover
  rw [varint_eq_loop h, varintLoop_succ, if_pos (State.afterGroups_room.mpr hroom), if_pos hguard]
  rfl

/-- R128 (3). -/
theorem varint_ends {s : State} {i : Nat} (h : ∀ i' < i, s.groupGoesOn i') (hroom : ¬ s.groupRunsOut i)
    (hfits : ¬ s.groupOverflows i) (hend : s.groupEnds i) :
    varint s = .ok (BitVec.ofNat 64 (s.payloadValue (i + 1)), i + 1) (s.afterGroups (i + 1)) := by
  have hguard := (State.afterGroups_guard (State.payloadValue_lt_of_goesOn h)).not.mpr hfits
  have hflag := State.afterGroups_flag.not.mpr (not_not.mpr hend)
  rw [varint_eq_loop h, varintLoop_succ, if_pos (State.afterGroups_room.mpr hroom), if_neg hguard, if_neg hflag,
    State.afterGroups_afterGroup hfits]
  rfl

/-- One of the three applies, at the latest where the buffer ends (R128). -/
theorem State.exists_decidingGroup (s : State) :
    ∃ i, i ≤ (s.endOfBuffer - s.bitOffset) / 5 ∧ (∀ i' < i, s.groupGoesOn i') ∧ ¬ s.groupGoesOn i := by
  classical
  have hlast : ¬ s.groupGoesOn ((s.endOfBuffer - s.bitOffset) / 5) := by
    rintro ⟨hroom, -⟩
    rw [State.groupRunsOut] at hroom
    omega
  have hsome : ∃ i, ¬ s.groupGoesOn i := ⟨_, hlast⟩
  exact ⟨Nat.find hsome, Nat.find_min' hsome hlast, fun i' hi' => not_not.mp (Nat.find_min hsome hi'), Nat.find_spec hsome⟩

/-! ### VARINT (R120) -/

theorem exec_varint (s : State) : exec .varint s = .next (varintCommand s) := rfl

theorem exec_varint_returns {s t : State} {v : Word64} {k : Nat} (hf : s.fault = false)
    (h : varint { s with busy := true } = .ok (v, k) t) :
    exec .varint s = .next (t.respond (Response.success v (BitVec.ofNat 32 k) 0 0)) := by
  rw [exec_varint, varintCommand, accept_ok _ hf, h]

theorem exec_varint_raises {s t : State} {c : Cause} (hf : s.fault = false) (hc : c.sticky = false)
    (h : varint { s with busy := true } = .raise c t) : exec .varint s = .next (t.respond (Response.failure c)) := by
  rw [exec_varint, varintCommand, accept_ok _ hf, h]
  simp [State.fail, State.latch, hc]

/-- Settles O29: `varint` at the group that decides, run with `BUSY` 1, which no group depends on. -/
theorem varintClosedForm : Obligations.VarintClosedForm := by
  intro s hf hin
  refine ⟨s.exists_decidingGroup, fun i h => ?_⟩
  have hbusy : ∀ i' < i, State.groupGoesOn { s with busy := true } i' := h
  refine ⟨fun hout => ?_, fun hroom hover => ?_, fun hroom hfits hend => ?_⟩
  · exact ⟨_, _, exec_varint_raises hf rfl (varint_runsOut hin hbusy hout)⟩
  · exact ⟨_, _, exec_varint_raises hf rfl (varint_overflows hbusy hroom hover)⟩
  · have hvalue : State.payloadValue { s with busy := true } (i + 1) = s.payloadValue (i + 1) :=
      State.payloadValue_congr (s := s) (t := { s with busy := true }) rfl rfl _
    have hreads := varint_ends hbusy hroom hfits hend
    rw [hvalue] at hreads
    exact ⟨State.payloadValue_succ_lt hfits, _, exec_varint_returns hf hreads⟩

end Sys2Proof.Machine
end

section
/-! The recursive algorithm of spec/43_packet_engine.md section 1 in the terms of the engine's frames: an operator's children
are what its frame asks for, in either length mode, and the type-id check never fires (R142, R148). -/

namespace Sys2Proof.Machine

/-! ### Frames -/

/-- The frame that a push at cursor `o` opens (R150, R152). -/
def Frame.opened (mode : LengthMode) (length : BitVec 15) (o : Nat) : Frame :=
  { mode, limit := match mode with | .totalBits => o + length.toNat | .packetCount => length.toNat, nchild := 0 }

/-- The operator of the frame has another child at cursor `o` (R152, `PG_NEXT`). -/
def Frame.WantsChild (f : Frame) (o : Nat) : Prop :=
  match f.mode with
  | .totalBits => o < f.limit
  | .packetCount => 0 < f.limit

/-- The frame once the next child has been started (R152, `PG_NEXT`). -/
def Frame.childStarted (f : Frame) : Frame :=
  match f.mode with
  | .totalBits => f
  | .packetCount => { f with limit := f.limit - 1 }

/-- The frame once a child has been completed (R152, `PG_DONE`). -/
def Frame.childEnded (f : Frame) : Frame := { f with nchild := f.nchild + 1 }

@[simp] theorem Frame.childStarted_nchild (f : Frame) : f.childStarted.nchild = f.nchild := by
  unfold Frame.childStarted
  split <;> rfl

/-! ### The algorithm, one round at a time -/

/-- The children of an operator, as its frame asks for them (R146, R147). -/
def childrenRec (limit : Option Nat) (rounds opened : Nat) (f : Frame) (s : State) : Micro (List Packet) :=
  match f.mode with
  | .totalBits => childrenUntil limit rounds opened f.limit s
  | .packetCount => childrenCount limit rounds opened f.limit s

/-- An operator whose header has been read: its frame, then its children (R142). -/
def operatorRec (limit : Option Nat) (rounds opened : Nat) (ver tid : BitVec 3) (mode : LengthMode) (length : BitVec 15)
    (s : State) : Micro Packet :=
  if limit = some opened then .raise .stackOverflow s
  else (childrenRec limit rounds (opened + 1) (.opened mode length s.bitOffset) s).bind fun kids s =>
    .ok (.operator ver tid mode length kids) s

theorem childrenRec_childEnded (limit : Option Nat) (rounds opened : Nat) (f : Frame) (s : State) :
    childrenRec limit rounds opened f.childEnded s = childrenRec limit rounds opened f s := rfl

theorem packetRec_zero (limit : Option Nat) (opened : Nat) (s : State) :
    packetRec limit 0 opened s = .raise .exhausted s := by
  rw [packetRec]

theorem childrenRec_zero (limit : Option Nat) (opened : Nat) (f : Frame) (s : State) :
    childrenRec limit 0 opened f s = .raise .exhausted s := by
  unfold childrenRec
  split
  · rw [childrenUntil]
  · rw [childrenCount]

theorem childrenRec_more {limit : Option Nat} {rounds opened : Nat} {f : Frame} {s : State} (h : f.WantsChild s.bitOffset) :
    childrenRec limit (rounds + 1) opened f s =
      (packetRec limit rounds opened s).bind fun p s =>
        (childrenRec limit rounds opened f.childStarted s).bind fun ps s => .ok (p :: ps) s := by
  obtain ⟨mode, bound, nchild⟩ := f
  cases mode with
  | totalBits =>
    simp only [childrenRec, childrenUntil]
    exact if_pos h
  | packetCount =>
    simp only [childrenRec, childrenCount]
    exact if_neg (Nat.ne_of_gt h)

theorem childrenRec_none {limit : Option Nat} {rounds opened : Nat} {f : Frame} {s : State} (h : ¬ f.WantsChild s.bitOffset) :
    childrenRec limit (rounds + 1) opened f s = .ok [] s := by
  obtain ⟨mode, bound, nchild⟩ := f
  cases mode with
  | totalBits =>
    simp only [childrenRec, childrenUntil]
    exact if_neg h
  | packetCount =>
    simp only [childrenRec, childrenCount]
    exact if_pos (Nat.eq_zero_of_not_pos h)

theorem operatorKind_ne_none {t : BitVec 3} (h : t ≠ 4) : operatorKind t ≠ none := by
  decide +revert

theorem Micro.bind_congr {α β : Type} {m : Micro α} {f g : α → State → Micro β}
    (h : ∀ a s, m = .ok a s → f a s = g a s) : m.bind f = m.bind g := by
  cases m with
  | ok a s => exact h a s rfl
  | raise c s => rfl

/-- A read that returns gives a number of as many bits as it has taken. -/
theorem consume_ok_lt {W count : Nat} {s t : State} {v : BitVec W} (h : consume W count s = .ok v t) : v.toNat < 2 ^ count := by
  obtain ⟨-, hv, -⟩ := consume_ok_inv h
  rw [hv]
  exact s.field_lt _ _

/-- One packet of the algorithm, the type-id check left out: it never fires (R142, R148). -/
theorem packetRec_succ (limit : Option Nat) (rounds opened : Nat) (s : State) :
    packetRec limit (rounds + 1) opened s =
      (consume 8 3 s).bind fun v s =>
        (consume 8 3 s).bind fun t s =>
          if t.setWidth 3 = (4 : BitVec 3) then
            (varint s).bind fun r s => .ok (.literal (v.setWidth 3) r.1 (BitVec.ofNat 32 r.2)) s
          else
            (consume 8 1 s).bind fun m s =>
              if m = 0 then
                (consume 16 15 s).bind fun l s =>
                  operatorRec limit rounds opened (v.setWidth 3) (t.setWidth 3) .totalBits (l.setWidth 15) s
              else
                (consume 16 11 s).bind fun c s =>
                  operatorRec limit rounds opened (v.setWidth 3) (t.setWidth 3) .packetCount (c.setWidth 15) s := by
  rw [packetRec]
  refine Micro.bind_congr fun v s₁ _ => Micro.bind_congr fun t s₂ _ => ?_
  dsimp only
  by_cases ht : t.setWidth 3 = (4 : BitVec 3)
  · rw [if_pos ht, if_pos ht]
  · rw [if_neg ht, if_neg ht]
    simp only [if_neg (operatorKind_ne_none ht)]
    refine Micro.bind_congr fun m s₃ _ => ?_
    by_cases hm : m = 0
    · rw [if_pos hm, if_pos hm]
      refine Micro.bind_congr fun l s₄ hl => ?_
      have hlt := consume_ok_lt hl
      have hval : (l.setWidth 15).toNat = l.toNat := by rw [BitVec.toNat_setWidth, Nat.mod_eq_of_lt hlt]
      simp only [operatorRec, childrenRec, Frame.opened, hval]
    · rw [if_neg hm, if_neg hm]
      refine Micro.bind_congr fun c s₄ hc => ?_
      have hlt := consume_ok_lt hc
      have hval : (c.setWidth 15).toNat = c.toNat := by rw [BitVec.toNat_setWidth, Nat.mod_eq_of_lt (by omega)]
      simp only [operatorRec, childrenRec, Frame.opened, hval]

end Sys2Proof.Machine
end

section
/-! The engine seen from outside: how its run goes on from a control state, given its frames and its events, over the bits
that a reader sees (R152, R153). -/

namespace Sys2Proof.Machine

/-! ### Reading the same bits -/

/-- `t` reads the bits that `u` reads: the same buffer, the cursor at the same bit; the parameters are the same too. -/
structure SameReader (u t : State) : Prop where
  cfg : t.cfg = u.cfg
  buf : t.buf = u.buf
  len : t.len = u.len
  bitOffset : t.bitOffset = u.bitOffset

theorem SameReader.refl (s : State) : SameReader s s := ⟨rfl, rfl, rfl, rfl⟩

theorem SameReader.ahead {u t : State} (h : SameReader u t) (n : Nat) :
    SameReader { u with bitOffset := u.bitOffset + n } { t with bitOffset := t.bitOffset + n } :=
  { h with bitOffset := congrArg (· + n) h.bitOffset }

/-- The run `e` does what `m` does: where `m` returns, `e` is a run that `R` describes; where `m` raises a cause, `e` raises
it with the same cursor. -/
def Tracks {α : Type} (R : α → State → Micro Unit → Prop) (m : Micro α) (e : Micro Unit) : Prop :=
  match m with
  | .ok a u => R a u e
  | .raise c u => ∃ t, e = .raise c t ∧ t.bitOffset = u.bitOffset

theorem Tracks.bind {α β : Type} {R : α → State → Micro Unit → Prop} {R' : β → State → Micro Unit → Prop} {m : Micro α}
    {e : Micro Unit} {f : α → State → Micro β} (h : Tracks R m e)
    (hf : ∀ a u e', m = .ok a u → R a u e' → Tracks R' (f a u) e') : Tracks R' (m.bind f) e := by
  cases m with
  | ok a u => exact hf a u e rfl h
  | raise c u => exact h

theorem Tracks.mono {α : Type} {R R' : α → State → Micro Unit → Prop} {m : Micro α} {e : Micro Unit} (h : Tracks R m e)
    (hR : ∀ a u e', R a u e' → R' a u e') : Tracks R' m e := by
  cases m with
  | ok a u => exact hR a u e h
  | raise c u => exact h

theorem SameReader.consume_tracks {u t : State} (h : SameReader u t) (W count : Nat) (hw : count ≤ W)
    (g : BitVec W → State → Micro Unit) :
    Tracks (fun v w e => w = { u with bitOffset := u.bitOffset + count } ∧ e = g v { t with bitOffset := t.bitOffset + count })
      (consume W count u) ((consume W count t).bind g) := by
  have hfield : t.field t.bitOffset count = u.field u.bitOffset count := by
    rw [h.bitOffset]
    exact State.field_congr h.buf _ _
  rcases consume_cases u hw with ⟨ho, hc⟩ | ⟨⟨hpos, ho⟩, hc⟩ <;> rw [hc]
  · rw [consume_ok t hw (by rw [h.bitOffset, h.len]; exact ho), hfield]
    exact ⟨rfl, rfl⟩
  · rw [consume_exhausted t hw hpos (by rw [h.bitOffset, h.len]; exact ho)]
    exact ⟨_, rfl, by simp only [h.bitOffset, h.len]⟩

theorem varintLoop_tracks (rounds : Nat) {u t : State} (h : SameReader u t) (hacc : t.acc = u.acc)
    (hgroups : t.groups = u.groups) (g : Word64 × Nat → State → Micro Unit) :
    Tracks (fun r w e => e = g r { t with bitOffset := w.bitOffset, acc := w.acc, groups := w.groups })
      (varintLoop rounds u) ((varintLoop rounds t).bind g) := by
  induction rounds generalizing u t with
  | zero => exact ⟨t, rfl, h.bitOffset⟩
  | succ rounds ih =>
    have hfield : t.field u.bitOffset 5 = u.field u.bitOffset 5 := State.field_congr h.buf _ _
    have hacc' : t.afterGroup.acc = u.afterGroup.acc := by simp only [State.afterGroup, hacc, h.bitOffset, hfield]
    have hgroups' : t.afterGroup.groups = u.afterGroup.groups := congrArg (· + 1) hgroups
    rw [varintLoop_succ, varintLoop_succ, h.bitOffset, h.len, hacc, hfield]
    split_ifs
    · exact ⟨_, rfl, rfl⟩
    · have hread : SameReader u.afterGroup t.afterGroup := ⟨h.cfg, h.buf, h.len, congrArg (· + 5) h.bitOffset⟩
      simpa only [State.afterGroup, h.len] using ih hread hacc' hgroups'
    · simp only [Tracks, Micro.bind_ok, ← hacc', ← hgroups']
      simp only [State.afterGroup, h.bitOffset, h.len]
    · exact ⟨_, rfl, rfl⟩

theorem SameReader.varint_tracks {u t : State} (h : SameReader u t) (g : Word64 × Nat → State → Micro Unit) :
    Tracks (fun r w e => Moved u w ∧ e = g r { t with bitOffset := w.bitOffset, acc := w.acc, groups := w.groups })
      (varint u) ((varint t).bind g) := by
  have hrounds : t.remaining = u.remaining := by rw [State.remaining, h.len, h.bitOffset]
  have hloop := varintLoop_tracks (u.remaining + 1) (u := { u with acc := 0, groups := 0 })
    (t := { t with acc := 0, groups := 0 }) ⟨h.cfg, h.buf, h.len, h.bitOffset⟩ rfl rfl g
  have hm := varint_moved u
  rw [varint, varint, hrounds]
  rw [varint] at hm
  cases hv : varintLoop (u.remaining + 1) { u with acc := 0, groups := 0 } with
  | ok r w => rw [hv] at hm hloop; exact ⟨hm, hloop⟩
  | raise c w => rw [hv] at hloop; exact hloop

theorem Micro.bind_assoc {α β γ : Type} (m : Micro α) (f : α → State → Micro β) (g : β → State → Micro γ) :
    (m.bind f).bind g = m.bind fun a s => (f a s).bind g := by
  cases m <;> rfl

/-! ### The engine at a control state -/

/-- The engine is at control state `pg` with frames `stk`, has emitted `prov`, and reads what `u` reads. -/
structure EngineAt (u : State) (pg : PgState) (stk : List Frame) (prov : List Event) (t : State) : Prop
    extends SameReader u t where
  pgState : t.pgState = pg
  stk : t.stk = stk
  provisional : t.provisional = prov

/-- The run `e` of the engine goes on from such a state. -/
def Reaches (u : State) (pg : PgState) (stk : List Frame) (prov : List Event) (e : Micro Unit) : Prop :=
  ∃ t, EngineAt u pg stk prov t ∧ e = engineRun t

theorem engineRun_visit {t : State} (h : t.pgState ≠ .idle) : engineRun t = (pgAction t).bind fun _ s => engineRun s := by
  rw [engineRun_eq, if_neg h]

/-- A visit whose action succeeds. -/
theorem Reaches.of_action {u t t' : State} {pg : PgState} {stk : List Frame} {prov : List Event} (hs : t.pgState ≠ .idle)
    (ha : pgAction t = .ok () t') (h : Reaches u pg stk prov (engineRun t')) : Reaches u pg stk prov (engineRun t) := by
  rwa [engineRun_visit hs, ha]

theorem EngineAt.reaches {u t : State} {pg : PgState} {stk : List Frame} {prov : List Event}
    (h : EngineAt u pg stk prov t) : Reaches u pg stk prov (engineRun t) :=
  ⟨t, h, rfl⟩

/-- The run `e` goes on from such a state, with `VER` and `TID` as given. -/
def ReachesHeader (u : State) (pg : PgState) (stk : List Frame) (prov : List Event) (ver tid : BitVec 3) (e : Micro Unit) :
    Prop :=
  ∃ t, e = engineRun t ∧ EngineAt u pg stk prov t ∧ t.ver = ver ∧ t.tid = tid

section Reads
variable {u : State} {stk : List Frame} {prov : List Event} {ver tid : BitVec 3} {e : Micro Unit}

/-- `PG_VERSION` (R152). -/
theorem Reaches.version_tracks (h : Reaches u .version stk prov e) :
    Tracks (fun v w e => ∃ tid, ReachesHeader w .type stk prov (v.setWidth 3) tid e) (consume 8 3 u) e := by
  obtain ⟨t, ⟨hread, hpg, hstk, hprov⟩, rfl⟩ := h
  rw [engineRun_visit (by simp [hpg])]
  simp only [pgAction, hpg, consume8, Micro.bind_assoc, Micro.bind_ok]
  refine (hread.consume_tracks 8 3 (by decide) _).mono ?_
  rintro v w e ⟨rfl, rfl⟩
  exact ⟨t.tid, _, rfl, ⟨{ hread.ahead 3 with }, rfl, hstk, hprov⟩, rfl, rfl⟩

/-- `PG_TYPE` (R152). -/
theorem ReachesHeader.type_tracks (h : ReachesHeader u .type stk prov ver tid e) :
    Tracks (fun i w e => ReachesHeader w (if i.setWidth 3 = (4 : BitVec 3) then .literal else .ltype) stk prov ver
      (i.setWidth 3) e) (consume 8 3 u) e := by
  obtain ⟨t, rfl, ⟨hread, hpg, hstk, hprov⟩, hver, -⟩ := h
  rw [engineRun_visit (by simp [hpg])]
  simp only [pgAction, hpg, consume8, Micro.bind_assoc, Micro.bind_ok]
  refine (hread.consume_tracks 8 3 (by decide) _).mono ?_
  rintro i w e ⟨rfl, rfl⟩
  exact ⟨_, rfl, ⟨{ hread.ahead 3 with }, rfl, hstk, hprov⟩, hver, rfl⟩

/-- `PG_LITERAL` (R152). -/
theorem ReachesHeader.literal_tracks (h : ReachesHeader u .literal stk prov ver tid e) :
    Tracks (fun r w e => Reaches w .done stk (prov ++ [.literal ver (BitVec.ofNat 32 r.2) r.1]) e) (varint u) e := by
  obtain ⟨t, rfl, ⟨hread, hpg, hstk, hprov⟩, hver, -⟩ := h
  rw [engineRun_visit (by simp [hpg])]
  simp only [pgAction, hpg, Micro.bind_assoc, Micro.bind_ok]
  refine (hread.varint_tracks _).mono ?_
  rintro r w e ⟨hm, rfl⟩
  refine EngineAt.reaches ⟨⟨?_, ?_, ?_, rfl⟩, rfl, hstk, by simp [finishLiteral, hprov, hver]⟩
  · exact hread.cfg.trans hm.cfg.symm
  · exact hread.buf.trans hm.buf.symm
  · exact hread.len.trans hm.len.symm

/-- `PG_LTYPE` (R152). -/
theorem ReachesHeader.ltype_tracks (h : ReachesHeader u .ltype stk prov ver tid e) :
    Tracks (fun m w e => ReachesHeader w (if m = 0 then .len15 else .len11) stk prov ver tid e) (consume 8 1 u) e := by
  obtain ⟨t, rfl, ⟨hread, hpg, hstk, hprov⟩, hver, htid⟩ := h
  rw [engineRun_visit (by simp [hpg])]
  simp only [pgAction, hpg, consume8, Micro.bind_assoc, Micro.bind_ok]
  refine (hread.consume_tracks 8 1 (by decide) _).mono ?_
  rintro m w e ⟨rfl, rfl⟩
  exact ⟨_, rfl, ⟨{ hread.ahead 1 with }, rfl, hstk, hprov⟩, hver, htid⟩

/-- The run `e` is at the push of an operator whose length field has been read. -/
def ReachesPush (u : State) (mode : LengthMode) (l : BitVec 15) (stk : List Frame) (prov : List Event) (ver tid : BitVec 3)
    (e : Micro Unit) : Prop :=
  ∃ t : State, (e = (pushOperator mode l t).bind fun _ s => engineRun s) ∧ SameReader u t ∧ t.stk = stk ∧
    t.provisional = prov ∧ t.ver = ver ∧ t.tid = tid

/-- `PG_LEN15` up to the push (R152). -/
theorem ReachesHeader.len15_tracks (h : ReachesHeader u .len15 stk prov ver tid e) :
    Tracks (fun l w e => ReachesPush w .totalBits (l.setWidth 15) stk prov ver tid e) (consume 16 15 u) e := by
  obtain ⟨t, rfl, ⟨hread, hpg, hstk, hprov⟩, hver, htid⟩ := h
  rw [engineRun_visit (by simp [hpg])]
  simp only [pgAction, hpg, consume16, Micro.bind_assoc]
  refine (hread.consume_tracks 16 15 (by decide) _).mono ?_
  rintro l w e ⟨rfl, rfl⟩
  exact ⟨_, rfl, hread.ahead 15, hstk, hprov, hver, htid⟩

/-- `PG_LEN11` up to the push (R152). -/
theorem ReachesHeader.len11_tracks (h : ReachesHeader u .len11 stk prov ver tid e) :
    Tracks (fun c w e => ReachesPush w .packetCount (c.setWidth 15) stk prov ver tid e) (consume 16 11 u) e := by
  obtain ⟨t, rfl, ⟨hread, hpg, hstk, hprov⟩, hver, htid⟩ := h
  rw [engineRun_visit (by simp [hpg])]
  simp only [pgAction, hpg, consume16, Micro.bind_assoc]
  refine (hread.consume_tracks 16 11 (by decide) _).mono ?_
  rintro c w e ⟨rfl, rfl⟩
  exact ⟨_, rfl, hread.ahead 11, hstk, hprov, hver, htid⟩

end Reads

section Steps
variable {u : State} {f : Frame} {rest : List Frame} {prov : List Event} {e : Micro Unit}

theorem nextChild_more {t : State} (hstk : t.stk = f :: rest) (h : f.WantsChild t.bitOffset) :
    nextChild t = { t with stk := f.childStarted :: rest, pgState := .version } := by
  obtain ⟨mode, bound, nchild⟩ := f
  cases mode with
  | totalBits =>
    simp only [nextChild, hstk, Frame.childStarted]
    exact if_pos h
  | packetCount =>
    simp only [nextChild, hstk, Frame.childStarted]
    exact if_pos h

theorem nextChild_none {t : State} (hstk : t.stk = f :: rest) (h : ¬ f.WantsChild t.bitOffset) :
    nextChild t = { t with pgState := .close } := by
  obtain ⟨mode, bound, nchild⟩ := f
  cases mode <;> simp only [nextChild, hstk] <;> exact if_neg h

/-- `PG_NEXT` with another child to come. -/
theorem Reaches.child (h : Reaches u .next (f :: rest) prov e) (hf : f.WantsChild u.bitOffset) :
    Reaches u .version (f.childStarted :: rest) prov e := by
  obtain ⟨t, ⟨hread, hpg, hstk, hprov⟩, rfl⟩ := h
  have ha : pgAction t = .ok () { t with stk := f.childStarted :: rest, pgState := .version } := by
    simp only [pgAction, hpg]
    rw [nextChild_more hstk (by rwa [hread.bitOffset])]
  exact .of_action (by simp [hpg]) ha (EngineAt.reaches ⟨{ hread with }, rfl, rfl, hprov⟩)

/-- `PG_NEXT` with no other child to come, then `PG_CLOSE`. -/
theorem Reaches.close (h : Reaches u .next (f :: rest) prov e) (hf : ¬ f.WantsChild u.bitOffset) :
    Reaches u .done rest (prov ++ [.opEnd (BitVec.ofNat 32 f.nchild)]) e := by
  obtain ⟨t, ⟨hread, hpg, hstk, hprov⟩, rfl⟩ := h
  have ha : pgAction t = .ok () { t with pgState := .close } := by
    simp only [pgAction, hpg]
    rw [nextChild_none hstk (by rwa [hread.bitOffset])]
  have hc : pgAction { t with pgState := .close } = .ok () { t with
      stk := rest, pgState := .done, provisional := t.provisional ++ [.opEnd (BitVec.ofNat 32 f.nchild)] } := by
    simp only [pgAction, closeOperator, hstk, State.emit]
  refine .of_action (by simp [hpg]) ha (.of_action (by simp) hc ?_)
  exact EngineAt.reaches ⟨{ hread with }, rfl, rfl, congrArg (· ++ _) hprov⟩

/-- `PG_DONE` of a child. -/
theorem Reaches.childEnded (h : Reaches u .done (f :: rest) prov e) : Reaches u .next (f.childEnded :: rest) prov e := by
  obtain ⟨t, ⟨hread, hpg, hstk, hprov⟩, rfl⟩ := h
  have ha : pgAction t = .ok () { t with stk := f.childEnded :: rest, pgState := .next } := by
    simp only [pgAction, hpg, packetDone, hstk, Frame.childEnded]
  exact .of_action (by simp [hpg]) ha (EngineAt.reaches ⟨{ hread with }, rfl, rfl, hprov⟩)

/-- `PG_DONE` of a top-level packet: the run ends. -/
theorem Reaches.ends (h : Reaches u .done [] prov e) : ∃ t, EngineAt u .idle [] prov t ∧ e = .ok () t := by
  obtain ⟨t, ⟨hread, hpg, hstk, hprov⟩, rfl⟩ := h
  refine ⟨{ t with pgState := .idle }, ⟨{ hread with }, rfl, hstk, hprov⟩, ?_⟩
  rw [engineRun_visit (by simp [hpg])]
  simp only [pgAction, hpg, packetDone, hstk, Micro.bind_ok]
  rw [engineRun_eq, if_pos rfl]

end Steps

/-- An attempt begins at `PG_VERSION` (R153). -/
theorem Reaches.start {u s : State} {stk : List Frame} (hread : SameReader u s) (hstk : s.stk = stk) :
    Reaches u .version stk s.provisional (engineRun { s with pgState := .version }) :=
  EngineAt.reaches ⟨{ hread with }, rfl, hstk, rfl⟩

theorem pushOperator_overflows {mode : LengthMode} {l : BitVec 15} {s : State} (h : s.sp = s.cfg.stackDepth) :
    pushOperator mode l s = .raise .stackOverflow s :=
  if_pos h

theorem pushOperator_opens {mode : LengthMode} {l : BitVec 15} {s : State} (h : s.sp ≠ s.cfg.stackDepth) :
    pushOperator mode l s = .ok () { s with
      stk := .opened mode l s.bitOffset :: s.stk, pgState := .next
      provisional := s.provisional ++ [.opBegin s.ver s.tid mode l] } :=
  if_neg h

end Sys2Proof.Machine
end

section
/-! The engine and the recursive algorithm side by side (R155). -/

namespace Sys2Proof.Machine

/-- At least `n` bits have been taken between `s` and `t`, by micro-operations. -/
structure Took (n : Nat) (s t : State) : Prop where
  moved : Moved s t
  taken : s.bitOffset + n ≤ t.bitOffset

theorem Took.trans {m n : Nat} {s t u : State} (h : Took m s t) (h' : Took n t u) : Took (m + n) s u :=
  ⟨h.moved.trans h'.moved, by have := h.taken; have := h'.taken; omega⟩

theorem Took.trans_moved {n : Nat} {s t u : State} (h : Took n s t) (h' : Moved t u) : Took n s u :=
  ⟨h.moved.trans h', h.taken.trans h'.forward⟩

theorem Took.mono {m n : Nat} {s t : State} (h : Took n s t) (hmn : m ≤ n) : Took m s t :=
  ⟨h.moved, (Nat.add_le_add_left hmn _).trans h.taken⟩

theorem Took.remaining_add_le {n : Nat} {s t : State} (h : Took n s t) (hn : 0 < n) : t.remaining + n ≤ s.remaining := by
  have htaken := h.taken
  have hb := h.moved.bounded
  simp only [State.remaining, h.moved.len]
  omega

theorem consume_took {W count : Nat} {s t : State} {v : BitVec W} (h : consume W count s = .ok v t) : Took count s t := by
  have hm := consume_moved W count s
  rw [h] at hm
  exact ⟨hm, by rw [consume_eq_ok h]⟩

theorem varint_ok_moved {s t : State} {r : Word64 × Nat} (h : varint s = .ok r t) : Moved s t := by
  have hm := varint_moved s
  rwa [h] at hm

/-- What follows the engine's part in one packet: from `u` to `w` bits were taken, and the run is at `PG_DONE` with the events
`es` emitted. -/
def PacketEnded (u : State) (stk : List Frame) (prov : List Event) (p : Packet) (w : State) (e : Micro Unit) : Prop :=
  Took 6 u w ∧ Reaches w .done stk (prov ++ p.events) e

/-- The children of the operator on top are complete, and the operator with them. -/
def ChildrenEnded (u : State) (f : Frame) (rest : List Frame) (prov : List Event) (ps : List Packet) (w : State)
    (e : Micro Unit) : Prop :=
  Moved u w ∧
    Reaches w .done rest (prov ++ packetsEvents ps ++ [.opEnd (BitVec.ofNat 32 (f.nchild + ps.length))]) e

def PacketTracked (rounds : Nat) : Prop :=
  ∀ (u : State) (stk : List Frame) (prov : List Event) (e : Micro Unit), u.remaining < rounds →
    Reaches u .version stk prov e →
    Tracks (PacketEnded u stk prov) (packetRec (some u.cfg.stackDepth) rounds stk.length u) e

def ChildrenTracked (rounds : Nat) : Prop :=
  ∀ (u : State) (f : Frame) (rest : List Frame) (prov : List Event) (e : Micro Unit), u.remaining + 1 < rounds →
    Reaches u .next (f :: rest) prov e →
    Tracks (ChildrenEnded u f rest prov) (childrenRec (some u.cfg.stackDepth) rounds (rest.length + 1) f u) e

theorem childrenTracked_succ {rounds : Nat} (hp : PacketTracked rounds) (hc : ChildrenTracked rounds) :
    ChildrenTracked (rounds + 1) := by
  intro u f rest prov e hr h
  by_cases hf : f.WantsChild u.bitOffset
  · rw [childrenRec_more hf]
    refine (hp u _ prov e (by omega) (h.child hf)).bind fun p w e' _ ⟨ht', hdone⟩ => ?_
    have hrem : w.remaining + 1 < rounds := by have := ht'.remaining_add_le (by decide); omega
    have hkids := hc w _ rest _ e' hrem hdone.childEnded
    rw [childrenRec_childEnded, ht'.moved.cfg] at hkids
    refine hkids.bind fun ps v e'' _ ⟨hm', hend⟩ => ⟨ht'.moved.trans hm', ?_⟩
    simpa [packetsEvents, Frame.childEnded, Nat.add_assoc, Nat.add_comm 1] using hend
  · rw [childrenRec_none hf]
    exact ⟨.refl u, by simpa [packetsEvents] using h.close hf⟩

theorem operatorTracked {rounds : Nat} (hc : ChildrenTracked rounds) {u : State} {mode : LengthMode} {l : BitVec 15}
    {stk : List Frame} {prov : List Event} {ver tid : BitVec 3} {e : Micro Unit} (hr : u.remaining + 1 < rounds)
    (h : ReachesPush u mode l stk prov ver tid e) :
    Tracks (fun p w e => Moved u w ∧ Reaches w .done stk (prov ++ p.events) e)
      (operatorRec (some u.cfg.stackDepth) rounds stk.length ver tid mode l u) e := by
  obtain ⟨t, rfl, hread, rfl, rfl, rfl, rfl⟩ := h
  by_cases hd : t.sp = t.cfg.stackDepth
  · have hlim : some u.cfg.stackDepth = some t.stk.length := by rw [← hread.cfg, ← hd]
    rw [operatorRec, if_pos hlim, pushOperator_overflows hd]
    exact ⟨t, rfl, hread.bitOffset⟩
  · have hlim : some u.cfg.stackDepth ≠ some t.stk.length := by
      rw [← hread.cfg]
      simpa using Ne.symm hd
    rw [operatorRec, if_neg hlim, pushOperator_opens hd, Micro.bind_ok, ← hread.bitOffset]
    have hopen := EngineAt.reaches (t := { t with
        stk := .opened mode l t.bitOffset :: t.stk, pgState := .next
        provisional := t.provisional ++ [.opBegin t.ver t.tid mode l] }) ⟨{ hread with }, rfl, rfl, rfl⟩
    refine (hc u _ _ _ _ hr hopen).bind fun ps w e _ hend => ?_
    simpa [Tracks, ChildrenEnded, Packet.events, Frame.opened] using hend

theorem packetTracked_succ {rounds : Nat} (hc : ChildrenTracked rounds) : PacketTracked (rounds + 1) := by
  intro u stk prov e hr h
  rw [packetRec_succ]
  refine h.version_tracks.bind fun v u₁ e₁ hv ⟨_, h₁⟩ => ?_
  have t₁ := consume_took hv
  refine h₁.type_tracks.bind fun i u₂ e₂ hi h₂ => ?_
  have t₂ := t₁.trans (consume_took hi)
  by_cases htid : i.setWidth 3 = (4 : BitVec 3)
  · rw [if_pos htid] at h₂ ⊢
    exact h₂.literal_tracks.bind fun r w e₃ hw h₃ => ⟨t₂.trans_moved (varint_ok_moved hw), h₃⟩
  · rw [if_neg htid] at h₂ ⊢
    refine h₂.ltype_tracks.bind fun m u₃ e₃ hm h₃ => ?_
    have t₃ := t₂.trans (consume_took hm)
    by_cases hmode : m = 0
    · rw [if_pos hmode] at h₃ ⊢
      refine h₃.len15_tracks.bind fun l u₄ e₄ hl h₄ => ?_
      have t₄ := t₃.trans (consume_took hl)
      have hrem : u₄.remaining + 1 < rounds := by have := t₄.remaining_add_le (by decide); omega
      rw [← t₄.moved.cfg]
      exact (operatorTracked hc hrem h₄).mono fun p w e ⟨hmv, hdone⟩ => ⟨(t₄.trans_moved hmv).mono (by decide), hdone⟩
    · rw [if_neg hmode] at h₃ ⊢
      refine h₃.len11_tracks.bind fun c u₄ e₄ hl h₄ => ?_
      have t₄ := t₃.trans (consume_took hl)
      have hrem : u₄.remaining + 1 < rounds := by have := t₄.remaining_add_le (by decide); omega
      rw [← t₄.moved.cfg]
      exact (operatorTracked hc hrem h₄).mono fun p w e ⟨hmv, hdone⟩ => ⟨(t₄.trans_moved hmv).mono (by decide), hdone⟩

theorem tracked (rounds : Nat) : PacketTracked rounds ∧ ChildrenTracked rounds := by
  induction rounds with
  | zero => exact ⟨fun u _ _ _ h => absurd h (Nat.not_lt_zero _), fun u _ _ _ _ h => absurd h (Nat.not_lt_zero _)⟩
  | succ rounds ih => exact ⟨packetTracked_succ ih.2, childrenTracked_succ ih.1 ih.2⟩

/-- An attempt with no frame open, beside the algorithm limited to `STACK_DEPTH` on the same bits (R155). -/
theorem packet_tracks {s u : State} (hread : SameReader u s) (hstk : s.stk = []) :
    Tracks (fun p w e => Took 6 u w ∧
        ∃ t, e = .ok () t ∧ EngineAt w .idle [] (s.provisional ++ p.events) t)
      (packetReference (some s.cfg.stackDepth) u) (packet s) := by
  have ht := (tracked (u.remaining + 1)).1 u [] s.provisional _ (Nat.lt_succ_self _) (.start hread hstk)
  rw [packet_eq, packetReference, congrArg Config.stackDepth hread.cfg]
  cases hp : packetRec (some u.cfg.stackDepth) (u.remaining + 1) 0 u with
  | ok p w =>
    rw [List.length_nil, hp] at ht
    obtain ⟨ht', hdone⟩ := ht
    obtain ⟨t, hat, he⟩ := hdone.ends
    rw [he]
    exact ⟨ht', t, rfl, hat⟩
  | raise c w =>
    rw [List.length_nil, hp] at ht
    obtain ⟨t, he, hoff⟩ := ht
    rw [he]
    exact ⟨t.unwind, rfl, hoff⟩

/-- Settles O31: a state reads what it reads itself, so `packet_tracks` has the engine beside the algorithm. -/
theorem engineMatchesRecursiveAlgorithm : Obligations.EngineMatchesRecursiveAlgorithm := by
  intro s hstk
  have ht := packet_tracks (.refl s) hstk
  refine ⟨fun p u hp => ?_, fun c u hp => ?_⟩
  · rw [hp] at ht
    obtain ⟨-, t, hpk, hat⟩ := ht
    exact ⟨t, hpk, hat.bitOffset, hat.provisional, hat.stk, hat.pgState⟩
  · rw [hp] at ht
    obtain ⟨t, hpk, hoff⟩ := ht
    have hidle := (packet_moved s).2
    have hframe := packet_noFrame s
    rw [hpk] at hidle hframe
    exact ⟨t, hpk, hoff, hframe, hidle⟩

end Sys2Proof.Machine
end

section
/-! The formats of the packet stream at the cursor: the engine, reading their bits, does what their rows say (R72 to R75,
R152). -/

namespace Sys2Proof.Machine

/-- Settles O47: the row pushes onto a full stack, and the raise ends the command. -/
theorem operatorHeaderOverflowsStack : Obligations.OperatorHeaderOverflowsStack := by
  intro s t v ht hfull
  refine ⟨fun l => ?_, fun c => ?_⟩
  · have hpush := pushOperator_overflows (mode := .totalBits) (l := l)
      (s := { s with bitOffset := s.bitOffset + 22, ver := v, tid := t }) hfull
    exact (exec_operatorM0 ht v l s).trans ((congrArg endFormat hpush).trans (endFormat_raise rfl _))
  · have hpush := pushOperator_overflows (mode := .packetCount) (l := c.setWidth 15)
      (s := { s with bitOffset := s.bitOffset + 18, ver := v, tid := t }) hfull
    exact (exec_operatorM1 ht v c s).trans ((congrArg endFormat hpush).trans (endFormat_raise rfl _))

/-! ### Fields at the cursor -/

/-- A read of a field that stands at the cursor (R13, R104). -/
theorem consume_fieldBits {W w : Nat} (hw : w ≤ W) {s : State} {x : BitVec w} (h : s.BitsAt s.bitOffset (fieldBits x)) :
    consume W w s = .ok (x.setWidth W) { s with bitOffset := s.bitOffset + w } := by
  have hfield : s.field s.bitOffset w = x.toNat := by simpa using h.field_eq
  have hroom : s.bitOffset + w ≤ 8 * s.len := by simpa using h.inBuffer
  rw [consume_ok s hw (.inr hroom), hfield, BitVec.ofNat_toNat]

/-- The bits after a field. -/
theorem State.BitsAt.after {s : State} {o w : Nat} {x : BitVec w} {bs : List Bool} (h : s.BitsAt o (fieldBits x ++ bs)) :
    s.BitsAt (o + w) bs := by
  simpa using h.right

/-- Bits that come next once the header up to there has been read. -/
theorem State.BitsAt.inHeader {s : State} {o : Nat} {bs : List Bool} (h : s.BitsAt o bs) (v t : BitVec 3) (pg : PgState) :
    State.BitsAt { s with bitOffset := o, ver := v, tid := t, pgState := pg } o bs :=
  h.congr rfl rfl

section Visits
variable {s : State}

theorem pgAction_version {v : BitVec 3} (hs : s.pgState = .version) (h : s.BitsAt s.bitOffset (fieldBits v)) :
    pgAction s = .ok () { s with bitOffset := s.bitOffset + 3, ver := v, pgState := .type } := by
  simp [pgAction, hs, consume8, consume_fieldBits (W := 8) (by decide) h]

theorem pgAction_type {t : BitVec 3} (hs : s.pgState = .type) (h : s.BitsAt s.bitOffset (fieldBits t)) :
    pgAction s = .ok () { s with
      bitOffset := s.bitOffset + 3, tid := t, pgState := if t = 4 then .literal else .ltype } := by
  simp [pgAction, hs, consume8, consume_fieldBits (W := 8) (by decide) h]

theorem pgAction_ltype {m : Bool} (hs : s.pgState = .ltype) (h : s.BitsAt s.bitOffset [m]) :
    pgAction s = .ok () { s with bitOffset := s.bitOffset + 1, pgState := if m then .len11 else .len15 } := by
  rw [← fieldBits_ofBool] at h
  simp only [pgAction, hs, consume8, consume_fieldBits (W := 8) (by decide) h, Micro.bind_ok]
  cases m <;> rfl

theorem pgAction_len15 {l : BitVec 15} (hs : s.pgState = .len15) (h : s.BitsAt s.bitOffset (fieldBits l)) :
    pgAction s = pushOperator .totalBits l { s with bitOffset := s.bitOffset + 15 } := by
  simp [pgAction, hs, consume16, consume_fieldBits (W := 16) (by decide) h]

theorem pgAction_len11 {c : BitVec 11} (hs : s.pgState = .len11) (h : s.BitsAt s.bitOffset (fieldBits c)) :
    pgAction s = pushOperator .packetCount (c.setWidth 15) { s with bitOffset := s.bitOffset + 11 } := by
  simp [pgAction, hs, consume16, consume_fieldBits (W := 16) (by decide) h]

theorem runEngine_visit (n : Nat) (h : s.pgState ≠ .idle) : runEngine (n + 1) s = (pgAction s).bind fun _ t => runEngine n t :=
  if_neg h

theorem runEngine_of_action {t : State} {n : Nat} (h : s.pgState ≠ .idle) (ha : pgAction s = .ok () t) :
    runEngine (n + 1) s = runEngine n t := by
  rw [runEngine_visit n h, ha, Micro.bind_ok]

/-- The last of some visits. -/
theorem runEngine_one (h : s.pgState ≠ .idle) : runEngine 1 s = pgAction s := by
  rw [runEngine_visit 0 h]
  cases pgAction s <;> rfl

/-- The run after some visits (R153). -/
theorem engineRun_after (n : Nat) (s : State) : engineRun s = (runEngine n s).bind fun _ t => engineRun t := by
  induction n generalizing s with
  | zero => rfl
  | succ n ih =>
    by_cases hs : s.pgState = .idle
    · simp only [runEngine, if_pos hs, Micro.bind_ok]
    · rw [engineRun_visit hs, runEngine_visit n hs, Micro.bind_assoc]
      exact Micro.bind_congr fun _ t _ => ih t

/-! ### The formats -/

/-- `PG_VERSION` and `PG_TYPE` on the six header bits (R72). -/
theorem runEngine_header (n : Nat) {v t : BitVec 3} {pg : PgState} (hpg : pg = if t = 4 then .literal else .ltype)
    (hs : s.pgState = .version) (h : s.BitsAt s.bitOffset (fieldBits v ++ fieldBits t)) :
    runEngine (n + 2) s = runEngine n { s with bitOffset := s.bitOffset + 6, ver := v, tid := t, pgState := pg } := by
  subst hpg
  rw [runEngine_of_action (by simp [hs]) (pgAction_version hs h.left),
    runEngine_of_action (by simp) (pgAction_type rfl (h.after.inHeader v _ _))]

/-- An operator header up to its length field (R74, R75). -/
theorem runEngine_lengthMode (n : Nat) {v t : BitVec 3} {m : Bool} (ht : t ≠ 4) (hs : s.pgState = .version)
    (h : s.BitsAt s.bitOffset (fieldBits v ++ fieldBits t ++ [m])) :
    runEngine (n + 3) s = runEngine n { s with
      bitOffset := s.bitOffset + 7, ver := v, tid := t, pgState := if m then .len11 else .len15 } := by
  have hm : s.BitsAt (s.bitOffset + 6) [m] := by simpa using h.right
  rw [runEngine_header (n + 1) (if_neg ht).symm hs h.left,
    runEngine_of_action (by simp) (pgAction_ltype rfl (hm.inHeader v t _))]

/-- An operator header in length mode 0 takes four visits (R74). -/
theorem runEngine_headerM0 {v t : BitVec 3} {l : BitVec 15} (ht : t ≠ 4) (hs : s.pgState = .version)
    (hfree : s.sp ≠ s.cfg.stackDepth)
    (h : s.BitsAt s.bitOffset (headerM0Bits t v l)) :
    runEngine 4 s = .ok () { s with
      bitOffset := s.bitOffset + 22, ver := v, tid := t, pgState := .next
      stk := .opened .totalBits l (s.bitOffset + 22) :: s.stk
      provisional := s.provisional ++ [.opBegin v t .totalBits l] } := by
  have hl : s.BitsAt (s.bitOffset + 7) (fieldBits l) := by simpa using h.right
  rw [runEngine_lengthMode 1 ht hs h.left, runEngine_one (by simp)]
  exact (pgAction_len15 rfl (hl.inHeader v t .len15)).trans (pushOperator_opens hfree)

/-- An operator header in length mode 1 takes four visits (R75). -/
theorem runEngine_headerM1 {v t : BitVec 3} {c : BitVec 11} (ht : t ≠ 4) (hs : s.pgState = .version)
    (hfree : s.sp ≠ s.cfg.stackDepth)
    (h : s.BitsAt s.bitOffset (headerM1Bits t v c)) :
    runEngine 4 s = .ok () { s with
      bitOffset := s.bitOffset + 18, ver := v, tid := t, pgState := .next
      stk := .opened .packetCount (c.setWidth 15) (s.bitOffset + 18) :: s.stk
      provisional := s.provisional ++ [.opBegin v t .packetCount (c.setWidth 15)] } := by
  have hc : s.BitsAt (s.bitOffset + 7) (fieldBits c) := by simpa using h.right
  rw [runEngine_lengthMode 1 ht hs h.left, runEngine_one (by simp)]
  exact (pgAction_len11 rfl (hc.inHeader v t .len11)).trans (pushOperator_opens hfree)

/-- A literal takes three visits, the third one for its varint (R73). -/
theorem runEngine_literal {v : BitVec 3} (hs : s.pgState = .version)
    (h : s.BitsAt s.bitOffset (fieldBits v ++ fieldBits 4#3)) :
    runEngine 3 s = (varint { s with bitOffset := s.bitOffset + 6, ver := v, tid := 4, pgState := .literal }).bind fun r t =>
      .ok () (finishLiteral r.1 r.2 t) := by
  rw [runEngine_header 1 (if_pos rfl).symm hs h, runEngine_one (by simp)]
  rfl

/-- `varint` on a whole varint at the cursor folds its groups (R121). -/
theorem varint_varintBits {ps : List (BitVec 4)} (hne : ps ≠ []) (h : s.BitsAt s.bitOffset (varintBits ps)) :
    varint s = (foldGroups ps { s with acc := 0, groups := 0 }).bind fun _ t => .ok (t.acc, t.groups) t := by
  have hin : s.bitOffset + (varintBits ps).length ≤ 8 * s.len := h.inBuffer
  rw [varintBits_length] at hin
  exact varintLoop_varintBits hne (by simp only [State.remaining]; omega) (h.congr rfl rfl)

end Visits

/-- Settles O51: the header's visits are the row's format, and with a frame free the push succeeds; a literal whose payloads
fit folds in the engine as in its row. -/
theorem engineRunsStreamFormats : Obligations.EngineRunsStreamFormats := by
  intro s hs
  refine ⟨fun t v l ht hfree h => ?_, fun t v c ht hfree h => ?_, fun v ps hne hfit h => ?_⟩
  · have hpush := pushOperator_opens (mode := .totalBits) (l := l)
      (s := { s with bitOffset := s.bitOffset + 22, ver := v, tid := t }) hfree
    exact ⟨_, runEngine_headerM0 ht hs hfree h, (exec_operatorM0 ht v l s).trans (congrArg endFormat hpush)⟩
  · have hpush := pushOperator_opens (mode := .packetCount) (l := c.setWidth 15)
      (s := { s with bitOffset := s.bitOffset + 18, ver := v, tid := t }) hfree
    exact ⟨_, runEngine_headerM1 ht hs hfree h, (exec_operatorM1 ht v c s).trans (congrArg endFormat hpush)⟩
  · have hg : s.BitsAt (s.bitOffset + 6) (varintBits ps) := by simpa using h.right
    rw [runEngine_literal hs h.left, varint_varintBits hne (hg.inHeader v 4 _), execPktLiteral_eq, foldGroups_folds rfl hfit,
      foldGroups_folds rfl hfit]
    exact ⟨_, rfl, rfl⟩

end Sys2Proof.Machine
end

section
/-! Packets that stand in the stream (R72 to R75): the engine emits their events and stops behind their bits, whatever
operators are open around them (R79, R142). -/

namespace Sys2Proof.Machine

theorem SameReader.bitsAt {u t : State} (h : SameReader u t) {bs : List Bool} (hb : u.BitsAt u.bitOffset bs) :
    t.BitsAt t.bitOffset bs := by
  rw [h.bitOffset]
  exact hb.congr h.buf h.len

/-- The bits after those of which the cursor has been taken past. -/
theorem State.BitsAt.past {u : State} {bs cs : List Bool} (h : u.BitsAt u.bitOffset (bs ++ cs)) {n : Nat}
    (hn : bs.length = n) : State.BitsAt { u with bitOffset := u.bitOffset + n } (u.bitOffset + n) cs := by
  subst hn
  exact h.right.congr rfl rfl

section Formats
variable {u : State} {stk : List Frame} {prov : List Event} {e : Micro Unit}

theorem Reaches.of_visits {t t' : State} {pg : PgState} (n : Nat) (h : runEngine n t = .ok () t')
    (hr : Reaches u pg stk prov (engineRun t')) : Reaches u pg stk prov (engineRun t) := by
  rwa [engineRun_after n, h]

/-- An operator header in length mode 0 with a frame free (R74). -/
theorem Reaches.headerM0 {v t : BitVec 3} {l : BitVec 15} (h : Reaches u .version stk prov e) (ht : t ≠ 4)
    (hd : stk.length < u.cfg.stackDepth) (hb : u.BitsAt u.bitOffset (headerM0Bits t v l)) :
    Reaches { u with bitOffset := u.bitOffset + 22 } .next (.opened .totalBits l (u.bitOffset + 22) :: stk)
      (prov ++ [.opBegin v t .totalBits l]) e := by
  obtain ⟨s, ⟨hread, hpg, rfl, rfl⟩, rfl⟩ := h
  have hfree : s.sp ≠ s.cfg.stackDepth := by rw [hread.cfg]; exact Nat.ne_of_lt hd
  rw [← hread.bitOffset]
  refine .of_visits 4 (runEngine_headerM0 ht hpg hfree (hread.bitsAt hb)) ?_
  exact EngineAt.reaches ⟨{ hread with bitOffset := rfl }, rfl, rfl, rfl⟩

/-- An operator header in length mode 1 with a frame free (R75). -/
theorem Reaches.headerM1 {v t : BitVec 3} {c : BitVec 11} (h : Reaches u .version stk prov e) (ht : t ≠ 4)
    (hd : stk.length < u.cfg.stackDepth) (hb : u.BitsAt u.bitOffset (headerM1Bits t v c)) :
    Reaches { u with bitOffset := u.bitOffset + 18 } .next (.opened .packetCount (c.setWidth 15) (u.bitOffset + 18) :: stk)
      (prov ++ [.opBegin v t .packetCount (c.setWidth 15)]) e := by
  obtain ⟨s, ⟨hread, hpg, rfl, rfl⟩, rfl⟩ := h
  have hfree : s.sp ≠ s.cfg.stackDepth := by rw [hread.cfg]; exact Nat.ne_of_lt hd
  rw [← hread.bitOffset]
  refine .of_visits 4 (runEngine_headerM1 ht hpg hfree (hread.bitsAt hb)) ?_
  exact EngineAt.reaches ⟨{ hread with bitOffset := rfl }, rfl, rfl, rfl⟩

/-- A literal whose value fits its groups (R73, R127). -/
theorem Reaches.literal {v : BitVec 3} {x : Word64} {g : Word32} (h : Reaches u .version stk prov e) (hg : 1 ≤ g.toNat)
    (hx : x.toNat < 16 ^ g.toNat) (hb : u.BitsAt u.bitOffset (Packet.literal v x g).bits) :
    Reaches { u with bitOffset := u.bitOffset + (6 + 5 * g.toNat) } .done stk (prov ++ [.literal v g x]) e := by
  obtain ⟨s, ⟨hread, hpg, rfl, rfl⟩, rfl⟩ := h
  rw [Packet.bits] at hb
  have hbits := hread.bitsAt hb
  have hgroups : s.BitsAt (s.bitOffset + 6) (varintBits (payloadsOf x g.toNat)) := by simpa using hbits.right
  have hv := varint_payloadsOf hg hx (hgroups.inHeader v 4 .literal)
  refine .of_visits 3 ((runEngine_literal hpg hbits.left).trans (congrArg (Micro.bind · _) hv)) ?_
  refine EngineAt.reaches ⟨{ hread with bitOffset := ?_ }, rfl, rfl, ?_⟩
  · simp only [finishLiteral, State.emit, hread.bitOffset, Nat.add_assoc]
  · simp [finishLiteral]

end Formats

/-! ### Whole packets -/

/-- The operator's frame says that the packets `ps` follow the cursor `o` (R74, R75). -/
def Frame.Covers (f : Frame) (o : Nat) (ps : List Packet) : Prop :=
  match f.mode with
  | .totalBits => f.limit = o + (packetsBits ps).length
  | .packetCount => f.limit = ps.length

theorem Frame.Covers.wantsNone {f : Frame} {o : Nat} (h : f.Covers o []) : ¬ f.WantsChild o := by
  obtain ⟨mode, bound, nchild⟩ := f
  cases mode <;> simp_all [Frame.Covers, Frame.WantsChild, packetsBits]

@[simp] theorem headerM0Bits_length (t v : BitVec 3) (l : BitVec 15) : (headerM0Bits t v l).length = 22 := by
  simp [headerM0Bits]

@[simp] theorem headerM1Bits_length (t v : BitVec 3) (c : BitVec 11) : (headerM1Bits t v c).length = 18 := by
  simp [headerM1Bits]

theorem Packet.literal_bits_length (v : BitVec 3) (x : Word64) (g : Word32) :
    (Packet.literal v x g).bits.length = 6 + 5 * g.toNat := by
  simp [Packet.bits, varintBits_length, payloadsOf_length]
  omega

theorem Packet.bits_length_pos (p : Packet) : 0 < p.bits.length := by
  cases p with
  | literal v x g =>
    rw [Packet.literal_bits_length]
    omega
  | operator v t mode l kids => cases mode <;> simp [Packet.bits]

theorem Frame.Covers.child {f : Frame} {o : Nat} {p : Packet} {ps : List Packet} (h : f.Covers o (p :: ps)) :
    f.WantsChild o ∧ f.childStarted.childEnded.Covers (o + p.bits.length) ps := by
  have hpos := p.bits_length_pos
  obtain ⟨mode, bound, nchild⟩ := f
  cases mode with
  | totalBits =>
    simp only [Frame.Covers, packetsBits, List.length_append] at h
    exact ⟨show o < bound by omega, show bound = _ by omega⟩
  | packetCount =>
    simp only [Frame.Covers, List.length_cons] at h
    exact ⟨show 0 < bound by omega, show bound - 1 = _ by omega⟩

theorem Packet.wellFormed_literal {v : BitVec 3} {x : Word64} {g : Word32} :
    (Packet.literal v x g).wellFormed = true ↔ 1 ≤ g.toNat ∧ x.toNat < 16 ^ g.toNat := by
  simp [Packet.wellFormed]

/-- A well-formed operator's header says what follows it (R74, R75). -/
theorem Packet.covers_of_wellFormed {v t : BitVec 3} {mode : LengthMode} {l : BitVec 15} {kids : List Packet} (o : Nat)
    (h : (Packet.operator v t mode l kids).wellFormed = true) :
    t ≠ 4 ∧ packetsWellFormed kids = true ∧ (Frame.opened mode l o).Covers o kids ∧
      (mode = .packetCount → (l.setWidth 11).setWidth 15 = l) := by
  cases mode with
  | totalBits =>
    simp only [Packet.wellFormed, decide_eq_true_eq] at h
    obtain ⟨ht, hl, hkids⟩ := h
    exact ⟨ht, hkids, congrArg (o + ·) hl, nofun⟩
  | packetCount =>
    simp only [Packet.wellFormed, decide_eq_true_eq] at h
    obtain ⟨ht, hlt, hl, hkids⟩ := h
    refine ⟨ht, hkids, hl, fun _ => BitVec.eq_of_toNat_eq ?_⟩
    rw [BitVec.toNat_setWidth, BitVec.toNat_setWidth, Nat.mod_eq_of_lt hlt, Nat.mod_eq_of_lt l.isLt]

mutual
/-- A well-formed packet at the cursor, with frames free for its nesting. -/
theorem Reaches.packet {p : Packet} (hp : p.wellFormed = true) {u : State} {stk : List Frame} {prov : List Event}
    {e : Micro Unit} (h : Reaches u .version stk prov e) (hd : p.nesting + stk.length ≤ u.cfg.stackDepth)
    (hb : u.BitsAt u.bitOffset p.bits) :
    Reaches { u with bitOffset := u.bitOffset + p.bits.length } .done stk (prov ++ p.events) e := by
  match p with
  | .literal v x g =>
    obtain ⟨hg, hx⟩ := Packet.wellFormed_literal.mp hp
    rw [Packet.literal_bits_length]
    exact h.literal hg hx hb
  | .operator v t .totalBits l kids =>
    obtain ⟨ht, hkids, hcov, -⟩ := Packet.covers_of_wellFormed (u.bitOffset + 22) hp
    simp only [Packet.nesting] at hd
    rw [Packet.bits] at hb
    have hhead := h.headerM0 ht (by omega) hb.left
    have hend := hhead.children hkids hcov (by simp only; omega) (hb.past (headerM0Bits_length _ _ _))
    simpa [Packet.bits, Packet.events, Frame.opened, Nat.add_assoc] using hend
  | .operator v t .packetCount l kids =>
    obtain ⟨ht, hkids, hcov, hl⟩ := Packet.covers_of_wellFormed (u.bitOffset + 18) hp
    simp only [Packet.nesting] at hd
    rw [Packet.bits] at hb
    have hhead := h.headerM1 ht (by omega) hb.left
    rw [hl rfl] at hhead
    have hend := hhead.children hkids hcov (by simp only; omega) (hb.past (headerM1Bits_length _ _ _))
    simpa [Packet.bits, Packet.events, Frame.opened, Nat.add_assoc] using hend
/-- The packets that the frame on top covers, and the end of their operator. -/
theorem Reaches.children {ps : List Packet} (hp : packetsWellFormed ps = true) {u : State} {f : Frame} {rest : List Frame}
    {prov : List Event} {e : Micro Unit} (h : Reaches u .next (f :: rest) prov e) (hf : f.Covers u.bitOffset ps)
    (hd : packetsNesting ps + (rest.length + 1) ≤ u.cfg.stackDepth) (hb : u.BitsAt u.bitOffset (packetsBits ps)) :
    Reaches { u with bitOffset := u.bitOffset + (packetsBits ps).length } .done rest
      (prov ++ packetsEvents ps ++ [.opEnd (BitVec.ofNat 32 (f.nchild + ps.length))]) e := by
  match ps with
  | [] => simpa [packetsBits, packetsEvents] using h.close hf.wantsNone
  | p :: ps =>
    obtain ⟨hwants, hcov⟩ := hf.child
    simp only [packetsWellFormed, Bool.and_eq_true] at hp
    obtain ⟨hp, hps⟩ := hp
    simp only [packetsNesting] at hd
    rw [packetsBits] at hb
    have hchild := (h.child hwants).packet hp (by simp only [List.length_cons]; omega) hb.left
    have hrest := hchild.childEnded.children hps hcov (by simp only; omega) (hb.past rfl)
    simpa [packetsBits, packetsEvents, Frame.childEnded, Nat.add_assoc, Nat.add_comm 1] using hrest
end

/-- An attempt at a well-formed packet completes it (R142, R153). -/
theorem packet_of_bits {s : State} {p : Packet} (hstk : s.stk = []) (hp : p.wellFormed = true)
    (hd : p.nesting ≤ s.cfg.stackDepth) (hb : s.BitsAt s.bitOffset p.bits) :
    ∃ t, packet s = .ok () t ∧ t.bitOffset = s.bitOffset + p.bits.length ∧ t.provisional = s.provisional ++ p.events := by
  obtain ⟨t, hat, he⟩ := ((Reaches.start (.refl s) hstk).packet hp hd hb).ends
  exact ⟨t, by rw [packet_eq, he], hat.bitOffset, hat.provisional⟩

end Sys2Proof.Machine
end

section
/-! PACKET (R156): which events are committed, and what the command answers when its attempt is complete. -/

namespace Sys2Proof.Machine

/-! ### The committed events (R160) -/

mutual
theorem committedPrefix_packet (p : Packet) (n depth : Nat) (es : List Event) :
    committedPrefix (n + 1) depth (p.events ++ es) =
      p.events ++ committedPrefix (if depth = 0 then n else n + 1) depth es := by
  match p with
  | .literal v x g => simp [Packet.events, committedPrefix]
  | .operator v t mode l kids =>
    simp only [Packet.events, List.cons_append, List.append_assoc, List.nil_append, committedPrefix]
    rw [committedPrefix_children kids n depth, committedPrefix]
    simp
/-- Inside an operator no packet completes a top-level one. -/
theorem committedPrefix_children (ps : List Packet) (n depth : Nat) (es : List Event) :
    committedPrefix (n + 1) (depth + 1) (packetsEvents ps ++ es) =
      packetsEvents ps ++ committedPrefix (n + 1) (depth + 1) es := by
  match ps with
  | [] => simp [packetsEvents]
  | p :: ps =>
    rw [packetsEvents, List.append_assoc, committedPrefix_packet p, if_neg (Nat.succ_ne_zero depth),
      committedPrefix_children ps, List.append_assoc]
end

theorem committedPrefix_packets (ps : List Packet) (es : List Event) :
    committedPrefix ps.length 0 (packetsEvents ps ++ es) = packetsEvents ps := by
  induction ps with
  | nil => simp [packetsEvents, committedPrefix]
  | cons p ps ih => rw [packetsEvents, List.length_cons, List.append_assoc, committedPrefix_packet, if_pos rfl, ih]

/-- Settles O45: packet by packet, each of which is one top-level packet. -/
theorem committedPrefixIsWholePackets : Obligations.CommittedPrefixIsWholePackets := committedPrefix_packets

/-! ### The command -/

theorem exec_packet (s : State) : exec .packet s = .next (packetCommand s) := rfl

/-- The state in which PACKET makes its attempt (R156). -/
def State.packetAttempt (s : State) : State :=
  { s with busy := true, pktCount := 0, attemptStart := s.bitOffset, provisional := [] }

theorem packetCommand_eq {s : State} (hf : s.fault = false) :
    packetCommand s = match packet s.packetAttempt with
      | .ok _ t => ({ t with pktCount := 1 }.commit 1).respond (Response.success 0 1 0 0)
      | .raise c t => t.discard.fail c := accept_ok _ hf

/-- PACKET where its attempt completes the packet `p`: its events, then the response. -/
theorem packetCommand_completes {s t : State} {p : Packet} (hf : s.fault = false) (hp : packet s.packetAttempt = .ok () t)
    (hev : t.provisional = p.events) :
    packetCommand s = { t with
      pktCount := 1, provisional := [], busy := false
      delivered := s.delivered ++ p.events.map .event ++ [.response (Response.success 0 1 0 0)] } := by
  have hm := (packet_moved s.packetAttempt).1
  rw [hp] at hm
  have hdel : t.delivered = s.delivered := hm.delivered
  have hcommit : committedPrefix 1 0 p.events = p.events := by
    simpa [packetsEvents] using committedPrefix_packets [p] []
  rw [packetCommand_eq hf, hp]
  simp only [State.respond, State.commit, hev, hcommit, hdel]

/-- PACKET on a well-formed packet at the cursor. -/
theorem packetCommand_of_bits {s : State} {p : Packet} (hf : s.fault = false) (hstk : s.stk = []) (hp : p.wellFormed = true)
    (hd : p.nesting ≤ s.cfg.stackDepth) (hb : s.BitsAt s.bitOffset p.bits) :
    ∃ t, packet s.packetAttempt = .ok () t ∧ t.bitOffset = s.bitOffset + p.bits.length ∧
      packetCommand s = { t with
        pktCount := 1, provisional := [], busy := false
        delivered := s.delivered ++ p.events.map .event ++ [.response (Response.success 0 1 0 0)] } := by
  obtain ⟨t, hpk, hoff, hev⟩ := packet_of_bits (s := s.packetAttempt) hstk hp hd (hb.congr rfl rfl)
  exact ⟨t, hpk, hoff, packetCommand_completes hf hpk hev⟩

/-- Settles O36: the attempt completes, and an attempt leaves the engine idle with no frame open. -/
theorem packetDecodesEveryPacket : Obligations.PacketDecodesEveryPacket := by
  intro s p hf hstk hp hd hb
  obtain ⟨t, hpk, hoff, hcmd⟩ := packetCommand_of_bits hf hstk hp hd hb
  obtain ⟨hm, hidle⟩ := packet_moved s.packetAttempt
  have hframe := packet_noFrame s.packetAttempt
  rw [hpk] at hm hidle hframe
  exact ⟨_, (exec_packet s).trans (congrArg _ hcmd), hoff, rfl, rfl, hm.attemptStart, hm.fault.trans hf, hframe, hidle, rfl, rfl⟩

/-- Settles O37: such an operator is a well-formed packet with no children. -/
theorem emptyOperatorAccepted : Obligations.EmptyOperatorAccepted := by
  intro s v t hf hstk hd ht
  have ht' : ¬ t = 4#3 := ht
  refine ⟨fun hb => ?_, fun hb => ?_⟩
  · obtain ⟨u, -, hoff, hcmd⟩ := packetCommand_of_bits (p := .operator v t .totalBits 0 []) hf hstk
      (by simp [Packet.wellFormed, packetsWellFormed, packetsBits, ht']) hd (by simpa [Packet.bits, packetsBits] using hb)
    refine ⟨_, (exec_packet s).trans (congrArg _ hcmd), by simpa [Packet.bits, packetsBits] using hoff, ?_⟩
    simp [Packet.events, packetsEvents]
  · obtain ⟨u, -, hoff, hcmd⟩ := packetCommand_of_bits (p := .operator v t .packetCount 0 []) hf hstk
      (by simp [Packet.wellFormed, packetsWellFormed, ht']) hd (by simpa [Packet.bits, packetsBits] using hb)
    refine ⟨_, (exec_packet s).trans (congrArg _ hcmd), by simpa [Packet.bits, packetsBits] using hoff, ?_⟩
    simp [Packet.events, packetsEvents]

/-- Settles O38: after the literal the cursor is past `end_offset`, so `PG_NEXT` closes the operator. -/
theorem overrunningChildAccepted : Obligations.OverrunningChildAccepted := by
  intro s v t w l x g hf hstk hd ht hwf hl hlong hb
  obtain ⟨hg, hx⟩ := Packet.wellFormed_literal.mp hwf
  have hb' : s.packetAttempt.BitsAt s.packetAttempt.bitOffset (headerM0Bits t v l ++ (Packet.literal w x g).bits) :=
    hb.congr rfl rfl
  have hhead := (Reaches.start (.refl s.packetAttempt) hstk).headerM0 ht hd hb'.left
  have hmore : (Frame.opened .totalBits l (s.bitOffset + 22)).WantsChild (s.bitOffset + 22) :=
    show s.bitOffset + 22 < s.bitOffset + 22 + l.toNat by omega
  have hlit := ((hhead.child hmore).literal hg hx (hb'.past (headerM0Bits_length _ _ _))).childEnded
  have hnone : ¬ (Frame.opened .totalBits l (s.bitOffset + 22)).childStarted.childEnded.WantsChild
      (s.bitOffset + 22 + (6 + 5 * g.toNat)) :=
    show ¬ s.bitOffset + 22 + (6 + 5 * g.toNat) < s.bitOffset + 22 + l.toNat by omega
  obtain ⟨u, hat, he⟩ := (hlit.close hnone).ends
  have hpk : packet s.packetAttempt = .ok () u := by rw [packet_eq, he]
  have hcmd := packetCommand_completes (p := .operator v t .totalBits l [.literal w x g]) hf hpk
    (by simp [hat.provisional, Packet.events, packetsEvents, State.packetAttempt, Frame.childEnded, Frame.opened])
  refine ⟨_, (exec_packet s).trans (congrArg _ hcmd), ?_, ?_⟩
  · have hoff : u.bitOffset = s.bitOffset + 22 + (6 + 5 * g.toNat) := hat.bitOffset
    simp only [hoff]
    omega
  · simp [Packet.events, packetsEvents]

end Sys2Proof.Machine
end

section
/-! How an attempt fails: which visit raised, with which cause and where the cursor is then (R148, R153, R154, R202 to
R206). -/

namespace Sys2Proof.Machine

/-- Settles O35: `packet_eq_ok` has the bits that a completed attempt has taken. -/
theorem packetTakesElevenBits : Obligations.PacketTakesElevenBits := fun _ _ h => (packet_eq_ok h).1

/-- How a raise leaves a micro-operation that began in `s`: out of bits with the cursor at the end of the buffer, or at a varint
group or a push, where the five bits of a group or more are behind the cursor. -/
inductive Raised (s : State) : Cause → State → Prop where
  | exhausted {t : State} (h : t.bitOffset = max s.bitOffset (8 * s.len)) : Raised s .exhausted t
  | varintOverflow {t : State} (hs : s.pgState = .literal) (h : s.bitOffset + 5 ≤ t.bitOffset) : Raised s .varintOverflow t
  | stackOverflow {t : State} (hs : s.pgState = .len15 ∨ s.pgState = .len11) (h : s.bitOffset + 11 ≤ t.bitOffset)
      (hfull : s.sp = s.cfg.stackDepth) : Raised s .stackOverflow t

theorem consume_raised {W count : Nat} (hw : count ≤ W) {s t : State} {c : Cause} (h : consume W count s = .raise c t) :
    Raised s c t := by
  rcases consume_cases s hw with ⟨-, hc⟩ | ⟨-, hc⟩ <;> rw [hc] at h <;> cases h
  exact .exhausted rfl

theorem pushOperator_raised {mode : LengthMode} {l : BitVec 15} {s u t : State} {c : Cause}
    (hs : s.pgState = .len15 ∨ s.pgState = .len11) (h : pushOperator mode l u = .raise c t) (hstk : u.stk = s.stk)
    (hcfg : u.cfg = s.cfg) (hoff : s.bitOffset + 11 ≤ u.bitOffset) : Raised s c t := by
  rcases pushOperator_cases mode l u with ⟨hd, hp⟩ | ⟨-, f, -, -, -, hp⟩ <;> rw [hp] at h <;> cases h
  rw [State.sp, hstk, hcfg] at hd
  exact .stackOverflow hs hoff hd

/-- Every action that raises (R152). -/
theorem pgAction_raised {s t : State} {c : Cause} (h : pgAction s = .raise c t) : Raised s c t := by
  cases hpg : s.pgState <;> simp only [pgAction, hpg, Micro.bind_eq_raise, reduceCtorEq, and_false, exists_false, or_false] at h
  case version => exact consume_raised (by decide) h
  case type => exact consume_raised (by decide) h
  case literal =>
    rcases varint_cases s with ⟨u, hv, -⟩ | ⟨u, hv, hu⟩ | ⟨u, hv, -, h5, -⟩ <;> rw [hv] at h <;> cases h
    · exact .exhausted (by rw [hu])
    · exact .varintOverflow hpg h5
  case ltype => exact consume_raised (by decide) h
  case len15 =>
    rcases h with h | ⟨l, u, hc, hp⟩
    · exact consume_raised (by decide) h
    · obtain rfl := consume_eq_ok hc
      exact pushOperator_raised (.inl hpg) hp rfl rfl (Nat.add_le_add_left (by decide) _)
  case len11 =>
    rcases h with h | ⟨l, u, hc, hp⟩
    · exact consume_raised (by decide) h
    · obtain rfl := consume_eq_ok hc
      exact pushOperator_raised (.inr hpg) hp rfl rfl (Nat.le_refl _)

/-- A run that raises does so in a visit, before which every property that successful actions keep still holds. -/
theorem engineRun_raise_induction {P : State → Prop}
    (visit : ∀ s t, P s → s.pgState ≠ .idle → pgAction s = .ok () t → P t) {s t : State} {c : Cause} (hs : P s)
    (h : engineRun s = .raise c t) : ∃ u, P u ∧ pgAction u = .raise c t := by
  induction hn : s.engineWork using Nat.strong_induction_on generalizing s with
  | _ n ih =>
    subst hn
    rw [engineRun_eq] at h
    split_ifs at h with hi
    rcases Micro.bind_eq_raise.mp h with hr | ⟨_, u, hu, hr⟩
    · exact ⟨s, hs, hr⟩
    · exact ih _ ((pgAction_visited s hi).less u hu) (visit s u hs hi hu) hr rfl

/-! ### Frames are paid for -/

/-- The bits of its packet's header that a control state has read. -/
def PgState.headerRead : PgState → Nat
  | .type => 3
  | .literal | .ltype => 6
  | .len15 | .len11 => 7
  | .idle | .version | .next | .close | .done => 0

/-- Each open operator, and the header that is being read, has its bits before the cursor (R154). -/
def FramesPaid (s : State) : Prop := 18 * s.sp + s.pgState.headerRead ≤ s.bitOffset

/-- Where no frame is opened, it is enough that a header's bits count as read only when they are. -/
theorem FramesPaid.of_le {s t : State} (h : FramesPaid s) (hsp : t.sp ≤ s.sp)
    (hread : s.bitOffset + t.pgState.headerRead ≤ t.bitOffset + s.pgState.headerRead) : FramesPaid t := by
  simp only [FramesPaid] at *
  omega

theorem pushOperator_framesPaid {mode : LengthMode} {l : BitVec 15} {s t : State} (hs : 18 * (s.sp + 1) ≤ s.bitOffset)
    (h : pushOperator mode l s = .ok () t) : FramesPaid t := by
  rcases pushOperator_cases mode l s with ⟨-, hp⟩ | ⟨-, f, -, -, -, hp⟩ <;> rw [hp] at h <;> cases h
  exact hs

theorem nextChild_framesPaid {s : State} (hs : FramesPaid s) : FramesPaid (nextChild s) := by
  unfold nextChild
  split
  · exact hs.of_le (Nat.le_refl _) (Nat.le_add_right _ _)
  · rename_i f rest hstk
    have hsp : rest.length + 1 ≤ s.sp := by rw [State.sp, hstk, List.length_cons]
    split <;> split_ifs
    · exact hs.of_le (Nat.le_refl _) (Nat.le_add_right _ _)
    · exact hs.of_le (Nat.le_refl _) (Nat.le_add_right _ _)
    · exact hs.of_le hsp (Nat.le_add_right _ _)
    · exact hs.of_le (Nat.le_refl _) (Nat.le_add_right _ _)

theorem closeOperator_framesPaid {s : State} (hs : FramesPaid s) : FramesPaid (closeOperator s) := by
  unfold closeOperator
  split
  · exact hs.of_le (Nat.le_refl _) (Nat.le_add_right _ _)
  · rename_i f rest hstk
    exact hs.of_le (by simp [State.sp, hstk]) (Nat.le_add_right _ _)

theorem packetDone_framesPaid {s : State} (hs : FramesPaid s) : FramesPaid (packetDone s) := by
  unfold packetDone
  split
  · exact hs.of_le (Nat.le_refl _) (Nat.le_add_right _ _)
  · rename_i f rest hstk
    exact hs.of_le (by simp [State.sp, hstk]) (Nat.le_add_right _ _)

theorem pgAction_framesPaid {s t : State} (hs : FramesPaid s) (h : pgAction s = .ok () t) : FramesPaid t := by
  cases hpg : s.pgState <;> simp only [pgAction, hpg, Micro.bind_eq_ok, Micro.ok.injEq, true_and] at h
  case idle => exact h ▸ hs
  case version =>
    obtain ⟨v, u, hc, rfl⟩ := h
    obtain rfl := consume_eq_ok hc
    exact hs.of_le (Nat.le_refl _) (by simp [hpg, PgState.headerRead])
  case type =>
    obtain ⟨v, u, hc, rfl⟩ := h
    obtain rfl := consume_eq_ok hc
    exact hs.of_le (Nat.le_refl _) (by split_ifs <;> simp [hpg, PgState.headerRead])
  case literal =>
    obtain ⟨r, u, hv, rfl⟩ := h
    have hm := varint_ok_moved hv
    have hstk : u.stk = s.stk := by
      rcases varint_cases s with ⟨w, hw, hu, -⟩ | ⟨w, hw, -⟩ | ⟨w, hw, -⟩ <;> rw [hw] at hv <;> cases hv
      rw [hu]
    exact hs.of_le (by simp [finishLiteral, hstk]) (Nat.le_add_right_of_le hm.forward)
  case ltype =>
    obtain ⟨v, u, hc, rfl⟩ := h
    obtain rfl := consume_eq_ok hc
    exact hs.of_le (Nat.le_refl _) (by split_ifs <;> simp [hpg, PgState.headerRead])
  case len15 =>
    obtain ⟨v, u, hc, hp⟩ := h
    obtain rfl := consume_eq_ok hc
    simp only [FramesPaid, hpg, PgState.headerRead] at hs
    exact pushOperator_framesPaid (show 18 * (s.sp + 1) ≤ s.bitOffset + 15 by omega) hp
  case len11 =>
    obtain ⟨v, u, hc, hp⟩ := h
    obtain rfl := consume_eq_ok hc
    simp only [FramesPaid, hpg, PgState.headerRead] at hs
    exact pushOperator_framesPaid (show 18 * (s.sp + 1) ≤ s.bitOffset + 11 by omega) hp
  case next => exact h ▸ nextChild_framesPaid hs
  case close => exact h ▸ closeOperator_framesPaid hs
  case done => exact h ▸ packetDone_framesPaid hs

/-! ### The attempt -/

/-- What holds at every visit of an attempt that began in `s` at `PG_VERSION`, before the visit that raises. -/
structure Visiting (s u : State) : Prop where
  moved : Moved s u
  onward : Onward { s with pgState := .version } u
  framesPaid : s.stk = [] → FramesPaid u

/-- An attempt that raises (R153): the visit that raised, after which the engine is unwound. -/
theorem packet_raised {s t : State} {c : Cause} (h : packet s = .raise c t) :
    ∃ u v, Visiting s u ∧ Raised u c v ∧ Moved u v ∧ t = v.unwind := by
  rw [packet_eq] at h
  cases hr : engineRun { s with pgState := .version } with
  | ok u v => rw [hr] at h; cases h
  | raise c v =>
    rw [hr] at h
    cases h
    have h0 : Visiting s { s with pgState := .version } :=
      { moved := (Moved.refl s).work_of (by rfl)
        onward := ⟨Nat.le_refl _, nofun⟩
        framesPaid := fun hk => by simp [FramesPaid, State.sp, hk, PgState.headerRead] }
    obtain ⟨u, hu, hact⟩ := engineRun_raise_induction (P := Visiting s)
      (fun a b ha hi hab =>
        { moved := ha.moved.trans (by have := pgAction_moved a; rwa [hab] at this)
          onward := ha.onward.trans (pgAction_onward hi hab)
          framesPaid := fun hk => pgAction_framesPaid (ha.framesPaid hk) hab }) h0 hr
    have hm := pgAction_moved u
    rw [hact] at hm
    exact ⟨u, v, hu, pgAction_raised hact, hm, rfl⟩

/-- The causes of an attempt that raises, and where its cursor is (R212): at the end of the buffer, or at least eleven bits
ahead (R164). -/
theorem packet_raise_cases {s t : State} {c : Cause} (h : packet s = .raise c t) :
    c = .exhausted ∧ t.bitOffset = max s.bitOffset (8 * s.len) ∨
      (c = .varintOverflow ∨ c = .stackOverflow) ∧ s.bitOffset + 11 ≤ t.bitOffset := by
  obtain ⟨u, v, hu, hr, hm, rfl⟩ := packet_raised h
  have hpaid : s.bitOffset + 11 ≤ u.bitOffset + u.pgState.bitsOwed := hu.onward.paid
  have hf := hu.moved.forward
  have hb := hu.moved.bounded
  cases hr with
  | exhausted hv =>
    rw [hu.moved.len] at hv
    exact .inl ⟨rfl, by simp only [State.unwind_bitOffset, hv]; omega⟩
  | varintOverflow hs hv =>
    rw [hs, PgState.bitsOwed] at hpaid
    exact .inr ⟨.inl rfl, hpaid.trans hv⟩
  | stackOverflow hs hv hfull =>
    have howed : u.pgState.bitsOwed = 5 := by rcases hs with hs | hs <;> rw [hs] <;> rfl
    rw [howed] at hpaid
    exact .inr ⟨.inr rfl, by simp only [State.unwind_bitOffset]; omega⟩

/-- Settles O33: the operators open at a push that found no frame free, and the header before it, have taken eighteen bits
each, which are more than the buffer has. -/
theorem deepEnoughStackNeverOverflows : Obligations.DeepEnoughStackNeverOverflows := by
  intro s t hinv hdeep h
  obtain ⟨u, v, hu, hr, hm, -⟩ := packet_raised h
  cases hr with
  | stackOverflow hs hv hfull =>
    have hpaid := hu.framesPaid hinv.boundary.noFrame
    have hread : u.pgState.headerRead = 7 := by rcases hs with hs | hs <;> rw [hs] <;> rfl
    have hb := hu.moved.bounded
    have hb' := hm.bounded
    have hcur := hinv.cursorBound
    have hlen := hinv.lenBound
    rw [FramesPaid, hread, hfull, hu.moved.cfg] at hpaid
    rw [hu.moved.len] at hb'
    simp only [State.endOfBuffer] at hcur
    omega

end Sys2Proof.Machine
end

section
/-! The recursive algorithm: causes it never raises (R148), and what a limit on nesting changes (R154, R155). -/

namespace Sys2Proof.Machine

/-! ### Type ids -/

/-- The micro-operation does not raise `UnknownType`. -/
def TypesKnown {α : Type} (m : Micro α) : Prop := ∀ t, m ≠ .raise .unknownType t

theorem TypesKnown.ok {α : Type} (a : α) (s : State) : TypesKnown (.ok a s) := nofun

theorem TypesKnown.bind {α β : Type} {m : Micro α} {f : α → State → Micro β} (hm : TypesKnown m)
    (hf : ∀ a s, TypesKnown (f a s)) : TypesKnown (m.bind f) := by
  cases m with
  | ok a s => exact hf a s
  | raise c s => exact fun t h => hm s (by cases h; rfl)

theorem consume_typesKnown {W count : Nat} (hw : count ≤ W) (s : State) : TypesKnown (consume W count s) := by
  rcases consume_cases s hw with ⟨-, hc⟩ | ⟨-, hc⟩ <;> rw [hc] <;> exact nofun

theorem varint_typesKnown (s : State) : TypesKnown (varint s) := by
  rcases varint_cases s with ⟨t, hv, -⟩ | ⟨t, hv, -⟩ | ⟨t, hv, -⟩ <;> rw [hv] <;> exact nofun

theorem packetRec_typesKnown (limit : Option Nat) (rounds : Nat) :
    (∀ opened s, TypesKnown (packetRec limit rounds opened s)) ∧
      ∀ opened f s, TypesKnown (childrenRec limit rounds opened f s) := by
  induction rounds with
  | zero =>
    refine ⟨fun opened s => ?_, fun opened f s => ?_⟩
    · rw [packetRec_zero]
      exact nofun
    · rw [childrenRec_zero]
      exact nofun
  | succ rounds ih =>
    obtain ⟨hpacket, hchildren⟩ := ih
    have hoperator : ∀ opened ver tid mode l s, TypesKnown (operatorRec limit rounds opened ver tid mode l s) := by
      intro opened ver tid mode l s
      unfold operatorRec
      split_ifs
      · exact nofun
      · exact (hchildren _ _ _).bind fun _ _ => .ok _ _
    refine ⟨fun opened s => ?_, fun opened f s => ?_⟩
    · rw [packetRec_succ]
      refine (consume_typesKnown (by decide) s).bind fun v s => (consume_typesKnown (by decide) s).bind fun t s => ?_
      split_ifs
      · exact (varint_typesKnown s).bind fun _ _ => .ok _ _
      · refine (consume_typesKnown (by decide) s).bind fun m s => ?_
        split_ifs
        · exact (consume_typesKnown (by decide) s).bind fun _ _ => hoperator _ _ _ _ _ _
        · exact (consume_typesKnown (by decide) s).bind fun _ _ => hoperator _ _ _ _ _ _
    · by_cases hf : f.WantsChild s.bitOffset
      · rw [childrenRec_more hf]
        exact (hpacket _ _).bind fun _ _ => (hchildren _ _ _).bind fun _ _ => .ok _ _
      · rw [childrenRec_none hf]
        exact .ok _ _

/-- Settles O34: the causes of the engine are those of `packet_raise_cases`, and the algorithm's type-id check never fires. -/
theorem unknownTypeNeverRaised : Obligations.UnknownTypeNeverRaised := by
  refine ⟨fun s t c h => ?_, fun limit s t => (packetRec_typesKnown limit _).1 0 s t⟩
  rcases packet_raise_cases h with ⟨rfl, -⟩ | ⟨rfl | rfl, -⟩
  · exact .inl rfl
  · exact .inr (.inl rfl)
  · exact .inr (.inr rfl)

/-! ### The limit on nesting -/

/-- `m'` is `m` under a limit: it ends alike, with a result that fits the limit if `m` returns one, or it raises `StackOverflow`
where `m` returns nothing that fits. -/
def Restricts {α : Type} (Fits : α → Prop) (m m' : Micro α) : Prop :=
  m' = m ∧ (∀ a u, m = .ok a u → Fits a) ∨ (∃ v, m' = .raise .stackOverflow v) ∧ ∀ a u, m = .ok a u → ¬ Fits a

theorem Restricts.ok {α : Type} {Fits : α → Prop} {a : α} {s : State} (h : Fits a) : Restricts Fits (.ok a s) (.ok a s) :=
  .inl ⟨rfl, fun b u hb => by cases hb; exact h⟩

/-- A read, which no limit concerns, and what follows it. -/
theorem Restricts.after_read {α β : Type} {Fits : β → Prop} (m : Micro α) {f f' : α → State → Micro β}
    (h : ∀ a s, Restricts Fits (f a s) (f' a s)) : Restricts Fits (m.bind f) (m.bind f') := by
  cases m with
  | ok a s => exact h a s
  | raise c s => exact .inl ⟨rfl, nofun⟩

/-- One part after another: what does not fit after the first part does not fit in the end. -/
theorem Restricts.bind {α β : Type} {Fits : α → Prop} {Fits' : β → Prop} {m m' : Micro α} {f f' : α → State → Micro β}
    (h : Restricts Fits m m') (hf : ∀ a s, Fits a → Restricts Fits' (f a s) (f' a s))
    (hnot : ∀ a s b u, ¬ Fits a → f a s = .ok b u → ¬ Fits' b) : Restricts Fits' (m.bind f) (m'.bind f') := by
  rcases h with ⟨rfl, hfits⟩ | ⟨⟨v, rfl⟩, hnfits⟩
  · cases m' with
    | ok a s => exact hf a s (hfits a s rfl)
    | raise c s => exact .inl ⟨rfl, nofun⟩
  · refine .inr ⟨⟨v, rfl⟩, fun b u hb => ?_⟩
    obtain ⟨a, s, rfl, hfa⟩ := Micro.bind_eq_ok.mp hb
    exact hnot a s b u (hnfits a s rfl) hfa

theorem packetRec_restricts (d rounds : Nat) :
    (∀ opened s, opened ≤ d →
        Restricts (fun p : Packet => opened + p.nesting ≤ d) (packetRec none rounds opened s)
          (packetRec (some d) rounds opened s)) ∧
      ∀ opened f s, opened ≤ d →
        Restricts (fun ps : List Packet => opened + packetsNesting ps ≤ d) (childrenRec none rounds opened f s)
          (childrenRec (some d) rounds opened f s) := by
  induction rounds with
  | zero =>
    refine ⟨fun opened s _ => ?_, fun opened f s _ => ?_⟩
    · rw [packetRec_zero, packetRec_zero]
      exact .inl ⟨rfl, nofun⟩
    · rw [childrenRec_zero, childrenRec_zero]
      exact .inl ⟨rfl, nofun⟩
  | succ rounds ih =>
    obtain ⟨hpacket, hchildren⟩ := ih
    have hoperator : ∀ opened ver tid mode l s, opened ≤ d →
        Restricts (fun p : Packet => opened + p.nesting ≤ d) (operatorRec none rounds opened ver tid mode l s)
          (operatorRec (some d) rounds opened ver tid mode l s) := by
      intro opened ver tid mode l s hle
      rw [operatorRec, operatorRec, if_neg nofun]
      by_cases hfull : d = opened
      · rw [if_pos (congrArg some hfull)]
        refine .inr ⟨⟨s, rfl⟩, fun p u hp => ?_⟩
        obtain ⟨kids, w, -, hk⟩ := Micro.bind_eq_ok.mp hp
        cases hk
        simp only [Packet.nesting]
        omega
      · rw [if_neg (by simpa using hfull)]
        refine (hchildren _ _ _ (by omega)).bind (fun kids w hk => .ok ?_) fun kids w p u hk hp => ?_
        · simp only [Packet.nesting]
          omega
        · cases hp
          simp only [Packet.nesting]
          omega
    refine ⟨fun opened s hle => ?_, fun opened f s hle => ?_⟩
    · rw [packetRec_succ, packetRec_succ]
      refine .after_read _ fun v s => .after_read _ fun t s => ?_
      split_ifs
      · exact .after_read _ fun r s => .ok (by simpa [Packet.nesting] using hle)
      · refine .after_read _ fun m s => ?_
        split_ifs
        · exact .after_read _ fun l s => hoperator _ _ _ _ _ _ hle
        · exact .after_read _ fun c s => hoperator _ _ _ _ _ _ hle
    · by_cases hf : f.WantsChild s.bitOffset
      · rw [childrenRec_more hf, childrenRec_more hf]
        refine (hpacket _ _ hle).bind (fun p s hp => ?_) fun p s ps u hp hps => ?_
        · refine (hchildren _ _ _ hle).bind (fun ps w hps => .ok ?_) fun ps w qs u hps hqs => ?_
          · simp only [packetsNesting]
            omega
          · cases hqs
            simp only [packetsNesting]
            omega
        · obtain ⟨qs, w, -, hq⟩ := Micro.bind_eq_ok.mp hps
          cases hq
          simp only [packetsNesting]
          omega
      · rw [childrenRec_none hf, childrenRec_none hf]
        exact .ok (by simpa [packetsNesting] using hle)

/-- The algorithm under a limit (R155). -/
theorem packetReference_restricts (d : Nat) (s : State) :
    Restricts (fun p : Packet => p.nesting ≤ d) (packetReference none s) (packetReference (some d) s) := by
  simpa only [Nat.zero_add, packetReference] using (packetRec_restricts d (s.remaining + 1)).1 0 s (Nat.zero_le d)

/-- Settles O32: the two ways in which the limited algorithm can differ are those of `Restricts`. -/
theorem depthLimitOnlyRestricts : Obligations.DepthLimitOnlyRestricts := by
  intro s d
  rcases packetReference_restricts d s with ⟨heq, hfits⟩ | ⟨⟨v, hv⟩, hnot⟩
  · rw [heq]
    refine ⟨fun p u hp => ?_, fun p u hp => ⟨hfits p u hp, hp⟩, fun c u hc _ => hc⟩
    rw [if_pos (hfits p u hp)]
    exact hp
  · rw [hv]
    refine ⟨fun p u hp => ?_, nofun, fun c u hc hne => ?_⟩
    · rw [if_neg (hnot p u hp)]
      exact ⟨v, rfl⟩
    · cases hc
      exact absurd rfl hne

end Sys2Proof.Machine
end

section
/-! PACKET in every case (R156, R157, R212), and what PACKET and STREAM leave alone (R21, R24). -/

namespace Sys2Proof.Machine

/-! ### Attempts -/

/-- A completed attempt with no frame open has emitted the events of one packet (R79, R155). -/
theorem packet_ok_events {s t : State} (hstk : s.stk = []) (h : packet s = .ok () t) :
    ∃ p : Packet, t.provisional = s.provisional ++ p.events ∧ p.nesting ≤ s.cfg.stackDepth := by
  have ht := packet_tracks (.refl s) hstk
  rw [h] at ht
  cases hp : packetReference (some s.cfg.stackDepth) s with
  | ok p u =>
    rw [hp] at ht
    obtain ⟨-, t', he, hat⟩ := ht
    cases he
    exact ⟨p, hat.provisional, ((depthLimitOnlyRestricts s _).2.1 p u hp).1⟩
  | raise c u =>
    rw [hp] at ht
    obtain ⟨t', he, -⟩ := ht
    cases he

theorem packet_raise_not_sticky {s t : State} {c : Cause} (h : packet s = .raise c t) : c.sticky = false := by
  rcases packet_raise_cases h with ⟨rfl, -⟩ | ⟨rfl | rfl, -⟩ <;> rfl

theorem fail_not_sticky {c : Cause} (h : c.sticky = false) (s : State) :
    s.discard.fail c = { s with
      provisional := [], busy := false, delivered := s.delivered ++ [.response (Response.failure c)] } := by
  simp [State.fail, State.respond, State.latch, State.discard, h]

/-- PACKET where its attempt raises: nothing is committed (R156). -/
theorem packetCommand_raises {s t : State} {c : Cause} (hf : s.fault = false) (h : packet s.packetAttempt = .raise c t) :
    packetCommand s = { t with
      provisional := [], busy := false, delivered := s.delivered ++ [.response (Response.failure c)] } := by
  have hm := (packet_moved s.packetAttempt).1
  rw [h] at hm
  have hdel : t.delivered = s.delivered := hm.delivered
  rw [packetCommand_eq hf, h]
  simp only [fail_not_sticky (packet_raise_not_sticky h), hdel]

/-- Settles O39: the one attempt completes a packet, or raises as `packet_raise_cases` says. -/
theorem packetCommandOutcome : Obligations.PacketCommandOutcome := by
  intro s hf hstk hin
  obtain ⟨hm, hidle⟩ := packet_moved s.packetAttempt
  have hframe := packet_noFrame s.packetAttempt
  have hforward : s.bitOffset ≤ (packet s.packetAttempt).state.bitOffset := hm.forward
  have hbounded : (packet s.packetAttempt).state.bitOffset ≤ max s.bitOffset (8 * s.len) := hm.bounded
  rw [Nat.max_eq_right hin] at hbounded
  rw [exec_packet]
  cases hp : packet s.packetAttempt with
  | ok u t =>
    rw [hp] at hidle hframe hforward hbounded
    obtain ⟨p, hev, hnest⟩ := packet_ok_events (s := s.packetAttempt) hstk hp
    rw [packetCommand_completes hf hp (by simpa [State.packetAttempt] using hev)]
    exact ⟨_, p.events, _, rfl, rfl, hframe, hidle, rfl, hforward, hbounded, .inl ⟨rfl, p, rfl, hnest⟩⟩
  | raise c t =>
    rw [hp] at hidle hframe hforward hbounded
    rw [packetCommand_raises hf hp]
    refine ⟨_, [], .failure c, rfl, by simp, hframe, hidle, rfl, hforward, hbounded, ?_⟩
    rcases packet_raise_cases hp with ⟨rfl, hend⟩ | ⟨rfl | rfl, -⟩
    · exact .inr (.inl ⟨rfl, rfl, hend.trans (Nat.max_eq_right hin)⟩)
    · exact .inr (.inr (.inl ⟨rfl, rfl⟩))
    · exact .inr (.inr (.inr ⟨rfl, rfl⟩))

/-! ### The frame -/

theorem exec_stream (s : State) : exec .stream s = .next (streamCommand s) := rfl

theorem accept_fault {s : State} {body : State → State} (h : (body { s with busy := true }).fault = s.fault) :
    (s.accept body).fault = s.fault := by
  unfold State.accept
  dsimp only
  split_ifs with hf
  · simp [Cause.sticky]
  · exact h

theorem packetCommand_fault (s : State) : (packetCommand s).fault = s.fault := by
  refine accept_fault ?_
  have hm := (packet_moved s.packetAttempt).1
  dsimp only
  cases hp : packet s.packetAttempt with
  | ok u t =>
    rw [hp] at hm
    simp only [State.packetAttempt] at hp
    rw [hp]
    exact hm.fault
  | raise c t =>
    have hc := packet_raise_not_sticky hp
    rw [hp] at hm
    simp only [State.packetAttempt] at hp
    rw [hp]
    have hfault : t.fault = s.fault := hm.fault
    simp [hc, hfault]

theorem streamLoop_fault (attempts : Nat) (s : State) : (streamLoop attempts s).fault = s.fault := by
  induction attempts generalizing s with
  | zero => rfl
  | succ attempts ih =>
    have hm := (packet_moved { s with attemptStart := s.bitOffset }).1
    rw [streamLoop]
    cases hp : packet { s with attemptStart := s.bitOffset } with
    | ok u t =>
      rw [hp] at hm
      exact (ih _).trans hm.fault
    | raise c t =>
      have hc := packet_raise_not_sticky hp
      rw [hp] at hm
      cases c
      case exhausted => exact hm.fault
      all_goals
        have hfault : t.fault = s.fault := hm.fault
        simp [hc, hfault]

/-- Settles O40: what every command that answers keeps, with the latch, which no cause of the engine sets. -/
theorem packetAndStreamFrame : Obligations.PacketAndStreamFrame := by
  intro s t h
  obtain ⟨hans, hinbox, hfault⟩ : Answered s t ∧ t.inbox = s.inbox ∧ t.fault = s.fault := by
    rcases h with h | h
    · obtain rfl := Host.Outcome.next.inj h
      exact ⟨packetCommand_answered s, (packetCommand_answeredOnce s).inbox, packetCommand_fault s⟩
    · obtain rfl := Host.Outcome.next.inj h
      exact ⟨streamCommand_answered s, (Reader.stream.answeredOnce s).inbox, accept_fault (streamLoop_fault _ _)⟩
  refine ⟨?_, fun a => by rw [hans.buf, hans.hostMem]; exact ⟨rfl, rfl⟩⟩
  rw [← hans.cfg, ← hans.buf, ← hans.len, ← hans.hostMem, ← hinbox, ← hfault, ← hans.notBusy]

end Sys2Proof.Machine
end

section
/-! What an attempt emits is added behind what the command has emitted before, however the attempt ends (R79, R160). -/

namespace Sys2Proof.Machine

/-- `t` has emitted all that `s` has, and perhaps more after it. -/
def Appends (s t : State) : Prop := s.provisional <+: t.provisional

theorem Appends.of_eq {s t : State} (h : t.provisional = s.provisional) : Appends s t := ⟨[], (List.append_nil _).trans h.symm⟩

theorem Appends.of_append {s t : State} {es : List Event} (h : t.provisional = s.provisional ++ es) : Appends s t :=
  ⟨es, h.symm⟩

theorem consume_bind_appends {W count : Nat} {α : Type} {f : BitVec W → State → Micro α} {s : State}
    (hf : ∀ v t, Appends t (f v t).state) : Appends s ((consume W count s).bind f).state := by
  refine Micro.bind_keeps (R := Appends) List.IsPrefix.trans ?_ hf
  obtain ⟨n, hn, -⟩ := consume_state W count s
  exact .of_eq (by rw [hn])

theorem pushOperator_appends (mode : LengthMode) (l : BitVec 15) (s : State) :
    Appends s (pushOperator mode l s).state := by
  rcases pushOperator_cases mode l s with ⟨-, hp⟩ | ⟨-, f, -, -, -, hp⟩ <;> rw [hp]
  · exact .of_eq rfl
  · exact .of_append rfl

theorem nextChild_provisional (s : State) : (nextChild s).provisional = s.provisional := by
  unfold nextChild
  split
  · rfl
  · split <;> split_ifs <;> rfl

theorem closeOperator_appends (s : State) : Appends s (closeOperator s) := by
  unfold closeOperator
  split
  · exact .of_eq rfl
  · exact .of_append rfl

theorem packetDone_provisional (s : State) : (packetDone s).provisional = s.provisional := by
  unfold packetDone
  split <;> rfl

/-- Every visit of a control state. -/
theorem pgAction_appends (s : State) : Appends s (pgAction s).state := by
  unfold pgAction
  cases s.pgState with
  | idle => exact .of_eq rfl
  | version | type | ltype => exact consume_bind_appends fun _ _ => .of_eq rfl
  | literal =>
    refine Micro.bind_keeps (R := Appends) List.IsPrefix.trans (.of_eq ?_) fun r t => .of_append rfl
    rcases varint_cases s with ⟨t, hv, ht, -⟩ | ⟨t, hv, ht⟩ | ⟨t, hv, ht, -⟩ <;> rw [hv, Micro.state, ht]
  | len15 | len11 => exact consume_bind_appends fun _ _ => pushOperator_appends _ _ _
  | next => exact .of_eq (nextChild_provisional s)
  | close => exact closeOperator_appends s
  | done => exact .of_eq (packetDone_provisional s)

/-- However an attempt ends, what was emitted before it stands. -/
theorem packet_appends (s : State) : Appends s (packet s).state := by
  have he := engineRun_induction (P := Appends s) (fun t ht _ => ht.trans (pgAction_appends t))
    { s with pgState := .version } (.of_eq rfl)
  rw [packet_eq]
  cases hr : engineRun { s with pgState := .version } <;> rw [hr] at he <;> exact he

end Sys2Proof.Machine
end

section
/-! STREAM (R158 to R161): the attempts it completes, the attempt that ends it, and what it answers. -/

namespace Sys2Proof.Machine

/-! ### The attempts -/

/-- The state in which STREAM makes the attempt that begins at the cursor (R158). -/
def State.attempt (s : State) : State := { s with attemptStart := s.bitOffset }

/-- STREAM's loop completes the packets `ps` from `s` on, and is then in `u`. -/
inductive Attempts : State → List Packet → State → Prop where
  | nil (s : State) : Attempts s [] s
  | cons {s t u : State} {p : Packet} {ps : List Packet} (hp : packet s.attempt = .ok () t)
      (hev : t.provisional = s.provisional ++ p.events) (h : Attempts { t with pktCount := t.pktCount + 1 } ps u) :
      Attempts s (p :: ps) u

/-- What completed attempts change and what they leave alone. -/
structure Attempted (s : State) (ps : List Packet) (u : State) : Prop where
  cfg : u.cfg = s.cfg
  buf : u.buf = s.buf
  len : u.len = s.len
  fault : u.fault = s.fault
  delivered : u.delivered = s.delivered
  pktCount : u.pktCount = s.pktCount + ps.length
  provisional : u.provisional = s.provisional ++ packetsEvents ps
  forward : s.bitOffset ≤ u.bitOffset
  bounded : u.bitOffset ≤ max s.bitOffset (8 * s.len)
  noFrame : s.stk = [] → u.stk = []
  run : streamRun s = streamRun u

theorem Attempts.attempted {s u : State} {ps : List Packet} (h : Attempts s ps u) : Attempted s ps u := by
  induction h with
  | nil s =>
    exact ⟨rfl, rfl, rfl, rfl, rfl, rfl, (List.append_nil _).symm, Nat.le_refl _, Nat.le_max_left _ _, id, rfl⟩
  | @cons s t u p ps hp hev h ih =>
    have hm := (packet_moved s.attempt).1
    have hstk := packet_noFrame s.attempt
    rw [hp] at hm hstk
    have hlen : t.len = s.len := hm.len
    have hforward : s.bitOffset ≤ t.bitOffset := hm.forward
    have hbounded : t.bitOffset ≤ max s.bitOffset (8 * s.len) := hm.bounded
    have hcount : t.pktCount = s.pktCount := hm.pktCount
    have hcount' : u.pktCount = t.pktCount + 1 + ps.length := ih.pktCount
    have hforward' : t.bitOffset ≤ u.bitOffset := ih.forward
    have hbounded' : u.bitOffset ≤ max t.bitOffset (8 * t.len) := ih.bounded
    exact
      { cfg := ih.cfg.trans hm.cfg
        buf := ih.buf.trans hm.buf
        len := ih.len.trans hm.len
        fault := ih.fault.trans hm.fault
        delivered := ih.delivered.trans hm.delivered
        pktCount := by rw [hcount', hcount, List.length_cons]; omega
        provisional := by rw [ih.provisional, packetsEvents, ← List.append_assoc, ← hev]
        forward := hforward.trans hforward'
        bounded := by rw [hlen] at hbounded'; omega
        noFrame := fun _ => ih.noFrame hstk
        run := by rw [← ih.run, streamRun_eq, ← State.attempt, hp] }

/-- Attempts are completed until one raises, since each takes bits. -/
theorem exists_attempts (s : State) (hstk : s.stk = []) :
    ∃ ps u c t, Attempts s ps u ∧ packet u.attempt = .raise c t := by
  induction hn : s.remaining using Nat.strong_induction_on generalizing s with
  | _ n ih =>
    subst hn
    cases hp : packet s.attempt with
    | raise c t => exact ⟨[], s, c, t, .nil s, hp⟩
    | ok x t =>
      obtain ⟨hforward, hframe⟩ := packet_eq_ok hp
      obtain ⟨p, hev, -⟩ := packet_ok_events (s := s.attempt) hstk hp
      have hm := (packet_moved s.attempt).1
      rw [hp] at hm
      have hlen : t.len = s.len := hm.len
      have hbounded : t.bitOffset ≤ max s.bitOffset (8 * s.len) := hm.bounded
      have hforward : s.bitOffset + 11 ≤ t.bitOffset := hforward
      obtain ⟨ps, u, c, v, h, hu⟩ := ih { t with pktCount := t.pktCount + 1 }.remaining
        (by simp only [State.remaining, hlen]; omega) { t with pktCount := t.pktCount + 1 } hframe rfl
      exact ⟨p :: ps, u, c, v, .cons hp hev h, hu⟩

/-! ### The answer -/

/-- The state in which STREAM's loop begins (R158). -/
def State.streamAttempts (s : State) : State := { s with busy := true, pktCount := 0, provisional := [] }

theorem streamCommand_eq {s : State} (hf : s.fault = false) : streamCommand s = streamRun s.streamAttempts := accept_ok _ hf

/-- A successful STREAM's response, `n` packets being complete and the last attempt having begun at bit `o` (R159, R161). -/
def streamResponse (s : State) (n o : Nat) : Response :=
  .success 0 (BitVec.ofNat 32 n) (if o = s.endOfBuffer then 1 else 2) (BitVec.ofNat 32 o)

/-- The last attempt runs out of bits: STREAM succeeds with the packets completed before it. -/
theorem Attempts.streamCommand_exhausted {s u t : State} {ps : List Packet} (hf : s.fault = false)
    (h : Attempts s.streamAttempts ps u) (hx : packet u.attempt = .raise .exhausted t) :
    streamCommand s = { t with
      pktCount := ps.length, attemptStart := u.bitOffset, provisional := [], busy := false
      delivered := s.delivered ++ (packetsEvents ps).map .event ++
        [.response (streamResponse s ps.length u.bitOffset)] } := by
  have ha := h.attempted
  have hm := (packet_moved u.attempt).1
  have happ := packet_appends u.attempt
  rw [hx] at hm happ
  obtain ⟨junk, hjunk⟩ := happ
  have hprov : t.provisional = packetsEvents ps ++ junk := by
    have happ : u.provisional ++ junk = t.provisional := hjunk
    rw [← happ, ha.provisional]
    rfl
  have hdel : t.delivered = s.delivered := hm.delivered.trans ha.delivered
  have hcount : t.pktCount = ps.length := hm.pktCount.trans (ha.pktCount.trans (Nat.zero_add _))
  have hstart : t.attemptStart = u.bitOffset := hm.attemptStart
  have hlen : t.len = s.len := hm.len.trans ha.len
  rw [streamCommand_eq hf, ha.run, streamRun_eq, ← State.attempt, hx]
  simp only [endStream, State.respond, State.commit, State.stopCause, streamResponse, State.endOfBuffer, hprov, hcount, hstart,
    hlen, hdel, committedPrefix_packets]

/-- An attempt overflows: STREAM fails, and nothing is committed. -/
theorem Attempts.streamCommand_overflows {s u t : State} {ps : List Packet} {c : Cause} (hf : s.fault = false)
    (h : Attempts s.streamAttempts ps u) (hx : packet u.attempt = .raise c t) (hc : c ≠ .exhausted) :
    streamCommand s = { t with
      provisional := [], busy := false, delivered := s.delivered ++ [.response (Response.failure c)] } := by
  have ha := h.attempted
  have hm := (packet_moved u.attempt).1
  rw [hx] at hm
  have hdel : t.delivered = s.delivered := hm.delivered.trans ha.delivered
  have hrun : streamCommand s = t.discard.fail c := by
    rw [streamCommand_eq hf, ha.run, streamRun_eq, ← State.attempt, hx]
    cases c
    case exhausted => exact absurd rfl hc
    all_goals rfl
  rw [hrun, fail_not_sticky (packet_raise_not_sticky hx), hdel]

/-- Settles O41: the attempts up to the first that raises, which ran out of bits or overflowed. -/
theorem streamCommandOutcome : Obligations.StreamCommandOutcome := by
  intro s hf hstk hin
  obtain ⟨ps, u, c, t, h, hx⟩ := exists_attempts s.streamAttempts hstk
  obtain ⟨-, hidle⟩ := packet_moved u.attempt
  have hframe := packet_noFrame u.attempt
  rw [hx] at hidle hframe
  have ha := h.attempted
  have hforward : s.bitOffset ≤ u.bitOffset := ha.forward
  have hlen : u.len = s.len := ha.len
  have hbounded : u.bitOffset ≤ max s.bitOffset (8 * s.len) := ha.bounded
  rw [Nat.max_eq_right hin] at hbounded
  rw [exec_stream]
  rcases packet_raise_cases hx with ⟨rfl, hend⟩ | ⟨hc, -⟩
  · have hend : t.bitOffset = s.endOfBuffer := by
      rw [hend, State.attempt, hlen]
      exact Nat.max_eq_right hbounded
    rw [h.streamCommand_exhausted hf hx]
    exact ⟨_, packetsEvents ps, _, rfl, rfl, hframe, hidle, rfl, .inl ⟨hend, hforward, hbounded, rfl⟩⟩
  · rw [h.streamCommand_overflows hf hx (by rcases hc with rfl | rfl <;> simp)]
    exact ⟨_, [], .failure c, rfl, by simp, hframe, hidle, rfl,
      .inr ⟨hc.imp (congrArg _) (congrArg _), rfl⟩⟩

theorem Cause.code_ne_zero (c : Cause) : c.code ≠ 0 := by cases c <;> decide

/-- Settles O42: the committed events are those of the completed attempts, and an overflow commits none. -/
theorem streamCommitsWholePackets : Obligations.StreamCommitsWholePackets := by
  intro s t hf hstk ht
  obtain rfl := Host.Outcome.next.inj ht
  obtain ⟨ps, u, c, v, h, hx⟩ := exists_attempts s.streamAttempts hstk
  by_cases hc : c = .exhausted
  · subst hc
    refine ⟨ps, streamResponse s ps.length u.bitOffset, ?_, fun _ => ⟨?_, rfl⟩, fun hr => absurd rfl hr⟩ <;>
      rw [← streamCommand, h.streamCommand_exhausted hf hx]
  · refine ⟨[], .failure c, ?_, fun hr => absurd hr (Cause.code_ne_zero c), fun _ => rfl⟩
    rw [← streamCommand, h.streamCommand_overflows hf hx hc]
    simp [packetsEvents]

end Sys2Proof.Machine
end

section
/-! STREAM on packets that stand in the buffer (R72 to R75, R158), and beside a PACKET on the same bits (R243). -/

namespace Sys2Proof.Machine

/-! ### Packets in the buffer -/

/-- Well-formed packets at the cursor are completed one after another. -/
theorem attempts_of_bits {ps : List Packet} {s : State} (hstk : s.stk = []) (hp : packetsWellFormed ps = true)
    (hd : packetsNesting ps ≤ s.cfg.stackDepth) (hb : s.BitsAt s.bitOffset (packetsBits ps)) :
    ∃ u, Attempts s ps u ∧ u.bitOffset = s.bitOffset + (packetsBits ps).length := by
  induction ps generalizing s with
  | nil => exact ⟨s, .nil s, rfl⟩
  | cons p ps ih =>
    obtain ⟨hp, hps⟩ := Bool.and_eq_true_iff.mp (by simpa [packetsWellFormed] using hp)
    obtain ⟨hd, hds⟩ := Nat.max_le.mp hd
    obtain ⟨t, hpk, hoff, hev⟩ := packet_of_bits (s := s.attempt) hstk hp hd (hb.left.congr rfl rfl)
    have hm := (packet_moved s.attempt).1
    have hframe := packet_noFrame s.attempt
    rw [hpk] at hm hframe
    have hoff : t.bitOffset = s.bitOffset + p.bits.length := hoff
    have hread : SameReader { s with bitOffset := s.bitOffset + p.bits.length } { t with pktCount := t.pktCount + 1 } :=
      ⟨hm.cfg, hm.buf, hm.len, hoff⟩
    obtain ⟨u, h, hu⟩ := ih (s := { t with pktCount := t.pktCount + 1 }) hframe hps
      (hds.trans (congrArg Config.stackDepth hm.cfg).ge) (hread.bitsAt (hb.past rfl))
    refine ⟨u, .cons hpk hev h, ?_⟩
    rw [hu, packetsBits, List.length_append, hoff, Nat.add_assoc]

/-- With fewer than eleven bits left an attempt runs out of them (R164). -/
theorem packet_short {s : State} (h : 8 * s.len < s.bitOffset + 11) : ∃ t, packet s = .raise .exhausted t := by
  have hm := (packet_moved s).1
  cases hp : packet s with
  | ok x t =>
    rw [hp] at hm
    have hb : t.bitOffset ≤ max s.bitOffset (8 * s.len) := hm.bounded
    have := (packet_eq_ok hp).1
    omega
  | raise c t =>
    rw [hp] at hm
    have hb : t.bitOffset ≤ max s.bitOffset (8 * s.len) := hm.bounded
    rcases packet_raise_cases hp with ⟨rfl, -⟩ | ⟨-, hfar⟩
    · exact ⟨t, rfl⟩
    · omega

/-- Settles O43: the packets are completed, and the attempt after them has fewer than eleven bits. -/
theorem streamDecodesEverySequence : Obligations.StreamDecodesEverySequence := by
  intro s ps hf hstk hp hd hb hshort
  obtain ⟨u, h, hoff⟩ := attempts_of_bits (s := s.streamAttempts) hstk hp hd (hb.congr rfl rfl)
  have ha := h.attempted
  have hoff : u.bitOffset = s.bitOffset + (packetsBits ps).length := hoff
  have hlen : u.len = s.len := ha.len
  obtain ⟨t, hx⟩ := packet_short (s := u.attempt) (by
    simp only [State.attempt, hlen, hoff]
    exact hshort)
  have hm := (packet_moved u.attempt).1
  rw [hx] at hm
  have hend : t.bitOffset = s.endOfBuffer := by
    rcases packet_raise_cases hx with ⟨-, hend⟩ | ⟨hc, -⟩
    · rw [hend, State.attempt, hlen, hoff]
      exact Nat.max_eq_right hb.inBuffer
    · simp at hc
  rw [exec_stream, h.streamCommand_exhausted hf hx, streamResponse, hoff]
  exact ⟨_, rfl, hend, (hm.fault.trans ha.fault).trans hf, rfl, rfl⟩

/-! ### The same bits in another state -/

theorem SameReader.attempt {a b : State} (h : SameReader a b) : SameReader a.attempt b.attempt :=
  ⟨h.cfg, h.buf, h.len, h.bitOffset⟩

/-- Two attempts on the same bits, no frame being open: both complete with the same events, or both raise the same cause. -/
theorem SameReader.packet_cases {a b : State} (h : SameReader a b) (ha : a.stk = []) (hb : b.stk = []) :
    (∃ es t t', packet a = .ok () t ∧ packet b = .ok () t' ∧ t.provisional = a.provisional ++ es ∧
      t'.provisional = b.provisional ++ es ∧ SameReader t t') ∨
    ∃ c t t', packet a = .raise c t ∧ packet b = .raise c t' ∧ t'.bitOffset = t.bitOffset := by
  have hta := packet_tracks (.refl a) ha
  have htb := packet_tracks h hb
  rw [congrArg Config.stackDepth h.cfg] at htb
  cases hr : packetReference (some a.cfg.stackDepth) a with
  | ok p w =>
    rw [hr] at hta htb
    obtain ⟨-, t, he, hat⟩ := hta
    obtain ⟨-, t', he', hbt⟩ := htb
    exact .inl ⟨p.events, t, t', he, he', hat.provisional, hbt.provisional, hbt.cfg.trans hat.cfg.symm,
      hbt.buf.trans hat.buf.symm, hbt.len.trans hat.len.symm, hbt.bitOffset.trans hat.bitOffset.symm⟩
  | raise c w =>
    rw [hr] at hta htb
    obtain ⟨t, he, hoff⟩ := hta
    obtain ⟨t', he', hoff'⟩ := htb
    exact .inr ⟨c, t, t', he, he', hoff'.trans hoff.symm⟩

theorem SameReader.packet_ok {a b t : State} {es : List Event} (h : SameReader a b) (ha : a.stk = []) (hb : b.stk = [])
    (hp : packet a = .ok () t) (hev : t.provisional = a.provisional ++ es) :
    ∃ t', packet b = .ok () t' ∧ t'.provisional = b.provisional ++ es ∧ SameReader t t' := by
  rcases h.packet_cases ha hb with ⟨es', u, t', he, he', hu, ht', hread⟩ | ⟨c, u, t', he, -⟩
  · obtain rfl := (Micro.ok.inj (hp.symm.trans he)).2
    obtain rfl := List.append_cancel_left (hev.symm.trans hu)
    exact ⟨t', he', ht', hread⟩
  · exact nomatch hp.symm.trans he

theorem SameReader.packet_raise {a b t : State} {c : Cause} (h : SameReader a b) (ha : a.stk = []) (hb : b.stk = [])
    (hp : packet a = .raise c t) : ∃ t', packet b = .raise c t' ∧ t'.bitOffset = t.bitOffset := by
  rcases h.packet_cases ha hb with ⟨es, u, t', he, -⟩ | ⟨c', u, t', he, he', hoff⟩
  · exact nomatch hp.symm.trans he
  · obtain ⟨rfl, rfl⟩ := Micro.raise.inj (hp.symm.trans he)
    exact ⟨t', he', hoff⟩

/-- Whole sequences of attempts on the same bits. -/
theorem Attempts.sameReader {a u b : State} {ps : List Packet} (h : Attempts a ps u) (hab : SameReader a b)
    (ha : a.stk = []) (hb : b.stk = []) : ∃ u', Attempts b ps u' ∧ SameReader u u' := by
  induction h generalizing b with
  | nil s => exact ⟨b, .nil b, hab⟩
  | @cons s t u p ps hp hev h ih =>
    have hframe := packet_noFrame s.attempt
    obtain ⟨t', hp', hev', ht⟩ := hab.attempt.packet_ok ha hb hp hev
    have hframe' := packet_noFrame b.attempt
    rw [hp] at hframe
    rw [hp'] at hframe'
    obtain ⟨u', h', hu⟩ := ih (b := { t' with pktCount := t'.pktCount + 1 }) { ht with } hframe hframe'
    exact ⟨u', .cons hp' hev' h', hu⟩

/-! ### PACKET and then STREAM -/

theorem delivered_inj {ds : List Delivery} {es es' : List Event} {r r' : Response}
    (h : ds ++ es.map .event ++ [.response r] = ds ++ es'.map .event ++ [.response r']) : es = es' ∧ r = r' := by
  rw [List.append_assoc, List.append_assoc] at h
  obtain ⟨hes, hr⟩ := List.append_inj' (List.append_cancel_left h) rfl
  exact ⟨List.map_injective_iff.mpr (fun _ _ => Delivery.event.inj) hes, Delivery.response.inj (List.singleton_inj.mp hr)⟩

/-- The response where one packet more is complete; of the state it depends on the length of the buffer only. -/
theorem streamResponse_succ {s t : State} (h : s.len = t.len) (n o : Nat) :
    streamResponse s (n + 1) o = { streamResponse t n o with count := (streamResponse t n o).count + 1 } := by
  simp only [streamResponse, State.endOfBuffer, h, Response.success, BitVec.ofNat_add]
  rfl

/-- A PACKET that has answered success has completed its attempt. -/
theorem packetCommand_success {s : State} {es : List Event} (hf : s.fault = false) (hstk : s.stk = [])
    (h : (packetCommand s).delivered = s.delivered ++ es.map .event ++ [.response (Response.success 0 1 0 0)]) :
    ∃ (p : Packet) (t : State), packet s.packetAttempt = .ok () t ∧ t.provisional = p.events ∧ es = p.events := by
  cases hp : packet s.packetAttempt with
  | ok x t =>
    obtain ⟨p, hev, -⟩ := packet_ok_events (s := s.packetAttempt) hstk hp
    rw [packetCommand_completes hf hp hev] at h
    exact ⟨p, t, rfl, hev, (delivered_inj h).1.symm⟩
  | raise c t =>
    rw [packetCommand_raises hf hp] at h
    have hr := (delivered_inj (ds := s.delivered) (es := []) (by simpa using h)).2
    exact absurd (congrArg Response.status hr) (Cause.code_ne_zero c)

/-- A STREAM that has answered success has ended with an attempt that ran out of bits. -/
theorem streamCommand_success {s : State} {es : List Event} {r : Response} (hf : s.fault = false) (hstk : s.stk = [])
    (h : (streamCommand s).delivered = s.delivered ++ es.map .event ++ [.response r]) (hr : r.status = 0) :
    ∃ ps u t, Attempts s.streamAttempts ps u ∧ packet u.attempt = .raise .exhausted t ∧ es = packetsEvents ps ∧
      r = streamResponse s ps.length u.bitOffset ∧ (streamCommand s).bitOffset = t.bitOffset := by
  obtain ⟨ps, u, c, t, hat, hx⟩ := exists_attempts s.streamAttempts hstk
  by_cases hc : c = .exhausted
  · subst hc
    have hcmd := hat.streamCommand_exhausted hf hx
    rw [hcmd] at h
    obtain ⟨hes, hresp⟩ := delivered_inj h
    exact ⟨ps, u, t, hat, hx, hes.symm, hresp.symm, by rw [hcmd]⟩
  · rw [hat.streamCommand_overflows hf hx hc] at h
    have hfail := (delivered_inj (ds := s.delivered) (es := []) (by simpa using h)).2
    exact absurd ((congrArg Response.status hfail).trans hr) (Cause.code_ne_zero c)

/-- Settles O44: STREAM's first attempt is PACKET's, and its later ones read the bits that the STREAM after PACKET reads. -/
theorem streamIsPacketThenStream : Obligations.StreamIsPacketThenStream := by
  intro s t u es es' r' hf hstk ht hdel hu hdel' hr
  obtain rfl : packetCommand s = t := Host.Outcome.next.inj ht
  obtain rfl : streamCommand (packetCommand s) = u := Host.Outcome.next.inj hu
  obtain ⟨p, v, hp, hev, rfl⟩ := packetCommand_success hf hstk hdel
  have hcmd := packetCommand_completes hf hp hev
  have hm := (packet_moved s.packetAttempt).1
  have hframe := packet_noFrame s.packetAttempt
  rw [hp] at hm hframe
  obtain ⟨ps, w, x, hat, hx, rfl, rfl, hend⟩ :=
    streamCommand_success ((packetCommand_fault s).trans hf) (by rw [hcmd]; exact hframe) hdel' hr
  have hread : SameReader (packetCommand s).streamAttempts { v with pktCount := v.pktCount + 1 } := by
    rw [hcmd]
    exact ⟨rfl, rfl, rfl, rfl⟩
  obtain ⟨w', hat', hw⟩ := hat.sameReader hread (by rw [hcmd]; exact hframe) hframe
  have hall : Attempts s.streamAttempts (p :: ps) w' := .cons hp hev hat'
  obtain ⟨x', hx', hoff⟩ := hw.attempt.packet_raise
    (hat.attempted.noFrame (by rw [hcmd]; exact hframe)) (hat'.attempted.noFrame hframe) hx
  have hlen : s.len = (packetCommand s).len := by
    rw [hcmd]
    exact hm.len.symm
  refine ⟨_, exec_stream s, ?_, ?_⟩ <;> rw [hall.streamCommand_exhausted hf hx']
  · exact hoff.trans hend.symm
  · rw [List.length_cons, hw.bitOffset, streamResponse_succ hlen]
    simp [packetsEvents]

end Sys2Proof.Machine
end

section
/-! The host's software on the events of packets (R180, R188) and the comparisons of its evaluator (R185). -/

namespace Sys2Proof.Machine

/-! ### From events to packets (R180) -/

mutual
/-- The events of a packet add that packet to the siblings so far, whatever is open around it. -/
theorem rebuildGo_packet (p : Packet) (es : List Event) (stack : List (OpenOperator × List Packet)) (done : List Packet) :
    rebuildGo (p.events ++ es) stack done = rebuildGo es stack (p :: done) := by
  match p with
  | .literal v x g => rfl
  | .operator v t mode l kids =>
    simp only [Packet.events, List.cons_append, List.append_assoc, List.nil_append, rebuildGo]
    rw [rebuildGo_packets kids, rebuildGo]
    simp
theorem rebuildGo_packets (ps : List Packet) (es : List Event) (stack : List (OpenOperator × List Packet))
    (done : List Packet) : rebuildGo (packetsEvents ps ++ es) stack done = rebuildGo es stack (ps.reverse ++ done) := by
  match ps with
  | [] => rfl
  | p :: ps =>
    rw [packetsEvents, List.append_assoc, rebuildGo_packet p, rebuildGo_packets ps, List.reverse_cons, List.append_assoc]
    rfl
end

theorem rebuild_packetsEvents (ps : List Packet) : rebuild (packetsEvents ps) = some ps := by
  have h := rebuildGo_packets ps [] [] []
  rw [List.append_nil, List.append_nil] at h
  rw [rebuild, h, rebuildGo, List.reverse_reverse]

/-- Settles O54: the events of each packet rebuild it, inside whatever operators are open. -/
theorem rebuildInvertsEvents : Obligations.RebuildInvertsEvents := rebuild_packetsEvents

/-! ### The version sum (R188) -/

theorem versionSumQuery_append (es es' : List Event) :
    versionSumQuery (es ++ es') = versionSumQuery es + versionSumQuery es' := by
  simp [versionSumQuery]

theorem versionSumQuery_cons (e : Event) (es : List Event) :
    versionSumQuery (e :: es) = e.version.toNat + versionSumQuery es := by
  simp [versionSumQuery]

mutual
theorem versionSumQuery_packet (p : Packet) : versionSumQuery p.events = p.versionSum := by
  match p with
  | .literal v x g => simp [Packet.events, Packet.versionSum, versionSumQuery, Event.version]
  | .operator v t mode l kids =>
    rw [Packet.events, versionSumQuery_cons, versionSumQuery_append, versionSumQuery_packets kids, Packet.versionSum]
    rfl
theorem versionSumQuery_packets (ps : List Packet) : versionSumQuery (packetsEvents ps) = packetsVersionSum ps := by
  match ps with
  | [] => rfl
  | p :: ps =>
    rw [packetsEvents, versionSumQuery_append, versionSumQuery_packet p, versionSumQuery_packets ps, packetsVersionSum]
end

/-- Settles O55: packet by packet; `OP_BEGIN` carries the operator's version, and `OP_END` adds nothing. -/
theorem versionSumOverEvents : Obligations.VersionSumOverEvents := versionSumQuery_packets

/-! ### The evaluation query (R190) -/

theorem evaluationQuery_packets_nil (cfg : EvalConfig) : evaluationQuery cfg (packetsEvents []) = .error .noPacket := rfl

theorem evaluationQuery_packets_cons (cfg : EvalConfig) (p : Packet) (ps : List Packet) :
    evaluationQuery cfg (packetsEvents (p :: ps)) = p.eval cfg := by
  rw [evaluationQuery, rebuild_packetsEvents]

/-! ### Comparisons (R185) -/

/-- A comparison that evaluates has gone past the count of its children, to the values of the first two. -/
theorem compareChildren_ok {strict : Bool} {r : Nat → Nat → Bool} {x y n : Nat} {rest : List (Except EvalError Nat)}
    (h : compareChildren strict r (.ok x :: .ok y :: rest) = .ok n) : n = (r x y).toNat := by
  rw [compareChildren] at h
  split_ifs at h
  cases h
  rfl

/-- A kind that compares by `r`, over children the first two of which have values. -/
theorem eval_comparison {cfg : EvalConfig} {v t : BitVec 3} {mode : LengthMode} {l : BitVec 15} {a b : Packet}
    {rest : List Packet} {n x y : Nat} {k : Kind} {r : Nat → Nat → Bool} (hkind : operatorKind t = some k)
    (hcompares : ∀ kids, evalKind cfg k kids = compareChildren cfg.strict r kids)
    (h : (Packet.operator v t mode l (a :: b :: rest)).eval cfg = .ok n) (ha : a.eval cfg = .ok x) (hb : b.eval cfg = .ok y) :
    n = (r x y).toNat := by
  simp only [Packet.eval, packetsEval, hkind, hcompares, ha, hb] at h
  exact compareChildren_ok h

theorem toNat_decide (p : Prop) [Decidable p] : (decide p).toNat = if p then 1 else 0 := by
  split_ifs with hp <;> simp [hp]

/-- Settles O56: the three type ids are the comparisons of the table, and each gives its relation as a bit. -/
theorem comparisonsGiveZeroOrOne : Obligations.ComparisonsGiveZeroOrOne := by
  intro cfg v t mode l a b rest n x y h ha hb
  refine ⟨?greater, ?less, ?equal⟩ <;> rintro rfl
  case greater => exact (eval_comparison (k := .greater) rfl (fun _ => rfl) h ha hb).trans (toNat_decide _)
  case less => exact (eval_comparison (k := .less) rfl (fun _ => rfl) h ha hb).trans (toNat_decide _)
  case equal => exact (eval_comparison (k := .equal) rfl (fun _ => rfl) h ha hb).trans (toNat_decide _)

end Sys2Proof.Machine
end

section
/-! One decode on the block (R233): the bytes are placed, LOAD takes them, STREAM runs; and what the host makes of the two
responses (R161, R191). -/

namespace Sys2Proof.Machine

/-! ### The run -/

/-- The bytes stand in the load window, LOAD has been taken from the port and STREAM is next on it. -/
def State.placed (bytes : List Byte) (s : State) : State :=
  { s with inbox := [.command 0xC0 0], hostMem := placeBytes 0 bytes s.hostMem }

/-- LOAD has been answered and STREAM has been taken from the port. -/
def State.afterLoad (bytes : List Byte) (s : State) : State :=
  { loadCommand (BitVec.ofNat 32 bytes.length) (s.placed bytes) with inbox := [] }

theorem runCommand_load (arg : Word32) (s : State) : runCommand 0x20 arg s = .next (loadCommand arg s) := rfl

theorem step_load (arg : Word32) {s : State} (hb : s.busy = false) :
    step { s with inbox := .command 0x20 arg :: s.inbox } = .next (loadCommand arg s) :=
  (step_of_inbox (s := { s with inbox := .command 0x20 arg :: s.inbox }) hb rfl).trans (runCommand_load arg s)

theorem runCommand_stream (arg : Word32) (s : State) : runCommand 0xC0 arg s = .next (streamCommand s) := rfl

/-- A decode is LOAD on the placed bytes, then STREAM. -/
theorem decodeOnBlock_eq {bytes : List Byte} {s : State} (hb : s.busy = false) (hl : bytes.length < 2 ^ 32) :
    decodeOnBlock bytes s = .next (streamCommand (s.afterLoad bytes)) := by
  have hload := loadCommand_answeredOnce (BitVec.ofNat 32 bytes.length) (s.placed bytes)
  rw [decodeOnBlock, decodeActs, List.length_append, List.length_map, List.length_zipIdx,
    runSteps_place bytes 0 _ s _ hb (by omega),
    show [HostAct.command 0x20 (BitVec.ofNat 32 bytes.length), .command 0xC0 0].length = 0 + 1 + 1 from rfl,
    runSteps_of_next (t := loadCommand (BitVec.ofNat 32 bytes.length) (s.placed bytes)) (0 + 1) ?load,
    runSteps_of_next 0 ((step_of_inbox hload.notBusy hload.inbox).trans (runCommand_stream 0 (s.afterLoad bytes))),
    runSteps_zero]
  case load => exact step_load _ (s := s.placed bytes) hb

/-- The first of several steps that all went on. -/
theorem runSteps_succ_eq_next {n : Nat} {s t : State} (h : runSteps (n + 1) s = .next t) :
    ∃ u, step s = .next u ∧ runSteps n u = .next t := by
  rw [runSteps] at h
  split at h
  next u hu => exact ⟨u, hu, h⟩
  next hstop => exact absurd h (hstop t)

/-- No decode runs where a command is in progress. -/
theorem decodeOnBlock_notBusy {bytes : List Byte} {s t : State} (h : decodeOnBlock bytes s = .next t) : s.busy = false := by
  rw [decodeOnBlock, show (decodeActs bytes).length = bytes.length + 1 + 1 by simp [decodeActs]] at h
  obtain ⟨u, hu, -⟩ := runSteps_succ_eq_next h
  exact (step_cases hu).1

theorem runSteps_inv {n : Nat} {s t : State} (h : Inv s) (hrun : runSteps n s = .next t) : Inv t := by
  induction n generalizing s with
  | zero => exact Host.Outcome.next.inj hrun ▸ h
  | succ n ih =>
    obtain ⟨u, hu, hrest⟩ := runSteps_succ_eq_next hrun
    exact ih (everyStepKeepsInvariant s u h hu) hrest

theorem decodeOnBlock_inv {bytes : List Byte} {s t : State} (h : Inv s) (hrun : decodeOnBlock bytes s = .next t) : Inv t :=
  runSteps_inv (s := { s with inbox := decodeActs bytes })
    { h with boundary := { h.boundary with }, widths := { h.widths with } } hrun

theorem streamCommand_fault (s : State) : (streamCommand s).fault = s.fault := accept_fault (streamLoop_fault _ _)

/-! ### LOAD's part -/

section Load
variable {bytes : List Byte} {s : State}

theorem toNat_ofNat_length (hl : bytes.length < 2 ^ 32) : (BitVec.ofNat 32 bytes.length).toNat = bytes.length := by
  rw [BitVec.toNat_ofNat, Nat.mod_eq_of_lt hl]

theorem afterLoad_faulted (hf : s.fault = true) :
    (s.afterLoad bytes).fault = true ∧
      (s.afterLoad bytes).delivered = s.delivered ++ [.response (Response.failure .faulted)] := by
  rw [State.afterLoad, loadCommand_faulted _ (s := s.placed bytes) hf]
  exact ⟨by simp [State.placed, hf], rfl⟩

theorem afterLoad_tooLong (hf : s.fault = false) (hl : bytes.length < 2 ^ 32) (h : s.cfg.bufMaxBytes < bytes.length) :
    (s.afterLoad bytes).fault = true ∧
      (s.afterLoad bytes).delivered = s.delivered ++ [.response (Response.failure .illegalCmd)] := by
  rw [State.afterLoad, loadCommand_tooLong (s := s.placed bytes) hf ((toNat_ofNat_length hl).symm ▸ h)]
  exact ⟨by simp [Cause.sticky], rfl⟩

theorem afterLoad_loads (hf : s.fault = false) (hl : bytes.length < 2 ^ 32) (h : bytes.length ≤ s.cfg.bufMaxBytes) :
    s.afterLoad bytes = { s with
      buf := copyBytes bytes.length (placeBytes 0 bytes s.hostMem) s.buf
      hostMem := placeBytes 0 bytes s.hostMem, len := bytes.length, bitOffset := 0, busy := false, inbox := []
      delivered := s.delivered ++ [.response (Response.success 0 0 0 0)] } := by
  rw [State.afterLoad, loadCommand_loads (s := s.placed bytes) hf ((toNat_ofNat_length hl).symm ▸ h), toNat_ofNat_length hl]
  rfl

theorem afterLoad_cfg : (s.afterLoad bytes).cfg = s.cfg := by
  rcases loadCommand_cases (BitVec.ofNat 32 bytes.length) (s.placed bytes) with ha | ⟨-, heq⟩
  · exact ha.cfg
  · rw [State.afterLoad, heq]
    rfl

/-! ### What the host makes of it -/

/-- The host takes the events if both commands answered success and the end suits it. -/
theorem decodeBytes_eq {strictEnd : Bool} {es : List Event} {load stream : Response} (hb : s.busy = false)
    (hl : bytes.length < 2 ^ 32) (hload : (s.afterLoad bytes).delivered = s.delivered ++ [.response load])
    (hstream : (streamCommand (s.afterLoad bytes)).delivered =
      (s.afterLoad bytes).delivered ++ es.map .event ++ [.response stream]) :
    decodeBytes strictEnd bytes s =
      if load.status = 0 ∧ stream.status = 0 ∧ (strictEnd && strictTrailing bytes stream) = false then .ok es
      else .error .decodeOrEvaluate := by
  have hout : commandOutputs [] ((streamCommand (s.afterLoad bytes)).delivered.drop s.delivered.length) =
      [([], load), (es, stream)] := by
    rw [hstream, hload, List.append_assoc, List.append_assoc, List.drop_left]
    exact congrArg (([], load) :: ·) (commandOutputs_command [] es stream [])
  rw [decodeBytes, if_neg (Nat.not_le.mpr hl), decodeOnBlock_eq hb hl]
  simp only [hout]

/-- LOAD fails, and with it the decode, whatever STREAM answers (R191). -/
theorem decodeBytes_load_fails (strictEnd : Bool) {c : Cause} (hb : s.busy = false) (hl : bytes.length < 2 ^ 32)
    (hload : (s.afterLoad bytes).delivered = s.delivered ++ [.response (Response.failure c)]) :
    decodeBytes strictEnd bytes s = .error .decodeOrEvaluate := by
  obtain ⟨es, r, hstream⟩ := (Reader.stream.answeredOnce (s.afterLoad bytes)).delivered
  rw [decodeBytes_eq hb hl hload hstream]
  exact if_neg fun h => Cause.code_ne_zero c h.1

theorem decodeBytes_uncountable (strictEnd : Bool) (s : State) (hl : 2 ^ 32 ≤ bytes.length) :
    decodeBytes strictEnd bytes s = .error .decodeOrEvaluate := if_pos hl

theorem decodeBytes_faulted (strictEnd : Bool) (hf : s.fault = true) :
    decodeBytes strictEnd bytes s = .error .decodeOrEvaluate := by
  cases hd : decodeBytes strictEnd bytes s with
  | error e => rw [pipelineError_unique e]
  | ok es =>
    obtain ⟨hl, t, -, -, -, hrun, -⟩ := decodeBytes_ok hd
    exact nomatch hd.symm.trans
      (decodeBytes_load_fails strictEnd (decodeOnBlock_notBusy hrun) hl (afterLoad_faulted hf).2)

theorem decodeBytes_tooLong (strictEnd : Bool) (hb : s.busy = false) (hf : s.fault = false) (hl : bytes.length < 2 ^ 32)
    (h : s.cfg.bufMaxBytes < bytes.length) : decodeBytes strictEnd bytes s = .error .decodeOrEvaluate :=
  decodeBytes_load_fails strictEnd hb hl (afterLoad_tooLong hf hl h).2

end Load

/-! ### The queries -/

/-- Both queries are the text's decode and then a function of the events. -/
theorem queries_congr {strictEnd : Bool} {text : List Char} {s s' : State} (cfg : EvalConfig)
    (h : decodeText strictEnd text s' = decodeText strictEnd text s) :
    versionSumOfText strictEnd text s' = versionSumOfText strictEnd text s ∧
      valueOfText cfg strictEnd text s' = valueOfText cfg strictEnd text s := by
  simp only [versionSumOfText, valueOfText, h, and_self]

theorem queries_error {strictEnd : Bool} {text : List Char} {s : State} (cfg : EvalConfig)
    (h : decodeText strictEnd text s = .error .decodeOrEvaluate) :
    versionSumOfText strictEnd text s = .error .decodeOrEvaluate ∧
      valueOfText cfg strictEnd text s = .error .decodeOrEvaluate := by
  simp only [versionSumOfText, valueOfText, h, and_self]

theorem decodeText_malformed {text : List Char} {e : HexError} (strictEnd : Bool) (s : State) (h : hexDecode text = .error e) :
    decodeText strictEnd text s = .error .decodeOrEvaluate := by
  simp only [decodeText, h]

theorem decodeText_of_hexDecode {text : List Char} {bytes : List Byte} (strictEnd : Bool) (s : State)
    (h : hexDecode text = .ok bytes) : decodeText strictEnd text s = decodeBytes strictEnd bytes s := by
  simp only [decodeText, h]

end Sys2Proof.Machine
end

section
/-! The single error of the pipeline (R191). -/

namespace Sys2Proof.Machine

/-- A decode that the host takes has seen no response but successes. -/
theorem decodeBytes_response_fails {strictEnd : Bool} {bytes : List Byte} {s t : State} {r : Response}
    (hrun : decodeOnBlock bytes s = .next t) (hr : .response r ∈ t.delivered.drop s.delivered.length)
    (hstatus : r.status ≠ 0) : decodeBytes strictEnd bytes s = .error .decodeOrEvaluate := by
  cases hd : decodeBytes strictEnd bytes s with
  | error e => rw [pipelineError_unique e]
  | ok es =>
    obtain ⟨-, t', es', load, stream, hrun', hout, hload, hstream, -⟩ := decodeBytes_ok hd
    obtain rfl := Host.Outcome.next.inj (hrun.symm.trans hrun')
    obtain ⟨es'', hmem⟩ := mem_commandOutputs (pending := []) hr
    rw [hout] at hmem
    simp only [List.mem_cons, Prod.mk.injEq, List.not_mem_nil, or_false] at hmem
    rcases hmem with ⟨-, rfl⟩ | ⟨-, rfl⟩ <;> contradiction

/-- Settles O59: one lemma per stage that fails. -/
theorem pipelineReportsOneError : Obligations.PipelineReportsOneError := by
  intro s cfg strictEnd text
  refine ⟨fun e he => ?hex, fun bytes t r hbytes hrun hr hstatus => ?response, fun hf => ?fault, fun es e hes he => ?eval⟩
  case hex => exact queries_error cfg (decodeText_malformed strictEnd s he)
  case response =>
    exact queries_error cfg
      ((decodeText_of_hexDecode strictEnd s hbytes).trans (decodeBytes_response_fails hrun hr hstatus))
  case fault =>
    refine queries_error cfg ?_
    cases hbytes : hexDecode text with
    | error e => exact decodeText_malformed strictEnd s hbytes
    | ok bytes => exact (decodeText_of_hexDecode strictEnd s hbytes).trans (decodeBytes_faulted strictEnd hf)
  case eval =>
    simp only [valueOfText, hes, he, evaluatedScalar]

end Sys2Proof.Machine
end

section
/-! What LOAD leaves in the buffer of a decode: the bytes of the text and no other below LEN (R13, R91, R233). -/

namespace Sys2Proof.Machine

/-- The bytes laid out from `a` on read back, and nothing else has changed. -/
theorem placeBytes_read (bytes : List Byte) {m : Memory} (h : m.wf) (a i : Nat) :
    (placeBytes a bytes m).read i = if a ≤ i ∧ i < a + bytes.length then bytes.getD (i - a) 0 else m.read i := by
  induction bytes generalizing a m with
  | nil => rw [if_neg (by simp)]; rfl
  | cons b bs ih =>
    rw [placeBytes, ih (Memory.write_wf a b h), Memory.read_write m a b i h, List.length_cons]
    rcases Nat.lt_trichotomy i a with hlt | rfl | hgt
    · rw [if_neg (by omega), if_neg (by omega), if_neg (by omega)]
    · rw [if_neg (by omega), if_pos rfl, if_pos (by omega), Nat.sub_self]
      rfl
    · rw [if_neg (show ¬ a = i by omega), show i - a = (i - (a + 1)) + 1 by omega, List.getD_cons_succ]
      exact if_congr (by omega) rfl rfl

/-- The bits of a sequence of bytes, one at a time (R13). -/
theorem streamBits_getD (bytes : List Byte) {k : Nat} (h : k < 8 * bytes.length) :
    (streamBits bytes).getD k false = (bytes.getD (k / 8) 0).getLsbD (7 - k % 8) := by
  have hk : 8 * (k / 8) + k % 8 = k := Nat.div_add_mod k 8
  have hbit : k % 8 < 8 := Nat.mod_lt k (by decide)
  have hpiece := flatMap_getD (fun b : Byte => fieldBits_length b) false 0 bytes (d := k / 8) (k := k % 8) (by omega) hbit
  rw [hk] at hpiece
  rw [streamBits, hpiece, fieldBits, bitsOfNat_getD _ hbit]
  rfl

/-- A buffer that holds the bytes from address 0 holds their bits from bit 0. -/
theorem bitsAt_streamBits {s : State} {bytes : List Byte} (hlen : s.len = bytes.length)
    (hread : ∀ i < bytes.length, s.buf.read i = bytes.getD i 0) : s.BitsAt 0 (streamBits bytes) := by
  have hend : (streamBits bytes).length = 8 * bytes.length := streamBits_length bytes
  refine ⟨by rw [State.endOfBuffer, hlen]; omega, fun k hk => ?_⟩
  rw [Nat.zero_add, State.sbit, hread (k / 8) (by omega), ← streamBits_getD bytes (by omega), List.getD_eq_getElem _ _ hk]

theorem afterLoad_read {s : State} {bytes : List Byte} (h : Inv s) (hf : s.fault = false) (hl : bytes.length < 2 ^ 32)
    (hmax : bytes.length ≤ s.cfg.bufMaxBytes) {i : Nat} (hi : i < bytes.length) :
    (s.afterLoad bytes).buf.read i = bytes.getD i 0 := by
  rw [afterLoad_loads hf hl hmax]
  dsimp only
  rw [copyBytes_read _ _ h.bufWf, if_pos hi, placeBytes_read bytes h.hostMemWf, if_pos (by omega), Nat.sub_zero]

end Sys2Proof.Machine
end

section
/-! The pipeline on the bits of packets (R158, R161, R180, R188 to R190). -/

namespace Sys2Proof.Machine

/-- Padding bits that are few and all 0 are what the stricter end of R161 allows; the offset of the last attempt fits its
field. -/
theorem strictTrailing_padding {bytes : List Byte} {bs pad : List Bool} {r : Response}
    (hbits : streamBits bytes = bs ++ pad) (hl : bytes.length < 2 ^ 29) (hpad : pad.length ≤ 7)
    (hzero : ∀ b ∈ pad, b = false) (hr : r.stopOffset = BitVec.ofNat 32 bs.length) : strictTrailing bytes r = false := by
  have hlen : 8 * bytes.length = bs.length + pad.length := by rw [← streamBits_length, hbits, List.length_append]
  have hoff : r.stopOffset.toNat = bs.length := by rw [hr, BitVec.toNat_ofNat, Nat.mod_eq_of_lt (by omega)]
  have hskipped : ((streamBits bytes).drop bs.length).any id = false := by
    rw [hbits, List.drop_left, List.any_eq_false]
    exact fun b hb => by simp [hzero b hb]
  have hfew : ¬ 7 < 8 * bytes.length - bs.length := by omega
  simp [strictTrailing, hoff, hskipped, hfew]

/-- The block decodes a transmission: LOAD takes the bytes, STREAM the packets, and the end suits the host. -/
theorem decodeBytes_packets {s : State} {strictEnd : Bool} {bytes : List Byte} {ps : List Packet} {pad : List Bool}
    (h : Inv s) (hf : s.fault = false) (hmax : bytes.length ≤ s.cfg.bufMaxBytes) (hl : bytes.length < 2 ^ 32)
    (hbits : streamBits bytes = packetsBits ps ++ pad) (hpad : pad.length ≤ 10)
    (hstrict : strictEnd = true → bytes.length < 2 ^ 29 ∧ pad.length ≤ 7 ∧ ∀ b ∈ pad, b = false)
    (hwf : packetsWellFormed ps = true) (hdepth : packetsNesting ps ≤ s.cfg.stackDepth) :
    decodeBytes strictEnd bytes s = .ok (packetsEvents ps) := by
  have hloads := afterLoad_loads hf hl hmax
  have hlen : (s.afterLoad bytes).len = bytes.length := by rw [hloads]
  have hoff : (s.afterLoad bytes).bitOffset = 0 := by rw [hloads]
  have hall := bitsAt_streamBits hlen fun i hi => afterLoad_read h hf hl hmax hi
  rw [hbits] at hall
  have htotal : 8 * bytes.length = (packetsBits ps).length + pad.length := by
    rw [← streamBits_length, hbits, List.length_append]
  obtain ⟨t, ht, -, -, -, hdel⟩ := streamDecodesEverySequence (s.afterLoad bytes) ps (by rw [hloads]; exact hf)
    (by rw [hloads]; exact h.boundary.noFrame) hwf (by rw [afterLoad_cfg]; exact hdepth) (by rw [hoff]; exact hall.left)
    (by rw [State.endOfBuffer, hlen, hoff]; omega)
  obtain rfl := Host.Outcome.next.inj ht
  rw [decodeBytes_eq h.boundary.notBusy hl (by rw [hloads]) hdel]
  refine if_pos ⟨rfl, rfl, ?_⟩
  cases hs : strictEnd with
  | false => rfl
  | true =>
    obtain ⟨hl', hpad', hzero⟩ := hstrict hs
    exact strictTrailing_padding hbits hl' hpad' hzero (by simp [Response.success, hoff])

/-- Settles O58: the block delivers the packets' events, over which the two queries are what they are over the packets. -/
theorem pipelineDecodesTransmission : Obligations.PipelineDecodesTransmission := by
  intro s cfg strictEnd text bytes ps pad h hf hbytes hmax hl hbits hpad hstrict hwf hdepth
  have hdecode : decodeText strictEnd text s = .ok (packetsEvents ps) :=
    (decodeText_of_hexDecode strictEnd s hbytes).trans (decodeBytes_packets h hf hmax hl hbits hpad hstrict hwf hdepth)
  refine ⟨hdecode, ?sum, ?value⟩
  case sum => simp only [versionSumOfText, hdecode, versionSumQuery_packets]
  case value =>
    simp only [valueOfText, hdecode]
    refine congrArg evaluatedScalar ?_
    cases ps with
    | nil => exact evaluationQuery_packets_nil cfg
    | cons p ps => exact evaluationQuery_packets_cons cfg p ps

end Sys2Proof.Machine
end

section
/-! Two decodes of one text (R189): what the block held before LOAD has no part in what it delivers. -/

namespace Sys2Proof.Machine

/-- STREAM on the same bits, no frame being open: the same events and the same response. -/
theorem SameReader.streamCommand_delivers {a b : State} (h : SameReader a b) (ha : a.stk = []) (hb : b.stk = [])
    (hfa : a.fault = false) (hfb : b.fault = false) :
    ∃ (es : List Event) (r : Response), (streamCommand a).delivered = a.delivered ++ es.map .event ++ [.response r] ∧
      (streamCommand b).delivered = b.delivered ++ es.map .event ++ [.response r] := by
  obtain ⟨ps, u, c, t, hat, hx⟩ := exists_attempts a.streamAttempts ha
  obtain ⟨u', hat', hu⟩ := hat.sameReader (b := b.streamAttempts) ⟨h.cfg, h.buf, h.len, h.bitOffset⟩ ha hb
  obtain ⟨t', hx', -⟩ := hu.attempt.packet_raise (hat.attempted.noFrame ha) (hat'.attempted.noFrame hb) hx
  by_cases hc : c = .exhausted
  · subst hc
    refine ⟨packetsEvents ps, streamResponse a ps.length u.bitOffset, ?_, ?_⟩
    · rw [hat.streamCommand_exhausted hfa hx]
    · rw [hat'.streamCommand_exhausted hfb hx', hu.bitOffset, streamResponse, streamResponse, State.endOfBuffer, h.len]
  · refine ⟨[], .failure c, ?_, ?_⟩
    · rw [hat.streamCommand_overflows hfa hx hc]
      simp
    · rw [hat'.streamCommand_overflows hfb hx' hc]
      simp

/-- STREAM also delivers the same where the buffers agree below LEN only (R21). -/
theorem streamCommand_delivers_alike {a b : State} (hcfg : b.cfg = a.cfg) (hlen : b.len = a.len)
    (hoff : b.bitOffset = a.bitOffset) (hread : b.AgreesBelowLen a.buf) (ha : a.stk = []) (hb : b.stk = [])
    (hfa : a.fault = false) (hfb : b.fault = false) :
    ∃ (es : List Event) (r : Response), (streamCommand a).delivered = a.delivered ++ es.map .event ++ [.response r] ∧
      (streamCommand b).delivered = b.delivered ++ es.map .event ++ [.response r] := by
  obtain ⟨es, r, hda, hdb⟩ :=
    SameReader.streamCommand_delivers (b := b.withBuf a.buf) ⟨hcfg, rfl, hlen, hoff⟩ ha hb hfa hfb
  rw [Reader.stream.withBuf hread] at hdb
  exact ⟨es, r, hda, hdb⟩

/-- Two decodes whose bytes LOAD takes. -/
theorem decodeBytes_alike_of_loads (strictEnd : Bool) {bytes : List Byte} {s s' : State} (h : Inv s) (h' : Inv s')
    (hcfg : s'.cfg = s.cfg) (hf : s.fault = false) (hf' : s'.fault = false) (hl : bytes.length < 2 ^ 32)
    (hmax : bytes.length ≤ s.cfg.bufMaxBytes) : decodeBytes strictEnd bytes s' = decodeBytes strictEnd bytes s := by
  have hmax' : bytes.length ≤ s'.cfg.bufMaxBytes := hcfg ▸ hmax
  have hloads := afterLoad_loads hf hl hmax
  have hloads' := afterLoad_loads hf' hl hmax'
  have hread : (s'.afterLoad bytes).AgreesBelowLen (s.afterLoad bytes).buf := fun i hi => by
    have hi : i < bytes.length := by simpa only [hloads'] using hi
    rw [afterLoad_read h hf hl hmax hi, afterLoad_read h' hf' hl hmax' hi]
  obtain ⟨es, r, hd, hd'⟩ := streamCommand_delivers_alike (by rw [afterLoad_cfg, afterLoad_cfg, hcfg])
    (by rw [hloads, hloads']) (by rw [hloads, hloads']) hread (by rw [hloads]; exact h.boundary.noFrame)
    (by rw [hloads']; exact h'.boundary.noFrame) (by rw [hloads]; exact hf) (by rw [hloads']; exact hf')
  rw [decodeBytes_eq h.boundary.notBusy hl (by rw [hloads]) hd,
    decodeBytes_eq h'.boundary.notBusy hl (by rw [hloads']) hd']

/-- States between commands with the same parameters and the same latch: LOAD fails from both, or takes the bytes. -/
theorem decodeBytes_alike (strictEnd : Bool) (bytes : List Byte) {s s' : State} (h : Inv s) (h' : Inv s')
    (hcfg : s'.cfg = s.cfg) (hfault : s'.fault = s.fault) : decodeBytes strictEnd bytes s' = decodeBytes strictEnd bytes s := by
  rcases Nat.lt_or_ge bytes.length (2 ^ 32) with hl | hl
  · rcases Bool.eq_false_or_eq_true s.fault with hf | hf
    · rw [decodeBytes_faulted strictEnd hf, decodeBytes_faulted strictEnd (hfault.trans hf)]
    · have hf' : s'.fault = false := hfault.trans hf
      rcases Nat.lt_or_ge s.cfg.bufMaxBytes bytes.length with hlong | hmax
      · rw [decodeBytes_tooLong strictEnd h.boundary.notBusy hf hl hlong,
          decodeBytes_tooLong strictEnd h'.boundary.notBusy hf' hl (hcfg ▸ hlong)]
      · exact decodeBytes_alike_of_loads strictEnd h h' hcfg hf hf' hl hmax
  · rw [decodeBytes_uncountable strictEnd s hl, decodeBytes_uncountable strictEnd s' hl]

/-- A decode run again: unless LOAD has failed, and then it fails again, the latch is as it was. -/
theorem decodeBytes_again (strictEnd : Bool) {bytes : List Byte} {s t : State} (h : Inv s)
    (hrun : decodeOnBlock bytes s = .next t) : decodeBytes strictEnd bytes t = decodeBytes strictEnd bytes s := by
  rcases Nat.lt_or_ge bytes.length (2 ^ 32) with hl | hl
  · have ht := decodeOnBlock_inv h hrun
    obtain rfl := Host.Outcome.next.inj ((decodeOnBlock_eq h.boundary.notBusy hl).symm.trans hrun)
    have hcfg : (streamCommand (s.afterLoad bytes)).cfg = s.cfg := (streamCommand_answered _).cfg.trans afterLoad_cfg
    have hfault := streamCommand_fault (s.afterLoad bytes)
    rcases Bool.eq_false_or_eq_true s.fault with hf | hf
    · exact decodeBytes_alike strictEnd bytes h ht hcfg ((hfault.trans (afterLoad_faulted hf).1).trans hf.symm)
    · rcases Nat.lt_or_ge s.cfg.bufMaxBytes bytes.length with hlong | hmax
      · rw [decodeBytes_tooLong strictEnd h.boundary.notBusy hf hl hlong,
          decodeBytes_faulted strictEnd (hfault.trans (afterLoad_tooLong hf hl hlong).1)]
      · exact decodeBytes_alike strictEnd bytes h ht hcfg (hfault.trans (by rw [afterLoad_loads hf hl hmax]))
  · rw [decodeBytes_uncountable strictEnd s hl, decodeBytes_uncountable strictEnd t hl]

/-- Settles O60: a text that is no hex text fails from every state, and of one that is, the block decodes the same bytes. -/
theorem pipelineIsPure : Obligations.PipelineIsPure := by
  intro s cfg strictEnd text h
  refine ⟨fun s' h' hcfg hfault => queries_congr cfg ?_, fun bytes t hbytes hrun => queries_congr cfg ?_⟩
  · cases hbytes : hexDecode text with
    | error e => rw [decodeText_malformed strictEnd s hbytes, decodeText_malformed strictEnd s' hbytes]
    | ok bytes =>
      rw [decodeText_of_hexDecode strictEnd s hbytes, decodeText_of_hexDecode strictEnd s' hbytes]
      exact decodeBytes_alike strictEnd bytes h h' hcfg hfault
  · rw [decodeText_of_hexDecode strictEnd s hbytes, decodeText_of_hexDecode strictEnd t hbytes]
    exact decodeBytes_again strictEnd h hrun

end Sys2Proof.Machine
end

section
/-! Command words that are refused before any command runs: every word while `FAULT` is 1 (R208), and the reserved words and
LOADs too long for the buffer while it is 0 (R67, R207). -/

namespace Sys2Proof.Machine

/-! ### While `FAULT` is 1 (R208) -/

/-- Every word on the command port goes through acceptance, whatever it then runs (R61, R208). -/
theorem runCommand_accepts (op : BitVec 8) (arg : Word32) :
    ∃ body, ∀ s, runCommand op arg s = .next (s.accept body) := by
  rcases runCommand_eq op arg with ⟨-, hload⟩ | ⟨f, hf, hrun⟩
  · exact ⟨_, hload⟩
  · cases hf <;> exact ⟨_, hrun⟩

theorem step_faulted {s : State} {op : BitVec 8} {arg : Word32} {rest : List HostAct} (hb : s.busy = false)
    (hf : s.fault = true) (hi : s.inbox = .command op arg :: rest) :
    step s = .next { s with
      inbox := rest, delivered := s.delivered ++ [.response (Response.failure .faulted)] } := by
  obtain ⟨body, hrun⟩ := runCommand_accepts op arg
  rw [step_of_inbox hb hi, hostAct, hrun, accept_faulted body (s := { s with inbox := rest }) hf, ← hb]

/-- Settles O11: acceptance looks at the latch before the word's command, and only reset clears it. -/
theorem faultedRefusesEveryCommand : Obligations.FaultedRefusesEveryCommand := by
  refine ⟨fun s op arg rest hb hf hi => ⟨_, step_faulted hb hf hi, rfl, rfl, fun i => rfl⟩, fun s t hstep => ?_⟩
  exact (latchSetAndCleared s t hstep).1

/-! ### Reserved words and LOADs that are too long (R67, R207) -/

theorem cmdOp_toNat (w : BitVec 8) : (w.extractLsb' 5 3).toNat = w.toNat / 32 := by
  have := w.isLt
  rw [BitVec.extractLsb'_toNat, Nat.shiftRight_eq_div_pow]
  omega

theorem cmdCount_eq_zero_iff (w : BitVec 8) : w.extractLsb' 0 5 = 0 ↔ w.toNat % 32 = 0 := by
  rw [← BitVec.toNat_inj, BitVec.extractLsb'_toNat]
  rfl

/-- The reserved values of `op` decode to rows that are refused, and a count where none may be is no instruction (R67(a), (b)). -/
theorem runCommand_reserved {op : BitVec 8} (arg : Word32) (s : State)
    (h : op.toNat / 32 = 0 ∨ op.toNat / 32 = 7 ∨
      (op.toNat / 32 = 1 ∨ op.toNat / 32 = 4 ∨ op.toNat / 32 = 5 ∨ op.toNat / 32 = 6) ∧ op.toNat % 32 ≠ 0) :
    runCommand op arg s = .next s.rejectCommand := by
  simp only [runCommand, decode, decodeCommand, cmdOp_toNat, cmdCount_eq_zero_iff]
  rcases h with h | h | ⟨h | h | h | h, hn⟩
  · rw [h]; rfl
  · rw [h]; rfl
  all_goals simp only [h, if_neg hn]

/-- A LOAD of more bytes than the buffer holds is refused as a reserved word is (R67(c)). -/
theorem loadCommand_eq_rejectCommand {arg : Word32} {s : State} (hf : s.fault = false) (h : s.cfg.bufMaxBytes < arg.toNat) :
    loadCommand arg s = s.rejectCommand := by
  rw [loadCommand_tooLong hf h, State.rejectCommand, accept_ok _ hf]

/-- Settles O12: each of these words runs `rejectCommand`. -/
theorem reservedWordIsIllegal : Obligations.ReservedWordIsIllegal := by
  intro s op arg rest hb hf hi hop
  have hrun : runCommand op arg { s with inbox := rest } = .next (State.rejectCommand { s with inbox := rest }) := by
    rcases hop with h | h | h | ⟨rfl, hlong⟩
    · exact runCommand_reserved arg _ (.inl h)
    · exact runCommand_reserved arg _ (.inr (.inl h))
    · exact runCommand_reserved arg _ (.inr (.inr h))
    · rw [runCommand_load, loadCommand_eq_rejectCommand (s := { s with inbox := rest }) hf hlong]
  rw [step_of_inbox hb hi, hostAct, hrun, rejectCommand_ok (s := { s with inbox := rest }) hf, ← hb]

end Sys2Proof.Machine
end

section
/-! How every command ends (R66, R200, R212): with success, or with a cause and what R212 says that this cause leaves behind. -/

namespace Sys2Proof.Machine

/-- The row of R212 for a cause: the latch and the cursor in `t`, after a command that began in `s` and failed with it. -/
inductive FailureRow (s t : State) : Cause → Prop where
  | faulted (hs : s.fault = true) (ht : t.fault = true) (ho : t.bitOffset = s.bitOffset) : FailureRow s t .faulted
  | sticky {c : Cause} (hc : c = .illegalCmd ∨ c = .contract) (hs : s.fault = false) (ht : t.fault = true)
      (ho : t.bitOffset = s.bitOffset) : FailureRow s t c
  | exhausted (hs : s.fault = false) (ht : t.fault = false) (ho : t.bitOffset = s.endOfBuffer) : FailureRow s t .exhausted
  | overflow {c : Cause} (hc : c = .varintOverflow ∨ c = .stackOverflow) (hs : s.fault = false) (ht : t.fault = false)
      (ho : s.bitOffset < t.bitOffset) (hend : t.bitOffset ≤ s.endOfBuffer) : FailureRow s t c

/-- A command that began in `s` has ended in `t`: its last delivery is a success response, or its only one is a failure response
and the row of the cause holds. -/
inductive Ended (s t : State) : Prop where
  | succeeds (ds : List Delivery) (r : Response) (hr : r.status = 0)
      (hd : t.delivered = s.delivered ++ ds ++ [.response r]) : Ended s t
  | fails (c : Cause) (ha : Answered s t) (hd : t.delivered = s.delivered ++ [.response (Response.failure c)])
      (hrow : FailureRow s t c) : Ended s t

/-! ### Raises inside a command (R202, R203, R206) -/

/-- A raise that leaves the latch clear: the cursor is at the end of the buffer, or bits have been taken before an overflow. -/
theorem Ended.of_raise {s t : State} {c : Cause} (hf : s.fault = false) (hin : s.bitOffset ≤ s.endOfBuffer)
    (ha : Answered s t) (ht : t.fault = s.fault) (hd : t.delivered = s.delivered ++ [.response (Response.failure c)])
    (h : c = .exhausted ∧ t.bitOffset = max s.bitOffset s.endOfBuffer ∨
      (c = .varintOverflow ∨ c = .stackOverflow) ∧ s.bitOffset < t.bitOffset) : Ended s t := by
  have hend := ha.bounded
  rw [Nat.max_eq_right hin] at h hend
  rcases h with ⟨rfl, ho⟩ | ⟨hc, ho⟩
  · exact .fails _ ha hd (.exhausted hf (ht.trans hf) ho)
  · exact .fails c ha hd (.overflow hc hf (ht.trans hf) ho hend)

/-! ### Refusals (R204, R207, R208) -/

theorem ended_accept_faulted {s : State} (body : State → State) (hf : s.fault = true) : Ended s (s.accept body) := by
  have ha : Answered s (State.fail .faulted { s with busy := true }) := (Running.accepted s).fail id _
  rw [State.accept, if_pos hf]
  exact .fails .faulted ha rfl (.faulted hf (by simp [hf]) rfl)

theorem rejectCommand_ended {s : State} (hf : s.fault = false) : Ended s s.rejectCommand := by
  have ha := Reader.reject.answered s
  rw [rejectCommand_ok hf] at ha ⊢
  exact .fails .illegalCmd ha rfl (.sticky (.inl rfl) hf rfl rfl)

/-! ### The commands -/

theorem loadCommand_ended {arg : Word32} {s : State} (hf : s.fault = false) : Ended s (loadCommand arg s) := by
  rcases Nat.lt_or_ge s.cfg.bufMaxBytes arg.toNat with hlong | hle
  · rw [loadCommand_eq_rejectCommand hf hlong]
    exact rejectCommand_ended hf
  · rw [loadCommand_loads hf hle]
    exact .succeeds [] (Response.success 0 0 0 0) rfl (by simp)

theorem consumeCommand_ended {W count : Nat} {s : State} (hf : s.fault = false) (hin : s.bitOffset ≤ s.endOfBuffer) :
    Ended s (consumeCommand W count s) := by
  have ha := consumeCommand_answered W count s
  rcases Nat.lt_or_ge W count with hw | hw
  · rw [consumeCommand_contract hf hw] at ha ⊢
    exact .fails .contract ha rfl (.sticky (.inr rfl) hf rfl rfl)
  · rcases consume_cases s hw with ⟨ho, -⟩ | ⟨⟨hc, ho⟩, -⟩
    · rw [consumeCommand_returns hf hw ho]
      exact .succeeds [] _ rfl (by rw [List.append_nil])
    · rw [consumeCommand_exhausted hf hw hc ho] at ha ⊢
      exact .of_raise hf hin ha rfl rfl (.inl ⟨rfl, rfl⟩)

theorem varintCommand_returns {s t : State} {v : Word64} {k : Nat} (hf : s.fault = false)
    (h : varint { s with busy := true } = .ok (v, k) t) :
    varintCommand s = t.respond (Response.success v (BitVec.ofNat 32 k) 0 0) :=
  Host.Outcome.next.inj (exec_varint_returns hf h)

theorem varintCommand_raises {s t : State} {c : Cause} (hf : s.fault = false) (hc : c.sticky = false)
    (h : varint { s with busy := true } = .raise c t) : varintCommand s = t.respond (Response.failure c) :=
  Host.Outcome.next.inj (exec_varint_raises hf hc h)

theorem varintCommand_ended {s : State} (hf : s.fault = false) (hin : s.bitOffset ≤ s.endOfBuffer) :
    Ended s (varintCommand s) := by
  have ha := varintCommand_answered s
  have hm := varint_moved { s with busy := true }
  rcases varint_cases { s with busy := true } with ⟨t, hv, -⟩ | ⟨t, hv, ht⟩ | ⟨t, hv, -, h5, -⟩ <;> rw [hv] at hm <;>
    have hdel : t.delivered = s.delivered := hm.delivered
  · rw [varintCommand_returns hf hv]
    exact .succeeds [] (Response.success t.acc (BitVec.ofNat 32 t.groups) 0 0) rfl (by simp [hdel])
  · have ho : t.bitOffset = max s.bitOffset s.endOfBuffer := by rw [ht]
    rw [varintCommand_raises hf rfl hv] at ha ⊢
    exact .of_raise hf hin ha hm.fault (by simp [hdel]) (.inl ⟨rfl, ho⟩)
  · have htaken : s.bitOffset + 5 ≤ t.bitOffset := h5
    rw [varintCommand_raises hf rfl hv] at ha ⊢
    exact .of_raise hf hin ha hm.fault (by simp [hdel]) (.inr ⟨.inl rfl, (by omega : s.bitOffset < t.bitOffset)⟩)

/-- An attempt that overflows has taken eleven bits (R164). -/
theorem packetCommand_ended {s : State} (hf : s.fault = false) (hstk : s.stk = []) (hin : s.bitOffset ≤ s.endOfBuffer) :
    Ended s (packetCommand s) := by
  have ha := packetCommand_answered s
  have hfault := packetCommand_fault s
  cases hp : packet s.packetAttempt with
  | ok u t =>
    obtain ⟨p, hev, -⟩ := packet_ok_events (s := s.packetAttempt) hstk hp
    rw [packetCommand_completes hf hp hev]
    exact .succeeds (p.events.map .event) (Response.success 0 1 0 0) rfl rfl
  | raise c t =>
    rw [packetCommand_raises hf hp] at ha hfault ⊢
    refine .of_raise hf hin ha hfault rfl ((packet_raise_cases hp).imp_right fun ⟨hc, h11⟩ => ⟨hc, ?_⟩)
    have htaken : s.bitOffset + 11 ≤ t.bitOffset := h11
    exact (by omega : s.bitOffset < t.bitOffset)

/-- Of STREAM's attempts only one that overflows makes it fail; the attempts completed before it have moved the cursor on. -/
theorem streamCommand_ended {s : State} (hf : s.fault = false) (hstk : s.stk = []) (hin : s.bitOffset ≤ s.endOfBuffer) :
    Ended s (streamCommand s) := by
  have ha := streamCommand_answered s
  have hfault := streamCommand_fault s
  obtain ⟨ps, u, c, t, h, hx⟩ := exists_attempts s.streamAttempts hstk
  rcases packet_raise_cases hx with ⟨rfl, -⟩ | ⟨hc, h11⟩
  · rw [h.streamCommand_exhausted hf hx]
    exact .succeeds _ (streamResponse s ps.length u.bitOffset) rfl rfl
  · have hne : c ≠ .exhausted := by rcases hc with rfl | rfl <;> decide
    have hforward : s.bitOffset ≤ u.bitOffset := h.attempted.forward
    rw [h.streamCommand_overflows hf hx hne] at ha hfault ⊢
    have htaken : u.bitOffset + 11 ≤ t.bitOffset := h11
    exact .of_raise hf hin ha hfault rfl (.inr ⟨hc, (by omega : s.bitOffset < t.bitOffset)⟩)

theorem Reader.ended {f : State → State} (h : Reader f) {s : State} (hf : s.fault = false) (hstk : s.stk = [])
    (hin : s.bitOffset ≤ s.endOfBuffer) : Ended s (f s) := by
  cases h with
  | reject => exact rejectCommand_ended hf
  | consume W count => exact consumeCommand_ended hf hin
  | varint => exact varintCommand_ended hf hin
  | packet => exact packetCommand_ended hf hstk hin
  | stream => exact streamCommand_ended hf hstk hin

/-- Every word on the command port ends one of the two ways. -/
theorem runCommand_ended {op : BitVec 8} {arg : Word32} {s t : State} (hstk : s.stk = [])
    (hin : s.bitOffset ≤ s.endOfBuffer) (h : runCommand op arg s = .next t) : Ended s t := by
  rcases Bool.eq_false_or_eq_true s.fault with hf | hf
  · obtain ⟨body, hrun⟩ := runCommand_accepts op arg
    obtain rfl := Host.Outcome.next.inj ((hrun s).symm.trans h)
    exact ended_accept_faulted body hf
  · rcases runCommand_eq op arg with ⟨-, hload⟩ | ⟨f, hread, hrun⟩
    · obtain rfl := Host.Outcome.next.inj ((hload s).symm.trans h)
      exact loadCommand_ended hf
    · obtain rfl := Host.Outcome.next.inj ((hrun s).symm.trans h)
      exact hread.ended hf hstk hin

/-! ### What a failed command leaves (R66, R212, R213) -/

theorem deliveries_inj {before ds ds' : List Delivery} {r r' : Response}
    (h : before ++ ds ++ [.response r] = before ++ ds' ++ [.response r']) : ds = ds' ∧ r = r' := by
  rw [List.append_assoc, List.append_assoc] at h
  obtain ⟨hds, hr⟩ := List.append_inj' (List.append_cancel_left h) rfl
  exact ⟨hds, Delivery.response.inj (List.singleton_inj.mp hr)⟩

/-- Settles O10: a response with non-zero status is no success response, and each row of R212 is one case. -/
theorem failedCommandLeaves : Obligations.FailedCommandLeaves := by
  intro s t op arg rest ds r hinv hi hstep hd hr
  have hrun : runCommand op arg { s with inbox := rest } = .next t := by
    rw [step_of_inbox hinv.boundary.notBusy hi] at hstep
    exact hstep
  cases runCommand_ended (s := { s with inbox := rest }) hinv.boundary.noFrame hinv.cursorBound hrun with
  | succeeds ds' r' hr' hd' =>
    obtain ⟨-, rfl⟩ := deliveries_inj (hd.symm.trans hd')
    exact absurd hr' hr
  | fails c ha hd' hrow =>
    obtain ⟨rfl, rfl⟩ := deliveries_inj (ds' := []) (hd.symm.trans (hd'.trans (by rw [List.append_nil])))
    refine ⟨rfl, ha.buf, ha.len, ?_⟩
    cases hrow with
    | faulted hs ht ho => exact .inl ⟨rfl, hs, ht, ho⟩
    | sticky hc hs ht ho => exact .inr (.inl ⟨hc.imp (congrArg _) (congrArg _), hs, ht, ho⟩)
    | exhausted hs ht ho => exact .inr (.inr (.inl ⟨rfl, hs, ht, ho⟩))
    | overflow hc hs ht ho hend => exact .inr (.inr (.inr ⟨hc.imp (congrArg _) (congrArg _), hs, ht, ho, hend⟩))

end Sys2Proof.Machine
end

section
/-! The host's own actions, a reset and a byte placed in its memory (R230 to R233), and the commands on a buffer with no bits
left, as it is after reset (R104(c), R158, R232). -/

namespace Sys2Proof.Machine

/-! ### The actions -/

/-- Settles O2: the step is `resetBlock`, which is `State.reset` but for what is no state of the block. -/
theorem resetStepGivesResetValues : Obligations.ResetStepGivesResetValues := by
  intro s rest hb hi
  exact ⟨State.resetBlock { s with inbox := rest }, step_of_inbox hb hi, rfl, rfl, rfl, rfl, rfl, rfl, rfl, rfl, rfl, rfl, rfl,
    rfl, rfl, rfl, rfl, rfl⟩

/-- Settles O52: the step is `placeByte`, one write to the host's memory. -/
theorem hostPlacesAByte : Obligations.HostPlacesAByte := by
  intro s addr b rest hb hwf hi
  refine ⟨s.hostMem.write addr.toNat b, step_of_inbox hb hi, Memory.write_wf _ _ hwf, fun a => ?_⟩
  simp only [Memory.read_write _ _ _ _ hwf, eq_comm (a := a)]

/-! ### Too few bits for a first read (R104(c)) -/

/-- With fewer than five bits left `varint` raises at its first group, before the fold. -/
theorem varint_exhausted {s : State} (h : 8 * s.len < s.bitOffset + 5) :
    varint s = .raise .exhausted { s with bitOffset := max s.bitOffset (8 * s.len), acc := 0, groups := 0 } := by
  rw [varint, varintLoop_succ, if_neg (Nat.not_le_of_lt h)]

/-- With fewer than three bits left an attempt raises at its first visit, `PG_VERSION`. -/
theorem packet_exhausted {s : State} (h : 8 * s.len < s.bitOffset + 3) :
    packet s = .raise .exhausted
      { s with bitOffset := max s.bitOffset (8 * s.len), stk := [], pgState := .idle } := by
  have hread := consume_exhausted (W := 8) { s with pgState := .version } (by decide) (by decide) h
  rw [packet_eq, engineRun_eq, if_neg PgState.noConfusion]
  simp only [pgAction, consume8, hread, Micro.bind_raise, State.unwind]

/-! ### The commands after reset (R232) -/

theorem consumeCommand_zero_resetBlock (W : Nat) (s : State) :
    consumeCommand W 0 s.resetBlock = s.resetBlock.respond (Response.success 0 0 0 0) :=
  consumeCommand_returns rfl (Nat.zero_le W) (.inl rfl)

theorem consumeCommand_resetBlock {W count : Nat} (s : State) (hc : 1 ≤ count) (hW : count ≤ W) :
    consumeCommand W count s.resetBlock = s.resetBlock.respond (Response.failure .exhausted) :=
  consumeCommand_exhausted_of_le rfl hW (Nat.le_refl 0) (Nat.lt_add_of_pos_right hc)

theorem varintCommand_resetBlock (s : State) :
    varintCommand s.resetBlock = s.resetBlock.respond (Response.failure .exhausted) := by
  have hread := varint_exhausted (s := { s.resetBlock with busy := true }) (by simp)
  rw [varintCommand_raises rfl rfl hread]
  rfl

theorem packetCommand_resetBlock (s : State) :
    packetCommand s.resetBlock = s.resetBlock.respond (Response.failure .exhausted) := by
  have hattempt := packet_exhausted (s := s.resetBlock.packetAttempt) (by simp [State.packetAttempt])
  rw [packetCommand_raises rfl hattempt]
  rfl

/-- STREAM's first attempt is its last: no packet is complete, and the attempt began at the end of the buffer. -/
theorem streamCommand_resetBlock (s : State) :
    streamCommand s.resetBlock = s.resetBlock.respond (Response.success 0 0 1 0) := by
  have hlast := packet_exhausted (s := s.resetBlock.streamAttempts.attempt) (by simp [State.streamAttempts, State.attempt])
  rw [Attempts.streamCommand_exhausted rfl (.nil _) hlast, packetsEvents, List.map_nil, List.append_nil]
  rfl

/-- Settles O1: the cursor of the reset block is at the end of an empty buffer, so every read of one bit or more runs out there. -/
theorem resetBlockReadsEmptyBuffer : Obligations.ResetBlockReadsEmptyBuffer := by
  refine fun s => ⟨⟨rfl, rfl, rfl⟩, fun n h0 => ?_, fun n h1 h8 => ?_, fun n h1 h16 => ?_, ?_, ?_, ?_⟩
  · rw [exec_consume8, exec_consume16, h0]
    exact ⟨congrArg _ (consumeCommand_zero_resetBlock 8 s), congrArg _ (consumeCommand_zero_resetBlock 16 s)⟩
  · exact congrArg _ (consumeCommand_resetBlock s h1 h8)
  · exact congrArg _ (consumeCommand_resetBlock s h1 h16)
  · exact congrArg _ (varintCommand_resetBlock s)
  · exact congrArg _ (packetCommand_resetBlock s)
  · exact congrArg _ (streamCommand_resetBlock s)

end Sys2Proof.Machine
end
